-- ==== Sys2Proof/Word.lean ====
section
/-! DEFINITION. The byte and word types and the fixed-length byte sequences of the core (rules R8, R10).

A block, a key, an IV and a tag are byte sequences of a fixed length and are never read as integers
(R10, R54), so they are vectors of bytes; the 32-bit integers of the packets are bit vectors (R71). -/

namespace Sys2Proof

/-- A byte, 0..255 (R10). -/
abbrev Byte := BitVec 8

/-- A 32-bit unsigned integer of the command and response packets: ADDR, LEN, the header word and the
status word (R55, R71, R80); also the width of the register REM (R31). -/
abbrev Word := BitVec 32

/-- A block: exactly 8 bytes `b[0] .. b[7]`; also an IV and a MAC tag (R8, R10). -/
abbrev Block := Vector Byte 8

/-- A key: 16 bytes `k[0] .. k[15]` (R8, R10). -/
abbrev Key := Vector Byte 16

/-- A command packet: exactly 36 bytes `P[0] .. P[35]` (R70). -/
abbrev Packet := Vector Byte 36

/-- A response packet: exactly 12 bytes `Q[0] .. Q[11]` (R70). -/
abbrev ResponsePacket := Vector Byte 12

/-- `zeros(8)` (R11). -/
def zeroBlock : Block := Vector.replicate 8 0

/-- `zeros(16)` (R11). -/
def zeroKey : Key := Vector.replicate 16 0

end Sys2Proof
end

