-- ==== Sys2Proof/Syntax.lean ====
section
/-! DEFINITION. The syntax of the core: the fourteen commands, one constructor per row of the opcode table
(R3, R75), the operand vocabulary of the commands (R13) and the fields of a command packet (R71). -/

namespace Sys2Proof

/-- The direction handed to the Block Primitive: "direction: {forward, inverse}" (R13, R100). -/
inductive Direction where
  | forward
  | inverse
  deriving DecidableEq, Repr, Inhabited

/-- The direction of a cipher command (R13). -/
inductive CipherDir where
  | enc
  | dec
  deriving DecidableEq, Repr

/-- The two feedback modes (R13, R130). -/
inductive Mode where
  | cfb
  | ofb
  deriving DecidableEq, Repr

/-- The fourteen commands of the public surface with the operands of their formats (R74, R75, R83).
Every operand is typed by its width, so every term is a command that some legal packet encodes. -/
inductive Instr where
  /-- `configure rounds, macRounds`, OP 0x01, format F-CFG (R110). -/
  | configure (rounds macRounds : Byte)
  /-- `ecbEncrypt key, data, length`, OP 0x10, format F-KAL (R122). -/
  | ecbEncrypt (key : Key) (addr len : Word)
  /-- `ecbDecrypt key, data, length`, OP 0x11, format F-KAL (R123). -/
  | ecbDecrypt (key : Key) (addr len : Word)
  /-- `cfbEncrypt key, iv, data, length`, OP 0x20, format F-KIAL (R135). -/
  | cfbEncrypt (key : Key) (iv : Block) (addr len : Word)
  /-- `cfbDecrypt key, iv, data, length`, OP 0x21, format F-KIAL (R136). -/
  | cfbDecrypt (key : Key) (iv : Block) (addr len : Word)
  /-- `ofbEncrypt key, iv, data, length`, OP 0x30, format F-KIAL (R137). -/
  | ofbEncrypt (key : Key) (iv : Block) (addr len : Word)
  /-- `ofbDecrypt key, iv, data, length`, OP 0x31, format F-KIAL (R138). -/
  | ofbDecrypt (key : Key) (iv : Block) (addr len : Word)
  /-- `macInit key`, OP 0x40, format F-K (R153). -/
  | macInit (key : Key)
  /-- `macUpdate data, length`, OP 0x41, format F-AL (R155). -/
  | macUpdate (addr len : Word)
  /-- `macFinish`, OP 0x42, format F-0 (R157). -/
  | macFinish
  /-- `macGet`, OP 0x43, format F-0 (R158). -/
  | macGet
  /-- `macCmp tag`, OP 0x44, format F-T (R159). -/
  | macCmp (tag : Block)
  /-- `macCompute key, data, length`, OP 0x48, format F-KAL (R161). -/
  | macCompute (key : Key) (addr len : Word)
  /-- `macVerify key, tag, data, length`, OP 0x49, format F-KTAL (R162). -/
  | macVerify (key : Key) (tag : Block) (addr len : Word)
  deriving DecidableEq, Repr

/-- The eight packet formats, by the set of fields a command uses (R74). -/
inductive Format where
  | cfg | kal | kial | k | al | zero | t | ktal
  deriving DecidableEq, Repr

/-- The fields of a command packet, at fixed positions (R71): the four bytes of the header word H
(OP = H[7:0], RND = H[15:8], MRND = H[23:16], RSV = H[31:24]), ADDR, LEN, KEY and AUX. -/
structure Fields where
  op   : Byte
  rnd  : Byte
  mrnd : Byte
  rsv  : Byte
  addr : Word
  len  : Word
  key  : Key
  aux  : Block
  deriving DecidableEq, Repr

end Sys2Proof
end

