-- ==== Sys2Proof/Config.lean ====
section
/-! DEFINITION. The configuration of the core: what the spec leaves OPEN as an argument of the model (R9) and
the values it leaves unspecified (R40, R42, R231).

`Config` is the record of all of them, so that the meanings are written once over any configuration and a
claim can quantify over all of them; `Config.hw` is the hardware's own, made of opaque constants with no
body, of which nothing can be proved but what holds of every value. -/

namespace Sys2Proof

/-- A value of the Block Primitive's opaque type `Sched` (R27, R100), held as a finite byte string of any
length. DESIGN CHOICE (log 1): safe; the core only stores a schedule and hands it back (R101). -/
structure Sched where
  bytes : List Byte
  deriving DecidableEq, Repr, Inhabited

/-- The model's configuration: `PRIM`, `DERIVE` and `DMEM_SIZE` (R9), and the values the spec calls
unspecified, as free draws: what the six registers of R40 hold after reset number `n`, what a DMEM byte
that nothing has written holds (R42), and which bytes of an interrupted command's buffer were already
new (R231). -/
structure Config where
  /-- `initSchedule(key, rounds)` of the Block Primitive, total and pure (R100, R101). -/
  initSchedule : Key → Byte → Sched
  /-- `permute(ks, direction, block)` of the Block Primitive, total and pure (R100, R101). -/
  permute : Sched → Direction → Block → Block
  /-- `DERIVE(key) = (DKE, DKM)`, total and pure (R105). -/
  derive : Key → Key × Key
  /-- `DMEM_SIZE - 1`: exactly the values of DMEM_SIZE from 1 to 2^32 (R61). -/
  dmemTop : BitVec 32
  /-- The byte at an address of DMEM at power-up (R42). -/
  powerUp : Nat → Byte
  /-- ROUNDS after reset number `n` (R40). -/
  resetRounds : Nat → Byte
  /-- MACROUNDS after reset number `n` (R40). -/
  resetMacRounds : Nat → Byte
  /-- KS after reset number `n` (R40). -/
  resetKs : Nat → Sched
  /-- DKE after reset number `n` (R40). -/
  resetDke : Nat → Key
  /-- DKM after reset number `n` (R40). -/
  resetDkm : Nat → Key
  /-- R after reset number `n` (R40). -/
  resetR : Nat → Block
  /-- Whether reset number `n`, when it abandons a command, finds the new byte at an address (R231). -/
  torn : Nat → Nat → Bool
  deriving Inhabited

/-- `DMEM_SIZE`, "at least 1 and at most 2^32" (R61). -/
def Config.dmemSize (c : Config) : Nat := c.dmemTop.toNat + 1

/-- The named property P-INV (R102): `permute(ks, inverse, permute(ks, forward, b)) == b`. -/
def Config.PInv (c : Config) : Prop :=
  ∀ ks b, c.permute ks .inverse (c.permute ks .forward b) = b

/-- The named property K-SEP (R106): `DKE != DKM` for every key. No meaning uses it. -/
def Config.KSep (c : Config) : Prop := ∀ k, (c.derive k).1 ≠ (c.derive k).2

/-- OPEN (R9, D1; log 1). -/
opaque Config.hwInitSchedule : Key → Byte → Sched

/-- OPEN (R9, D1; log 1). -/
opaque Config.hwPermute : Sched → Direction → Block → Block

/-- OPEN (R9, D12; log 2). -/
opaque Config.hwDerive : Key → Key × Key

/-- OPEN (R9, D7; log 3). -/
opaque Config.hwDmemTop : BitVec 32

/-- Unspecified (R42; log 5). -/
opaque Config.hwPowerUp : Nat → Byte

/-- Unspecified (R40; log 4). -/
opaque Config.hwResetRounds : Nat → Byte

/-- Unspecified (R40; log 4). -/
opaque Config.hwResetMacRounds : Nat → Byte

/-- Unspecified (R40; log 4). -/
opaque Config.hwResetKs : Nat → Sched

/-- Unspecified (R40; log 4). -/
opaque Config.hwResetDke : Nat → Key

/-- Unspecified (R40; log 4). -/
opaque Config.hwResetDkm : Nat → Key

/-- Unspecified (R40; log 4). -/
opaque Config.hwResetR : Nat → Block

/-- Unspecified (R231; log 8). -/
opaque Config.hwTorn : Nat → Nat → Bool

/-- The hardware's configuration: every component is an opaque constant. -/
def Config.hw : Config where
  initSchedule := Config.hwInitSchedule
  permute := Config.hwPermute
  derive := Config.hwDerive
  dmemTop := Config.hwDmemTop
  powerUp := Config.hwPowerUp
  resetRounds := Config.hwResetRounds
  resetMacRounds := Config.hwResetMacRounds
  resetKs := Config.hwResetKs
  resetDke := Config.hwResetDke
  resetDkm := Config.hwResetDkm
  resetR := Config.hwResetR
  torn := Config.hwTorn

end Sys2Proof
end

