-- ==== Sys2Proof/Machine/State.lean ====
section
/-! DEFINITION. The state of one core instance (R20), its two ports, and the state after reset (R37 to R40).

The ten registers and DMEM are the spec's. The port fields are the model's: the step is a function of the
state, so the host's coming moves (R5) and the last response (R70) are held as plain data (log 6). -/

namespace Sys2Proof.Machine

/-- DMEM as (address, byte) pairs, addresses rising, none equal to what an unlisted address reads as (R50). -/
abbrev Memory := List Host.Cell

/-- The phase of the MAC Engine, register MACST (R32). -/
inductive MacPhase where
  | uninitialized
  | ready
  | accumulating
  | finished
  deriving DecidableEq, Repr

/-- The five error causes (R202 to R206). -/
inductive Cause where
  | illegalCommand
  | notConfigured
  | invalidState
  | invalidLength
  | outOfRange
  deriving DecidableEq, Repr

/-- The STATUS field of a response (R80); the codes 6 to 15 are never produced (R208), so they have no name. -/
inductive Status where
  | ok
  | error (cause : Cause)
  deriving DecidableEq, Repr

/-- A response (R80): STATUS, BOOL and TAG. `Response.bytes` is its 12-byte packet. -/
structure Response where
  status : Status
  bool   : Bool
  tag    : Block
  deriving DecidableEq, Repr

/-- What the outside does to the core, one event at a time (R5, R209, R230). -/
inductive HostEvent where
  /-- The host hands over a 36-byte command packet (R70). -/
  | command (p : Packet)
  /-- The host writes bytes to DMEM between two commands (R5). -/
  | hostWrite (addr : Nat) (bytes : List Byte)
  /-- The platform resets the idle core (R230). -/
  | reset
  /-- The platform resets the core while it executes a command, which is abandoned (R230, R231). -/
  | resetDuring (p : Packet)
  deriving DecidableEq, Repr

/-- The state: RoundConfig, Session Context, DMEM (R20), and the model's port fields (log 6). -/
structure State where
  /-- ROUNDS (R23). -/
  rounds    : Byte
  /-- MACROUNDS (R24). -/
  macRounds : Byte
  /-- CFGV (R25). -/
  cfgv      : Bool
  /-- KS, the active key schedule (R27). -/
  ks        : Sched
  /-- DKE, the first key of the Derived Key Pair; written, never read (R28). -/
  dke       : Key
  /-- DKM, the second key of the Derived Key Pair (R28). -/
  dkm       : Key
  /-- R: feedback register, keystream block and MAC accumulator (R29). -/
  r         : Block
  /-- POS, 3 bits: the stream position modulo 8 (R30). -/
  pos       : Fin 8
  /-- REM, 32 bits: the remaining-length counter (R31). -/
  rem       : Word
  /-- MACST (R32). -/
  macst     : MacPhase
  /-- DMEM (R50). -/
  dmem      : Memory
  /-- The model's: the host's and the platform's coming moves, next first (R5). -/
  events    : List HostEvent
  /-- The model's: the response the core answered last (R70, R80); none before the first. -/
  response  : Option Response
  /-- The model's: how many resets have followed power-up; it indexes the free draws of R40. -/
  resets    : Nat
  deriving DecidableEq, Repr

/-- Why the machine stops. No command of the core stops it: every packet in every state yields a response
(R201); only the host can name an address that is not there. -/
inductive Fault where
  /-- Raised by `step` on a `hostWrite` event whose bytes reach an address at or above DMEM_SIZE, which does
  not exist (R61). Safe: the model stops where the spec says nothing. -/
  | hostWriteOutsideDmem
  deriving DecidableEq, Repr

/-- Why the model has no meaning for an instruction. -/
inductive Refusal where
  /-- Raised by an arm of `exec` that has no meaning yet; no arm is left that raises it. Safe. -/
  | notModelled (mnemonic : String)
  deriving DecidableEq, Repr

/-- The machine right after power-up, which is a reset (R230): CFGV = 0, POS = 0, REM = 0 (R38), MACST =
Uninitialized (R39); the six registers of R40 hold free draws of the configuration (log 4); DMEM lists
nothing, so every byte is the power-up byte of its address (R42; log 5). No event and no response yet. -/
def State.reset : State where
  rounds := Config.hw.resetRounds 0
  macRounds := Config.hw.resetMacRounds 0
  cfgv := false
  ks := Config.hw.resetKs 0
  dke := Config.hw.resetDke 0
  dkm := Config.hw.resetDkm 0
  r := Config.hw.resetR 0
  pos := 0
  rem := 0
  macst := .uninitialized
  dmem := []
  events := []
  response := none
  resets := 0

end Sys2Proof.Machine
end

