-- ==== Sys2Proof/Machine/Flags.lean ====
section
/-! DEFINITION. Status codes, the boolean result and the response packet (R80, R81), the value of MACST
(R32), and the tag comparison (R159). The core has no condition codes (R34). -/

namespace Sys2Proof.Machine

/-- The two-bit value of MACST (R32). -/
def MacPhase.code : MacPhase → BitVec 2
  | .uninitialized => 0
  | .ready => 1
  | .accumulating => 2
  | .finished => 3

/-- The STATUS code of an error (R80, R202 to R206); the numeric order is the priority order (R207). -/
def Cause.code : Cause → Nat
  | .illegalCommand => 1
  | .notConfigured => 2
  | .invalidState => 3
  | .invalidLength => 4
  | .outOfRange => 5

/-- The STATUS code, 0 for OK (R80). -/
def Status.code : Status → Nat
  | .ok => 0
  | .error e => e.code

/-- The status word S: STATUS in bits 3:0, BOOL in bit 8, every other bit 0 (R80). -/
def Response.statusWord (q : Response) : Word :=
  BitVec.ofNat 32 (q.status.code + if q.bool then 256 else 0)

/-- The 12-byte response packet: S little-endian, then TAG (R80). -/
def Response.bytes (q : Response) : ResponsePacket :=
  Vector.ofFn fun i : Fin 12 =>
    if h : i.val < 4 then q.statusWord.extractLsb' (8 * i.val) 8 else q.tag[i.val - 4]'(by omega)

/-- The successful response with a boolean and a tag field. -/
def Response.okWith (bool : Bool) (tag : Block) : Response := ⟨.ok, bool, tag⟩

/-- The response of a raised error: BOOL = 0 and TAG = 8 zero bytes (R81, R201). -/
def Response.ofCause (e : Cause) : Response := ⟨.error e, false, zeroBlock⟩

/-- "Returns true iff byte-for-byte equal": all 8 bytes are compared (R159). -/
def tagsEqual (t r : Block) : Bool :=
  t[0] == r[0] && t[1] == r[1] && t[2] == r[2] && t[3] == r[3] &&
  t[4] == r[4] && t[5] == r[5] && t[6] == r[6] && t[7] == r[7]

end Sys2Proof.Machine
end

