-- ==== Sys2Proof/Machine/Ops.lean ====
section
/-! DEFINITION. The named operations over DMEM, registers and ports: reading and writing memory (R50 to R53),
byte sequences (R11), register writes, and ending a command by a response or by raising an error (R201). -/

namespace Sys2Proof.Machine

/-! ### DMEM -/

/-- One byte of DMEM: the listed byte, or the power-up byte of the address (R42, R52). -/
def Memory.read (c : Config) : Memory → Nat → Byte
  | [], a => c.powerUp a
  | (k, b) :: m, a => if a = k then b else Memory.read c m a

/-- Write one byte, keeping the canonical form (R53). -/
def Memory.write (c : Config) : Memory → Nat → Byte → Memory
  | [], a, v => if v = c.powerUp a then [] else [(a, v)]
  | (k, b) :: m, a, v =>
    if a < k then if v = c.powerUp a then (k, b) :: m else (a, v) :: (k, b) :: m
    else if a = k then if v = c.powerUp a then m else (a, v) :: m
    else (k, b) :: Memory.write c m a v

/-- The canonical form of DMEM: addresses strictly rising, every one below DMEM_SIZE (R61), and no entry
equal to what an unlisted address reads as. -/
abbrev Memory.wf (c : Config) (m : Memory) : Prop :=
  m.Pairwise (fun x y => x.1 < y.1) ∧ ∀ x ∈ m, x.1 < c.dmemSize ∧ x.2 ≠ c.powerUp x.1

/-- `MemRead(addr, n)`: the `n` bytes from `addr`, lowest address first (R52). -/
def Memory.readBytes (c : Config) (m : Memory) (a : Nat) : Nat → List Byte
  | 0 => []
  | n + 1 => Memory.read c m a :: Memory.readBytes c m (a + 1) n

/-- `MemWrite(addr, n, v)`: the bytes of `v` at ascending addresses from `addr` (R53). -/
def Memory.writeBytes (c : Config) (m : Memory) (a : Nat) : List Byte → Memory
  | [] => m
  | v :: vs => Memory.writeBytes c (Memory.write c m a v) (a + 1) vs

/-- `MemRead(addr, 8)` as a block: `block[i] = DMEM[addr+i]` (R54, R58). -/
def Memory.readBlock (c : Config) (m : Memory) (a : Nat) : Block :=
  Vector.ofFn fun i : Fin 8 => Memory.read c m (a + i.val)

/-! ### Byte sequences -/

/-- XOR of two byte sequences index by index, as long as the shorter (R11). -/
def xorBytes (xs ys : List Byte) : List Byte := List.zipWith (· ^^^ ·) xs ys

/-- `R[pos .. pos+m-1] <- bs`, the other bytes of the block kept (R131, R141). -/
def overwrite (r : Block) (pos : Nat) (bs : List Byte) : Block :=
  Vector.ofFn fun i : Fin 8 =>
    if pos ≤ i.val ∧ i.val < pos + bs.length then bs.getD (i.val - pos) 0 else r[i.val]

/-! ### Register writes -/

/-- `ROUNDS <- r; MACROUNDS <- m; CFGV <- 1` (R110). -/
def State.setRoundConfig (s : State) (r m : Byte) : State :=
  { s with rounds := r, macRounds := m, cfgv := true }

/-- `KS <- v` (R27). -/
def State.setKs (s : State) (v : Sched) : State := { s with ks := v }

/-- `(DKE, DKM) <- v` (R28). -/
def State.setDerived (s : State) (v : Key × Key) : State := { s with dke := v.1, dkm := v.2 }

/-- `R <- v` (R29). -/
def State.setR (s : State) (v : Block) : State := { s with r := v }

/-- `POS <- v` (R30). -/
def State.setPos (s : State) (v : Fin 8) : State := { s with pos := v }

/-- `REM <- v` (R31). -/
def State.setRem (s : State) (v : Word) : State := { s with rem := v }

/-- `MACST <- v` (R32). -/
def State.setMacst (s : State) (v : MacPhase) : State := { s with macst := v }

/-- DMEM after the writes of a command (R53). -/
def State.setDmem (s : State) (v : Memory) : State := { s with dmem := v }

/-- The host's next moves (R5). -/
def State.setEvents (s : State) (v : List HostEvent) : State := { s with events := v }

/-! ### Ending a command -/

/-- `respond(OK, bool, tag)`: the command ends with this response (R80, R201). -/
def respondOk (bool : Bool) (tag : Block) (s : State) : State :=
  { s with response := some (Response.okWith bool tag) }

/-- `raise e`, the core's only exception: no register and no DMEM byte changes, and the response carries the
status with BOOL = 0 and TAG zero (R201, R210). There is nothing to return to and no return instruction
(R211): the core is idle and takes the next command. -/
def raise (e : Cause) (s : State) : State :=
  { s with response := some (Response.ofCause e) }

end Sys2Proof.Machine
end

