-- ==== Sys2Proof/Machine/Operands.lean ====
section
/-! DEFINITION. What the prologue of R108 asks of a command and its operands: the phases it is allowed in
(R150, R204), the ECB length rule (R205), the buffer and its range (R51, R206), and the prologue itself. -/

namespace Sys2Proof.Machine

/-- A MAC session is open while MACST is Ready or Accumulating (R151). -/
def MacPhase.sessionOpen : MacPhase → Bool
  | .uninitialized => false
  | .ready => true
  | .accumulating => true
  | .finished => false

/-- The command is allowed in the phase: the cells of R150's table that are not `IS`. -/
def allowedIn : Instr → MacPhase → Bool
  | .configure _ _, _ => true
  | .ecbEncrypt _ _ _, p => !p.sessionOpen
  | .ecbDecrypt _ _ _, p => !p.sessionOpen
  | .cfbEncrypt _ _ _ _, p => !p.sessionOpen
  | .cfbDecrypt _ _ _ _, p => !p.sessionOpen
  | .ofbEncrypt _ _ _ _, p => !p.sessionOpen
  | .ofbDecrypt _ _ _ _, p => !p.sessionOpen
  | .macInit _, p => !p.sessionOpen
  | .macUpdate _ _, p => p.sessionOpen
  | .macFinish, p => p.sessionOpen
  | .macGet, p => p == .finished
  | .macCmp _, p => p == .finished
  | .macCompute _ _ _, p => !p.sessionOpen
  | .macVerify _ _ _ _, p => !p.sessionOpen

/-- The buffer (ADDR, LEN) of a command whose format has one (R51, R206). -/
def bufferOf : Instr → Option (Word × Word)
  | .configure _ _ => none
  | .ecbEncrypt _ a n => some (a, n)
  | .ecbDecrypt _ a n => some (a, n)
  | .cfbEncrypt _ _ a n => some (a, n)
  | .cfbDecrypt _ _ a n => some (a, n)
  | .ofbEncrypt _ _ a n => some (a, n)
  | .ofbDecrypt _ _ a n => some (a, n)
  | .macInit _ => none
  | .macUpdate a n => some (a, n)
  | .macFinish => none
  | .macGet => none
  | .macCmp _ => none
  | .macCompute _ a n => some (a, n)
  | .macVerify _ _ a n => some (a, n)

/-- "ECB input length must be an exact multiple of the block size" (R57, R205); other lengths are free. -/
def lengthOk : Instr → Bool
  | .configure _ _ => true
  | .ecbEncrypt _ _ n => n.toNat % 8 == 0
  | .ecbDecrypt _ _ n => n.toNat % 8 == 0
  | .cfbEncrypt _ _ _ _ => true
  | .cfbDecrypt _ _ _ _ => true
  | .ofbEncrypt _ _ _ _ => true
  | .ofbDecrypt _ _ _ _ => true
  | .macInit _ => true
  | .macUpdate _ _ => true
  | .macFinish => true
  | .macGet => true
  | .macCmp _ => true
  | .macCompute _ _ _ => true
  | .macVerify _ _ _ _ => true

/-- A buffer is inside DMEM: `LEN = 0`, where ADDR is not examined, or `ADDR + LEN <= DMEM_SIZE` in the
naturals, without wrap (R73, R206). -/
def inRange (c : Config) (a n : Word) : Bool := n == 0 || decide (a.toNat + n.toNat ≤ c.dmemSize)

/-- The command's buffer, if it has one, is inside DMEM (R206). -/
def bufferInRange (c : Config) (i : Instr) : Bool :=
  match bufferOf i with
  | none => true
  | some (a, n) => inRange c a n

/-- The command is `configure`, which makes none of the checks below (R108). -/
def isConfigure : Instr → Bool
  | .configure _ _ => true
  | _ => false

/-- The prologue of R108 after the packet's legality: the first check that fails, in the priority order of
R207. `configure` makes only the legality check. -/
def prologue (c : Config) (i : Instr) (s : State) : Option Cause :=
  if isConfigure i then none
  else if !s.cfgv then some .notConfigured
  else if !allowedIn i s.macst then some .invalidState
  else if !lengthOk i then some .invalidLength
  else if !bufferInRange c i then some .outOfRange
  else none

/-- A command: its prologue, then, when no check fails, its body (R108, R201). -/
def command (c : Config) (i : Instr) (body : State → State) (s : State) : State :=
  match prologue c i s with
  | some e => raise e s
  | none => body s

end Sys2Proof.Machine
end

