-- ==== Sys2Proof/Machine/Configure.lean ====
section
/-! DEFINITION. The command `configure` (R110). -/

namespace Sys2Proof.Machine

/-- `ROUNDS <- r; MACROUNDS <- m; CFGV <- 1; respond(OK, 0, zeros(8))` (R110). -/
def configureBody (r m : Byte) (s : State) : State :=
  respondOk false zeroBlock (s.setRoundConfig r m)

/-- `configure` over a configuration (R110). -/
def configureWith (c : Config) (r m : Byte) (s : State) : State :=
  command c (.configure r m) (configureBody r m) s

/-- `configure rounds=r, macRounds=m` (R110). -/
def execConfigure (r m : Byte) (s : State) : Host.Outcome State Fault Refusal :=
  .next (configureWith Config.hw r m s)

end Sys2Proof.Machine
end

