-- ==== Sys2Proof/Machine/Ecb.lean ====
section
/-! DEFINITION. The ECB Executor: `EcbRun` (R121), `ecbEncrypt` (R122), `ecbDecrypt` (R123). -/

namespace Sys2Proof.Machine

/-- What `EcbRun` works on: the transient address of the next block, DMEM, and, for R245, how many loop
iterations and `permute` calls it has made. Only DMEM is state; the rest lives inside one command. -/
structure EcbEngine where
  ptr        : Nat
  dmem       : Memory
  iterations : Nat
  permutes   : Nat
  deriving DecidableEq, Repr

/-- One iteration of the loop of `EcbRun`: the block is read whole, then replaced whole by
`permute(KS, dir, blk)` (R121). -/
def ecbBlock (c : Config) (ks : Sched) (dir : Direction) (e : EcbEngine) : EcbEngine where
  ptr := e.ptr + 8
  dmem := Memory.writeBytes c e.dmem e.ptr (c.permute ks dir (Memory.readBlock c e.dmem e.ptr)).toList
  iterations := e.iterations + 1
  permutes := e.permutes + 1

/-- The loop of `EcbRun` over `k` blocks, ascending (R121). -/
def ecbLoop (c : Config) (ks : Sched) (dir : Direction) : Nat → EcbEngine → EcbEngine
  | 0, e => e
  | k + 1, e => ecbLoop c ks dir k (ecbBlock c ks dir e)

/-- The engine at the end of `EcbRun` over the `k` blocks from address `a` (R121). -/
def ecbEngine (c : Config) (ks : Sched) (dir : Direction) (k a : Nat) (m : Memory) : EcbEngine :=
  ecbLoop c ks dir k ⟨a, m, 0, 0⟩

/-- `EcbRun` over the `k` blocks from address `a`: it reads KS and DMEM and writes DMEM only (R121). -/
def ecbRun (c : Config) (ks : Sched) (dir : Direction) (k a : Nat) (m : Memory) : Memory :=
  (ecbEngine c ks dir k a m).dmem

/-- `KS <- initSchedule(K, ROUNDS); EcbRun(dir, A, N); respond(OK, 1, zeros(8))` (R122, R123). The core
schedules the caller's key as given (R107). -/
def ecbBody (c : Config) (dir : Direction) (k : Key) (a n : Word) (s : State) : State :=
  let ks := c.initSchedule k s.rounds
  respondOk true zeroBlock ((s.setKs ks).setDmem (ecbRun c ks dir (n.toNat / 8) a.toNat s.dmem))

/-- `ecbEncrypt` over a configuration (R122). -/
def ecbEncryptWith (c : Config) (k : Key) (a n : Word) (s : State) : State :=
  command c (.ecbEncrypt k a n) (ecbBody c .forward k a n) s

/-- `ecbDecrypt` over a configuration (R123): "the only place in the core where `permute` is called with
`inverse`". -/
def ecbDecryptWith (c : Config) (k : Key) (a n : Word) (s : State) : State :=
  command c (.ecbDecrypt k a n) (ecbBody c .inverse k a n) s

/-- `ecbEncrypt key=K, data=A, length=N` (R122). -/
def execEcbEncrypt (k : Key) (a n : Word) (s : State) : Host.Outcome State Fault Refusal :=
  .next (ecbEncryptWith Config.hw k a n s)

/-- `ecbDecrypt key=K, data=A, length=N` (R123). -/
def execEcbDecrypt (k : Key) (a n : Word) (s : State) : Host.Outcome State Fault Refusal :=
  .next (ecbDecryptWith Config.hw k a n s)

end Sys2Proof.Machine
end

