-- ==== Sys2Proof/Machine/Feedback.lean ====
section
/-! DEFINITION. The Feedback Engine: `FeedbackRun` (R131), `FeedbackCipher` (R134) and the four stream
commands (R135 to R138). -/

namespace Sys2Proof.Machine

/-- What `FeedbackRun` works on: the registers R, POS and REM, the transient address pointer `p` (R22), DMEM,
and, for R245, how many loop iterations and `permute` calls it has made. Only R, POS, REM and DMEM are
state; the rest lives inside one command. -/
structure Engine where
  r          : Block
  pos        : Fin 8
  rem        : Word
  ptr        : Nat
  dmem       : Memory
  iterations : Nat
  permutes   : Nat
  deriving DecidableEq, Repr

/-- The keystream block in force for the next chunk: a new one iff `POS == 0` (R131). The primitive is always
called with `forward` (R133). -/
def keystream (c : Config) (ks : Sched) (e : Engine) : Block :=
  if e.pos = 0 then c.permute ks .forward e.r else e.r

/-- `m <- min(8 - POS, REM)` (R131). -/
def chunkLength (e : Engine) : Nat := min (8 - e.pos.val) e.rem.toNat

/-- What R holds after a chunk: in OFB the keystream; in CFB the ciphertext bytes over the used keystream
bytes, the rest kept (R131, R133, R141). -/
def feedBack (mode : Mode) (dir : CipherDir) (r : Block) (pos : Nat) (inp out : List Byte) : Block :=
  match mode, dir with
  | .ofb, _ => r
  | .cfb, .enc => overwrite r pos out
  | .cfb, .dec => overwrite r pos inp

/-- One iteration of the loop of `FeedbackRun` (R131). -/
def feedbackChunk (c : Config) (ks : Sched) (mode : Mode) (dir : CipherDir) (discard : Bool)
    (e : Engine) : Engine :=
  let r := keystream c ks e
  let m := chunkLength e
  let inp := Memory.readBytes c e.dmem e.ptr m
  let out := xorBytes inp (r.toList.drop e.pos.val)
  { r := feedBack mode dir r e.pos.val inp out
    pos := Fin.ofNat 8 (e.pos.val + m)
    rem := e.rem - BitVec.ofNat 32 m
    ptr := e.ptr + m
    dmem := if discard then e.dmem else Memory.writeBytes c e.dmem e.ptr out
    iterations := e.iterations + 1
    permutes := if e.pos = 0 then e.permutes + 1 else e.permutes }

/-- `while REM > 0`: every iteration takes at least one byte, so LEN iterations are enough (R6, R131). -/
def feedbackLoop (c : Config) (ks : Sched) (mode : Mode) (dir : CipherDir) (discard : Bool) :
    Nat → Engine → Engine
  | 0, e => e
  | fuel + 1, e =>
    if e.rem = 0 then e
    else feedbackLoop c ks mode dir discard fuel (feedbackChunk c ks mode dir discard e)

/-- The engine at the start of a run over the buffer (a, n): `REM <- n; p <- a` (R131). -/
def engineStart (a n : Word) (s : State) : Engine :=
  ⟨s.r, s.pos, n, a.toNat, s.dmem, 0, 0⟩

/-- The engine at the end of `FeedbackRun(mode, dir, a, n, discard)` entered in state `s` (R131). -/
def feedbackEngine (c : Config) (mode : Mode) (dir : CipherDir) (a n : Word) (discard : Bool)
    (s : State) : Engine :=
  feedbackLoop c s.ks mode dir discard n.toNat (engineStart a n s)

/-- `FeedbackRun(mode, dir, a, n, discard)` (R131): reads KS, R, POS; writes R, POS, REM and, unless
`discard`, DMEM. -/
def feedbackRun (c : Config) (mode : Mode) (dir : CipherDir) (a n : Word) (discard : Bool)
    (s : State) : State :=
  let e := feedbackEngine c mode dir a n discard s
  (((s.setR e.r).setPos e.pos).setRem e.rem).setDmem e.dmem

/-- `KS <- initSchedule(K, ROUNDS); R <- IV; POS <- 0; MACST <- Uninitialized` (R134, R142). -/
def feedbackSeed (c : Config) (k : Key) (iv : Block) (s : State) : State :=
  (((s.setKs (c.initSchedule k s.rounds)).setR iv).setPos 0).setMacst .uninitialized

/-- `FeedbackCipher` after its prologue (R134). -/
def feedbackBody (c : Config) (mode : Mode) (dir : CipherDir) (k : Key) (iv : Block) (a n : Word)
    (s : State) : State :=
  respondOk false zeroBlock (feedbackRun c mode dir a n false (feedbackSeed c k iv s))

/-- `cfbEncrypt` over a configuration (R135). -/
def cfbEncryptWith (c : Config) (k : Key) (iv : Block) (a n : Word) (s : State) : State :=
  command c (.cfbEncrypt k iv a n) (feedbackBody c .cfb .enc k iv a n) s

/-- `cfbDecrypt` over a configuration (R136). -/
def cfbDecryptWith (c : Config) (k : Key) (iv : Block) (a n : Word) (s : State) : State :=
  command c (.cfbDecrypt k iv a n) (feedbackBody c .cfb .dec k iv a n) s

/-- `ofbEncrypt` over a configuration (R137). -/
def ofbEncryptWith (c : Config) (k : Key) (iv : Block) (a n : Word) (s : State) : State :=
  command c (.ofbEncrypt k iv a n) (feedbackBody c .ofb .enc k iv a n) s

/-- `ofbDecrypt` over a configuration (R138). -/
def ofbDecryptWith (c : Config) (k : Key) (iv : Block) (a n : Word) (s : State) : State :=
  command c (.ofbDecrypt k iv a n) (feedbackBody c .ofb .dec k iv a n) s

/-- `cfbEncrypt key=K, iv=IV, data=A, length=N` (R135). -/
def execCfbEncrypt (k : Key) (iv : Block) (a n : Word) (s : State) :
    Host.Outcome State Fault Refusal :=
  .next (cfbEncryptWith Config.hw k iv a n s)

/-- `cfbDecrypt key=K, iv=IV, data=A, length=N` (R136). -/
def execCfbDecrypt (k : Key) (iv : Block) (a n : Word) (s : State) :
    Host.Outcome State Fault Refusal :=
  .next (cfbDecryptWith Config.hw k iv a n s)

/-- `ofbEncrypt key=K, iv=IV, data=A, length=N` (R137). -/
def execOfbEncrypt (k : Key) (iv : Block) (a n : Word) (s : State) :
    Host.Outcome State Fault Refusal :=
  .next (ofbEncryptWith Config.hw k iv a n s)

/-- `ofbDecrypt key=K, iv=IV, data=A, length=N` (R138). -/
def execOfbDecrypt (k : Key) (iv : Block) (a n : Word) (s : State) :
    Host.Outcome State Fault Refusal :=
  .next (ofbDecryptWith Config.hw k iv a n s)

end Sys2Proof.Machine
end

