-- ==== Sys2Proof/Machine/Mac.lean ====
section
/-! DEFINITION. The MAC Engine: `macInit` (R153), `macUpdate` (R155), `macFinish` (R157), `macGet` (R158),
`macCmp` (R159), `macCompute` (R161), `macVerify` (R162). -/

namespace Sys2Proof.Machine

/-- `MAC_IV`: 8 bytes of 0x00 (R9, R153). -/
def macIv : Block := zeroBlock

/-- `MacInitBody(K)` (R153). The MAC path schedules the authentication sub-key DKM with MACROUNDS (R107). -/
def macInitBody (c : Config) (k : Key) (s : State) : State :=
  let s := s.setDerived (c.derive k)
  (((s.setKs (c.initSchedule s.dkm s.macRounds)).setR macIv).setPos 0).setMacst .ready

/-- `MacUpdateBody(A, N)`: the CFB path, output discarded (R155). -/
def macUpdateBody (c : Config) (a n : Word) (s : State) : State :=
  (feedbackRun c .cfb .enc a n true s).setMacst .accumulating

/-- `MacFinishBody()`: `FINAL: R <- permute(KS, forward, R)`, `POS <- 0`, `MACST <- Finished` (R157). -/
def macFinishBody (c : Config) (s : State) : State :=
  ((s.setR (c.permute s.ks .forward s.r)).setPos 0).setMacst .finished

/-- `MacInitBody(K); MacUpdateBody(A, N); MacFinishBody()` (R161, R162). -/
def macWholeBody (c : Config) (k : Key) (a n : Word) (s : State) : State :=
  macFinishBody c (macUpdateBody c a n (macInitBody c k s))

/-- `respond(OK, 0, R)` (R158, R161). -/
def respondTag (s : State) : State := respondOk false s.r s

/-- `respond(OK, eq ? 1 : 0, zeros(8))` with `eq` the comparison of `T` with R (R159, R162). -/
def respondComparison (t : Block) (s : State) : State := respondOk (tagsEqual t s.r) zeroBlock s

/-- `macInit` over a configuration (R153). -/
def macInitWith (c : Config) (k : Key) (s : State) : State :=
  command c (.macInit k) (fun s => respondOk false zeroBlock (macInitBody c k s)) s

/-- `macUpdate` over a configuration (R155). -/
def macUpdateWith (c : Config) (a n : Word) (s : State) : State :=
  command c (.macUpdate a n) (fun s => respondOk false zeroBlock (macUpdateBody c a n s)) s

/-- `macFinish` over a configuration (R157). -/
def macFinishWith (c : Config) (s : State) : State :=
  command c .macFinish (fun s => respondOk false zeroBlock (macFinishBody c s)) s

/-- `macGet` over a configuration (R158). -/
def macGetWith (c : Config) (s : State) : State := command c .macGet respondTag s

/-- `macCmp` over a configuration (R159). -/
def macCmpWith (c : Config) (t : Block) (s : State) : State :=
  command c (.macCmp t) (respondComparison t) s

/-- `macCompute` over a configuration (R161). -/
def macComputeWith (c : Config) (k : Key) (a n : Word) (s : State) : State :=
  command c (.macCompute k a n) (fun s => respondTag (macWholeBody c k a n s)) s

/-- `macVerify` over a configuration (R162). -/
def macVerifyWith (c : Config) (k : Key) (t : Block) (a n : Word) (s : State) : State :=
  command c (.macVerify k t a n) (fun s => respondComparison t (macWholeBody c k a n s)) s

/-- `macInit key=K` (R153). -/
def execMacInit (k : Key) (s : State) : Host.Outcome State Fault Refusal :=
  .next (macInitWith Config.hw k s)

/-- `macUpdate data=A, length=N` (R155). -/
def execMacUpdate (a n : Word) (s : State) : Host.Outcome State Fault Refusal :=
  .next (macUpdateWith Config.hw a n s)

/-- `macFinish` (R157). -/
def execMacFinish (s : State) : Host.Outcome State Fault Refusal := .next (macFinishWith Config.hw s)

/-- `macGet` (R158). -/
def execMacGet (s : State) : Host.Outcome State Fault Refusal := .next (macGetWith Config.hw s)

/-- `macCmp tag=T` (R159). -/
def execMacCmp (t : Block) (s : State) : Host.Outcome State Fault Refusal :=
  .next (macCmpWith Config.hw t s)

/-- `macCompute key=K, data=A, length=N` (R161). -/
def execMacCompute (k : Key) (a n : Word) (s : State) : Host.Outcome State Fault Refusal :=
  .next (macComputeWith Config.hw k a n s)

/-- `macVerify key=K, tag=T, data=A, length=N` (R162). -/
def execMacVerify (k : Key) (t : Block) (a n : Word) (s : State) :
    Host.Outcome State Fault Refusal :=
  .next (macVerifyWith Config.hw k t a n s)

end Sys2Proof.Machine
end

