-- ==== Sys2Proof/Machine/Dispatch.lean ====
section
/-! DEFINITION. One arm per command: the meaning it runs. -/

namespace Sys2Proof.Machine

def exec (i : Instr) (s : State) : Host.Outcome State Fault Refusal :=
  match i with
  | .configure r m => Sys2Proof.Machine.execConfigure r m s
  | .ecbEncrypt k a n => Sys2Proof.Machine.execEcbEncrypt k a n s
  | .ecbDecrypt k a n => Sys2Proof.Machine.execEcbDecrypt k a n s
  | .cfbEncrypt k v a n => Sys2Proof.Machine.execCfbEncrypt k v a n s
  | .cfbDecrypt k v a n => Sys2Proof.Machine.execCfbDecrypt k v a n s
  | .ofbEncrypt k v a n => Sys2Proof.Machine.execOfbEncrypt k v a n s
  | .ofbDecrypt k v a n => Sys2Proof.Machine.execOfbDecrypt k v a n s
  | .macInit k => Sys2Proof.Machine.execMacInit k s
  | .macUpdate a n => Sys2Proof.Machine.execMacUpdate a n s
  | .macFinish => Sys2Proof.Machine.execMacFinish s
  | .macGet => Sys2Proof.Machine.execMacGet s
  | .macCmp t => Sys2Proof.Machine.execMacCmp t s
  | .macCompute k a n => Sys2Proof.Machine.execMacCompute k a n s
  | .macVerify k t a n => Sys2Proof.Machine.execMacVerify k t a n s

end Sys2Proof.Machine
end

