-- ==== Sys2Proof/WellFormed.lean ====
section
/-! DEFINITION. When the fields of a packet are legal, written from rule R77's four clauses and rule R74's table.

The decoder (`Sys2Proof/Decode.lean`) does not call these checks: it follows rule R76's procedure over the
opcode table, and that the two agree is a statement of the package. -/

namespace Sys2Proof

/-- The fourteen assigned opcodes (R75). -/
def assignedOpcodes : List Byte :=
  [0x01, 0x10, 0x11, 0x20, 0x21, 0x30, 0x31, 0x40, 0x41, 0x42, 0x43, 0x44, 0x48, 0x49]

/-- The opcodes whose format uses ADDR and LEN: F-KAL, F-KIAL, F-AL, F-KTAL (R74). -/
def bufferOpcodes : List Byte := [0x10, 0x11, 0x20, 0x21, 0x30, 0x31, 0x41, 0x48, 0x49]

/-- The opcodes whose format uses KEY: F-KAL, F-KIAL, F-K, F-KTAL (R74). -/
def keyOpcodes : List Byte := [0x10, 0x11, 0x20, 0x21, 0x30, 0x31, 0x40, 0x48, 0x49]

/-- The opcodes whose format uses AUX, as IV or as tag: F-KIAL, F-T, F-KTAL (R74). -/
def auxOpcodes : List Byte := [0x20, 0x21, 0x30, 0x31, 0x44, 0x49]

/-- Not R77(a): OP is one of the fourteen values. -/
def Fields.opcodeAssigned (f : Fields) : Bool := assignedOpcodes.contains f.op

/-- Not R77(b): RSV is 0. -/
def Fields.reservedZero (f : Fields) : Bool := f.rsv == 0

/-- Not R77(c): RND and MRND are 0 in a command other than `configure`. -/
def Fields.roundsUnused (f : Fields) : Bool := f.op == 0x01 || (f.rnd == 0 && f.mrnd == 0)

/-- Not R77(d): every field the command's format does not use is all zero. -/
def Fields.unusedZero (f : Fields) : Bool :=
  (bufferOpcodes.contains f.op || (f.addr == 0 && f.len == 0)) &&
  (keyOpcodes.contains f.op || f.key == zeroKey) &&
  (auxOpcodes.contains f.op || f.aux == zeroBlock)

/-- The packet's fields are legal: none of R77(a) to (d) holds. -/
def Fields.wellFormed (f : Fields) : Bool :=
  f.opcodeAssigned && f.reservedZero && f.roundsUnused && f.unusedZero

end Sys2Proof
end

