-- ==== Sys2Proof/Decode.lean ====
section
/-! DEFINITION. The decoder of command packets and, after it, the encoder (R71 to R78). -/

namespace Sys2Proof

/-! ### Byte order of the packet's integers -/

/-- The little-endian 32-bit integer of four bytes, `b0 + 2^8 b1 + 2^16 b2 + 2^24 b3` (R55, R71). -/
def le32 (b0 b1 b2 b3 : Byte) : Word := b3 ++ b2 ++ b1 ++ b0

/-- Byte `k` of a little-endian 32-bit integer (R55, R71). -/
def leByte (w : Word) (k : Nat) : Byte := w.extractLsb' (8 * k) 8

/-! ### Fields of a packet -/

/-- R76 step (1): assemble H, ADDR, LEN, KEY, AUX by the layout of R71. -/
def assemble (p : Packet) : Fields where
  op := p[0]
  rnd := p[1]
  mrnd := p[2]
  rsv := p[3]
  addr := le32 p[4] p[5] p[6] p[7]
  len := le32 p[8] p[9] p[10] p[11]
  key := Vector.ofFn fun i : Fin 16 => p[12 + i.val]
  aux := Vector.ofFn fun i : Fin 8 => p[28 + i.val]

/-- The header word H (R71). -/
def Fields.header (f : Fields) : Word := le32 f.op f.rnd f.mrnd f.rsv

/-! ### Formats and the opcode table -/

/-- The format uses ADDR and LEN (R74). -/
def Format.usesBuffer : Format → Bool
  | .cfg => false
  | .kal => true
  | .kial => true
  | .k => false
  | .al => true
  | .zero => false
  | .t => false
  | .ktal => true

/-- The format uses KEY (R74). -/
def Format.usesKey : Format → Bool
  | .cfg => false
  | .kal => true
  | .kial => true
  | .k => true
  | .al => false
  | .zero => false
  | .t => false
  | .ktal => true

/-- The format uses AUX, as IV or as tag (R74). -/
def Format.usesAux : Format → Bool
  | .cfg => false
  | .kal => false
  | .kial => true
  | .k => false
  | .al => false
  | .zero => false
  | .t => true
  | .ktal => true

/-- R76 step (3): every field outside the header word that the format does not use is all zero. -/
def Format.unusedZero (fm : Format) (f : Fields) : Bool :=
  (fm.usesBuffer || (f.addr == 0 && f.len == 0)) &&
  (fm.usesKey || f.key == zeroKey) &&
  (fm.usesAux || f.aux == zeroBlock)

/-- A row of the opcode map (R75): the opcode, the format, `match` and `mask` over the header word, and
the command the row's fields stand for (R72). -/
structure Row where
  op : Byte
  format : Format
  matchWord : Word
  mask : Word
  build : Fields → Instr

/-- A packet selects the row iff `(H AND mask) == match` (R75). -/
def Row.selects (r : Row) (h : Word) : Bool := (h &&& r.mask) == r.matchWord

/-- The opcode map: `configure` and the cipher commands (R75). -/
def cipherRows : List Row :=
  [ ⟨0x01, .cfg, 0x00000001, 0xFF0000FF, fun f => .configure f.rnd f.mrnd⟩,
    ⟨0x10, .kal, 0x00000010, 0xFFFFFFFF, fun f => .ecbEncrypt f.key f.addr f.len⟩,
    ⟨0x11, .kal, 0x00000011, 0xFFFFFFFF, fun f => .ecbDecrypt f.key f.addr f.len⟩,
    ⟨0x20, .kial, 0x00000020, 0xFFFFFFFF, fun f => .cfbEncrypt f.key f.aux f.addr f.len⟩,
    ⟨0x21, .kial, 0x00000021, 0xFFFFFFFF, fun f => .cfbDecrypt f.key f.aux f.addr f.len⟩,
    ⟨0x30, .kial, 0x00000030, 0xFFFFFFFF, fun f => .ofbEncrypt f.key f.aux f.addr f.len⟩,
    ⟨0x31, .kial, 0x00000031, 0xFFFFFFFF, fun f => .ofbDecrypt f.key f.aux f.addr f.len⟩ ]

/-- The opcode map: the MAC commands (R75). -/
def macRows : List Row :=
  [ ⟨0x40, .k, 0x00000040, 0xFFFFFFFF, fun f => .macInit f.key⟩,
    ⟨0x41, .al, 0x00000041, 0xFFFFFFFF, fun f => .macUpdate f.addr f.len⟩,
    ⟨0x42, .zero, 0x00000042, 0xFFFFFFFF, fun _ => .macFinish⟩,
    ⟨0x43, .zero, 0x00000043, 0xFFFFFFFF, fun _ => .macGet⟩,
    ⟨0x44, .t, 0x00000044, 0xFFFFFFFF, fun f => .macCmp f.aux⟩,
    ⟨0x48, .kal, 0x00000048, 0xFFFFFFFF, fun f => .macCompute f.key f.addr f.len⟩,
    ⟨0x49, .ktal, 0x00000049, 0xFFFFFFFF, fun f => .macVerify f.key f.aux f.addr f.len⟩ ]

/-- The opcode map, fourteen rows (R75). -/
def opcodeRows : List Row := cipherRows ++ macRows

/-! ### Decoding -/

/-- Why bytes are not a legal packet. The host sees one status for all of them, IllegalCommand (R77, R202). -/
inductive DecodeRefusal where
  /-- Not exactly 36 bytes: no packet at all (R70). -/
  | notAPacket
  /-- R77(a). -/
  | unknownOpcode
  /-- R77(b). -/
  | reservedNotZero
  /-- R77(c). -/
  | roundsNotZero
  /-- R77(d). -/
  | unusedFieldNotZero
  deriving DecidableEq, Repr

/-- The reason when no row of the table selects the header word. -/
def headerRefusal (f : Fields) : DecodeRefusal :=
  if opcodeRows.all (fun r => r.op != f.op) then .unknownOpcode
  else if f.rsv != 0 then .reservedNotZero
  else .roundsNotZero

/-- R76 steps (2) to (4) on assembled fields. -/
def decodeFields (f : Fields) : Except DecodeRefusal Instr :=
  match opcodeRows.find? (fun r => r.selects f.header) with
  | none => .error (headerRefusal f)
  | some r => if r.format.unusedZero f then .ok (r.build f) else .error .unusedFieldNotZero

/-- The decoding procedure of R76, total on packets. -/
def decodePacket (p : Packet) : Except DecodeRefusal Instr := decodeFields (assemble p)

/-- Decoding of any bytes: a command exists only once exactly 36 bytes are present (R70). -/
def decode (bytes : List Byte) : Except DecodeRefusal Instr :=
  if h : bytes.length = 36 then decodePacket ⟨bytes.toArray, by simpa using h⟩ else .error .notAPacket

/-! ### Encoding -/

/-- The fields with everything zero but the opcode (R74: unused fields are all zero). -/
def Fields.ofOpcode (op : Byte) : Fields := ⟨op, 0, 0, 0, 0, 0, zeroKey, zeroBlock⟩

/-- The fields of a command: its opcode, its operands, every unused field zero (R72, R74 to R76). -/
def Instr.fields : Instr → Fields
  | .configure r m => { Fields.ofOpcode 0x01 with rnd := r, mrnd := m }
  | .ecbEncrypt k a n => { Fields.ofOpcode 0x10 with key := k, addr := a, len := n }
  | .ecbDecrypt k a n => { Fields.ofOpcode 0x11 with key := k, addr := a, len := n }
  | .cfbEncrypt k v a n => { Fields.ofOpcode 0x20 with key := k, aux := v, addr := a, len := n }
  | .cfbDecrypt k v a n => { Fields.ofOpcode 0x21 with key := k, aux := v, addr := a, len := n }
  | .ofbEncrypt k v a n => { Fields.ofOpcode 0x30 with key := k, aux := v, addr := a, len := n }
  | .ofbDecrypt k v a n => { Fields.ofOpcode 0x31 with key := k, aux := v, addr := a, len := n }
  | .macInit k => { Fields.ofOpcode 0x40 with key := k }
  | .macUpdate a n => { Fields.ofOpcode 0x41 with addr := a, len := n }
  | .macFinish => Fields.ofOpcode 0x42
  | .macGet => Fields.ofOpcode 0x43
  | .macCmp t => { Fields.ofOpcode 0x44 with aux := t }
  | .macCompute k a n => { Fields.ofOpcode 0x48 with key := k, addr := a, len := n }
  | .macVerify k t a n => { Fields.ofOpcode 0x49 with key := k, aux := t, addr := a, len := n }

/-- An instruction is well formed when its fields are legal by R77; its typed operands leave no other case. -/
def Instr.wellFormed (i : Instr) : Bool := i.fields.wellFormed

/-- Byte `i` of the packet that holds the fields (R71). -/
def Fields.byteAt (f : Fields) (i : Nat) : Byte :=
  if i = 0 then f.op
  else if i = 1 then f.rnd
  else if i = 2 then f.mrnd
  else if i = 3 then f.rsv
  else if i < 8 then leByte f.addr (i - 4)
  else if i < 12 then leByte f.len (i - 8)
  else if h : i < 28 then f.key[i - 12]'(by omega)
  else if h : i < 36 then f.aux[i - 28]'(by omega)
  else 0

/-- The packet that holds the fields (R71). -/
def Fields.packet (f : Fields) : Packet := Vector.ofFn fun i : Fin 36 => f.byteAt i.val

/-- The one packet a command encodes to (R76). -/
def encode (i : Instr) : Packet := i.fields.packet

/-! ### The opcode table's own words -/

/-- The packet whose first `nbits` bits are the low `nbits` bits of `w`, bit 0 being bit 0 of `P[0]`, and
whose other bits are 0: the header word is little-endian, so byte `k` is bits `8k+7 .. 8k` (R71). -/
def tableWordPacket (nbits w : Nat) : Packet :=
  Vector.ofFn fun i : Fin 36 => BitVec.ofNat 8 ((w % 2 ^ nbits) >>> (8 * i.val))

/-- The instruction the decoder reads from an opcode-table word. -/
def decodeTableWord (nbits w : Nat) : Option Instr :=
  match decode (tableWordPacket nbits w).toList with
  | .ok i => some i
  | .error _ => none

end Sys2Proof
end

