-- ==== Sys2Proof/Machine/Semantics.lean ====
section
/-! DEFINITION. The commands over any configuration, in one function: `exec` is this function at `Config.hw`,
so that a claim can quantify over PRIM, DERIVE and DMEM_SIZE (R9, R14), as the rules of the spec do. -/

namespace Sys2Proof.Machine

/-- The state after a command, over a configuration (R5): every command answers and none stops the core. -/
def runWith (c : Config) (i : Instr) (s : State) : State :=
  match i with
  | .configure r m => configureWith c r m s
  | .ecbEncrypt k a n => ecbEncryptWith c k a n s
  | .ecbDecrypt k a n => ecbDecryptWith c k a n s
  | .cfbEncrypt k v a n => cfbEncryptWith c k v a n s
  | .cfbDecrypt k v a n => cfbDecryptWith c k v a n s
  | .ofbEncrypt k v a n => ofbEncryptWith c k v a n s
  | .ofbDecrypt k v a n => ofbDecryptWith c k v a n s
  | .macInit k => macInitWith c k s
  | .macUpdate a n => macUpdateWith c a n s
  | .macFinish => macFinishWith c s
  | .macGet => macGetWith c s
  | .macCmp t => macCmpWith c t s
  | .macCompute k a n => macComputeWith c k a n s
  | .macVerify k t a n => macVerifyWith c k t a n s

/-- The body of each command without its prologue (R110, R122, R123, R134, R153 to R162). -/
def bodyOf (c : Config) (i : Instr) (s : State) : State :=
  match i with
  | .configure r m => configureBody r m s
  | .ecbEncrypt k a n => ecbBody c .forward k a n s
  | .ecbDecrypt k a n => ecbBody c .inverse k a n s
  | .cfbEncrypt k v a n => feedbackBody c .cfb .enc k v a n s
  | .cfbDecrypt k v a n => feedbackBody c .cfb .dec k v a n s
  | .ofbEncrypt k v a n => feedbackBody c .ofb .enc k v a n s
  | .ofbDecrypt k v a n => feedbackBody c .ofb .dec k v a n s
  | .macInit k => respondOk false zeroBlock (macInitBody c k s)
  | .macUpdate a n => respondOk false zeroBlock (macUpdateBody c a n s)
  | .macFinish => respondOk false zeroBlock (macFinishBody c s)
  | .macGet => respondTag s
  | .macCmp t => respondComparison t s
  | .macCompute k a n => respondTag (macWholeBody c k a n s)
  | .macVerify k t a n => respondComparison t (macWholeBody c k a n s)

/-- Commands one after another, in the host's order (R62). -/
def runAll (c : Config) : List Instr → State → State
  | [], s => s
  | i :: is, s => runAll c is (runWith c i s)

/-- How often a command runs its loop and calls the external functions (R245). -/
structure Calls where
  iterations    : Nat
  initSchedules : Nat
  permutes      : Nat
  derives       : Nat
  deriving DecidableEq, Repr

/-- The calls of an ECB command: its loop's, counted by its engine, and the `initSchedule` of its body
(R245). -/
def ecbCalls (c : Config) (dir : Direction) (k : Key) (a n : Word) (s : State) : Calls :=
  let e := ecbEngine c (c.initSchedule k s.rounds) dir (n.toNat / 8) a.toNat s.dmem
  ⟨e.iterations, 1, e.permutes, 0⟩

/-- The calls of a feedback cipher command, counted by its engine (R245). -/
def feedbackCalls (c : Config) (mode : Mode) (dir : CipherDir) (k : Key) (iv : Block) (a n : Word)
    (s : State) : Calls :=
  let e := feedbackEngine c mode dir a n false (feedbackSeed c k iv s)
  ⟨e.iterations, 1, e.permutes, 0⟩

/-- The calls of `macCompute` and `macVerify`: the engine's, one more `permute` for FINAL, one
`initSchedule`, one `DERIVE` (R245). -/
def macWholeCalls (c : Config) (k : Key) (a n : Word) (s : State) : Calls :=
  let e := feedbackEngine c .cfb .enc a n true (macInitBody c k s)
  ⟨e.iterations, 1, e.permutes + 1, 1⟩

/-- The calls a command makes in a state: none when it raises an error, else those of its body (R245). Loop
iterations, and the `permute` calls of a loop, are counted by the engines as they run; a call outside a loop
(`initSchedule`, `DERIVE`, the `permute` of FINAL) is entered here once for each time the body names it. -/
def callsOf (c : Config) (i : Instr) (s : State) : Calls :=
  match prologue c i s, i with
  | some _, _ => ⟨0, 0, 0, 0⟩
  | none, .configure _ _ => ⟨0, 0, 0, 0⟩
  | none, .ecbEncrypt k a n => ecbCalls c .forward k a n s
  | none, .ecbDecrypt k a n => ecbCalls c .inverse k a n s
  | none, .cfbEncrypt k v a n => feedbackCalls c .cfb .enc k v a n s
  | none, .cfbDecrypt k v a n => feedbackCalls c .cfb .dec k v a n s
  | none, .ofbEncrypt k v a n => feedbackCalls c .ofb .enc k v a n s
  | none, .ofbDecrypt k v a n => feedbackCalls c .ofb .dec k v a n s
  | none, .macInit _ => ⟨0, 1, 0, 1⟩
  | none, .macUpdate a n =>
    let e := feedbackEngine c .cfb .enc a n true s
    ⟨e.iterations, 0, e.permutes, 0⟩
  | none, .macFinish => ⟨0, 0, 1, 0⟩
  | none, .macGet => ⟨0, 0, 0, 0⟩
  | none, .macCmp _ => ⟨0, 0, 0, 0⟩
  | none, .macCompute k a n => macWholeCalls c k a n s
  | none, .macVerify k _ a n => macWholeCalls c k a n s

end Sys2Proof.Machine
end

