-- ==== Sys2Proof/Machine/Platform.lean ====
section
/-! DEFINITION. What the outside does to the core between and during commands: fetching a command from the
port (R70), the host's writes to DMEM (R5), and reset (R230, R231). -/

namespace Sys2Proof.Machine

/-- The command a packet on the port stands for; none when it is illegal (R76, R77). -/
def fetchCommand (p : Packet) : Option Instr :=
  match decode p.toList with
  | .ok i => some i
  | .error _ => none

/-- The host writes bytes to DMEM between commands (R5): no register changes. An address at or above
DMEM_SIZE does not exist (R61), so a write that reaches one is a fault. -/
def hostWriteEvent (c : Config) (a : Nat) (bytes : List Byte) (s : State) :
    Host.Outcome State Fault Refusal :=
  if bytes = [] ∨ a + bytes.length ≤ c.dmemSize then
    .next (s.setDmem (Memory.writeBytes c s.dmem a bytes))
  else .fault .hostWriteOutsideDmem

/-- Reset of the idle core (R230): CFGV, POS, REM and MACST get their reset values (R38, R39), the registers
of R40 get fresh free draws, "and two resets need not give the same one"; DMEM is unchanged (R42). -/
def resetEvent (c : Config) (s : State) : State :=
  { s with
    rounds := c.resetRounds (s.resets + 1)
    macRounds := c.resetMacRounds (s.resets + 1)
    cfgv := false
    ks := c.resetKs (s.resets + 1)
    dke := c.resetDke (s.resets + 1)
    dkm := c.resetDkm (s.resets + 1)
    r := c.resetR (s.resets + 1)
    pos := 0
    rem := 0
    macst := .uninitialized
    response := none
    resets := s.resets + 1 }

/-- "An unspecified mixture of old and new bytes" in the `k` bytes from address `a`: for each address a free
draw says whether the new byte was already there (R231). -/
def tornBuffer (c : Config) (n : Nat) (new : Memory) : Nat → Nat → Memory → Memory
  | 0, _, m => m
  | k + 1, a, m =>
    tornBuffer c n new k (a + 1) (if c.torn n a then Memory.write c m a (Memory.read c new a) else m)

/-- DMEM when reset number `n` abandons the command in a packet: its buffer is torn; a refused command or an
illegal packet has changed nothing (R201, R231). -/
def abandonedDmem (c : Config) (n : Nat) (p : Packet) (s : State) : Memory :=
  match fetchCommand p with
  | none => s.dmem
  | some i =>
    match prologue c i s, bufferOf i with
    | none, some (a, len) => tornBuffer c n (runWith c i s).dmem len.toNat a.toNat s.dmem
    | _, _ => s.dmem

/-- Reset while the core executes the command in a packet: the command is abandoned "with no response", its
buffer holds a mixture of old and new bytes, every other DMEM byte is unchanged, and the registers are
those after reset (R230, R231). -/
def abandonEvent (c : Config) (p : Packet) (s : State) : State :=
  resetEvent c (s.setDmem (abandonedDmem c (s.resets + 1) p s))

end Sys2Proof.Machine
end

