-- ==== Sys2Proof/Machine/Step.lean ====
section
/-! DEFINITION. The step: one event of the outside and the core's whole answer to it (R5, R209).

Without a coming event the core is idle and holds its state (R218). An accepted command is one atomic
transition (R60). -/

namespace Sys2Proof.Machine

/-- One step of the machine: the next event of the outside, taken off the list and answered. -/
def step (s : State) : Host.Outcome State Fault Refusal :=
  match s.events with
  | [] => .next s
  | .command p :: rest =>
    match fetchCommand p with
    | some i => exec i (s.setEvents rest)
    | none => .next (raise .illegalCommand (s.setEvents rest))
  | .hostWrite a bytes :: rest => hostWriteEvent Config.hw a bytes (s.setEvents rest)
  | .reset :: rest => .next (resetEvent Config.hw (s.setEvents rest))
  | .resetDuring p :: rest => .next (abandonEvent Config.hw p (s.setEvents rest))

/-- The state in which the next packet on the command port is the one an opcode-table word stands for. The
core fetches nothing from memory (R22, R64): its next command is the host's next move (log 7). -/
def State.withFetchWord (s : State) (nbits w : Nat) : State :=
  s.setEvents (.command (tableWordPacket nbits w) :: s.events)

end Sys2Proof.Machine
end

