-- ==== Sys2Proof/Safety.lean ====
section
/-! DEFINITION. The terms claims about the core are stated in: the phases a host works in, the spec's own tables and
closed forms written apart from the meanings, the invariant every step keeps, and the states no host can
tell apart. No meaning calls anything in this file. -/

namespace Sys2Proof.Machine

/-! ### Phases and buffers -/

/-- A "ready state": CFGV = 1 and MACST in {Uninitialized, Finished} (44_properties.md, conventions). -/
def Ready (s : State) : Prop :=
  s.cfgv = true ∧ (s.macst = .uninitialized ∨ s.macst = .finished)

/-- A MAC session is open (R151), in a configured core. -/
def SessionOpen (s : State) : Prop :=
  s.cfgv = true ∧ (s.macst = .ready ∨ s.macst = .accumulating)

/-- The tag is in R (R32), in a configured core. -/
def TagReady (s : State) : Prop := s.cfgv = true ∧ s.macst = .finished

/-- The buffer is empty or inside DMEM (R206). -/
def BufferIn (c : Config) (a n : Word) : Prop := n = 0 ∨ a.toNat + n.toNat ≤ c.dmemSize

/-- `buf(mem, A, N)` (44_properties.md, conventions). -/
def buf (c : Config) (m : Memory) (a n : Word) : List Byte := Memory.readBytes c m a.toNat n.toNat

/-- The table of R150: the phase after a successful command, none for the cells `IS`. -/
def phaseTable : Instr → MacPhase → Option MacPhase
  | .configure _ _, p => some p
  | .ecbEncrypt _ _ _, .uninitialized => some .uninitialized
  | .ecbEncrypt _ _ _, .finished => some .finished
  | .ecbEncrypt _ _ _, _ => none
  | .ecbDecrypt _ _ _, .uninitialized => some .uninitialized
  | .ecbDecrypt _ _ _, .finished => some .finished
  | .ecbDecrypt _ _ _, _ => none
  | .cfbEncrypt _ _ _ _, .uninitialized => some .uninitialized
  | .cfbEncrypt _ _ _ _, .finished => some .uninitialized
  | .cfbEncrypt _ _ _ _, _ => none
  | .cfbDecrypt _ _ _ _, .uninitialized => some .uninitialized
  | .cfbDecrypt _ _ _ _, .finished => some .uninitialized
  | .cfbDecrypt _ _ _ _, _ => none
  | .ofbEncrypt _ _ _ _, .uninitialized => some .uninitialized
  | .ofbEncrypt _ _ _ _, .finished => some .uninitialized
  | .ofbEncrypt _ _ _ _, _ => none
  | .ofbDecrypt _ _ _ _, .uninitialized => some .uninitialized
  | .ofbDecrypt _ _ _ _, .finished => some .uninitialized
  | .ofbDecrypt _ _ _ _, _ => none
  | .macInit _, .uninitialized => some .ready
  | .macInit _, .finished => some .ready
  | .macInit _, _ => none
  | .macUpdate _ _, .ready => some .accumulating
  | .macUpdate _ _, .accumulating => some .accumulating
  | .macUpdate _ _, _ => none
  | .macFinish, .ready => some .finished
  | .macFinish, .accumulating => some .finished
  | .macFinish, _ => none
  | .macGet, .finished => some .finished
  | .macGet, _ => none
  | .macCmp _, .finished => some .finished
  | .macCmp _, _ => none
  | .macCompute _ _ _, .uninitialized => some .finished
  | .macCompute _ _ _, .finished => some .finished
  | .macCompute _ _ _, _ => none
  | .macVerify _ _ _ _, .uninitialized => some .finished
  | .macVerify _ _ _ _, .finished => some .finished
  | .macVerify _ _ _ _, _ => none

/-- The two ECB commands. -/
def IsEcb : Instr → Prop
  | .ecbEncrypt _ _ _ => True
  | .ecbDecrypt _ _ _ => True
  | _ => False

/-- The length of an ECB command's buffer. -/
def ecbLength : Instr → Option Nat
  | .ecbEncrypt _ _ n => some n.toNat
  | .ecbDecrypt _ _ n => some n.toNat
  | _ => none

/-- The six cipher commands (R23). -/
def isCipher : Instr → Bool
  | .ecbEncrypt _ _ _ => true
  | .ecbDecrypt _ _ _ => true
  | .cfbEncrypt _ _ _ _ => true
  | .cfbDecrypt _ _ _ _ => true
  | .ofbEncrypt _ _ _ _ => true
  | .ofbDecrypt _ _ _ _ => true
  | _ => false

/-- The same command on a buffer at another address (R191). -/
def relocate (b : Word) : Instr → Instr
  | .ecbEncrypt k _ n => .ecbEncrypt k b n
  | .ecbDecrypt k _ n => .ecbDecrypt k b n
  | .cfbEncrypt k v _ n => .cfbEncrypt k v b n
  | .cfbDecrypt k v _ n => .cfbDecrypt k v b n
  | .ofbEncrypt k v _ n => .ofbEncrypt k v b n
  | .ofbDecrypt k v _ n => .ofbDecrypt k v b n
  | .macUpdate _ n => .macUpdate b n
  | .macCompute k _ n => .macCompute k b n
  | .macVerify k t _ n => .macVerify k t b n
  | i => i

/-- The last response has STATUS 0. -/
def AnsweredOk (s : State) : Prop := ∃ q, s.response = some q ∧ q.status = .ok

/-- Every command of the sequence answers OK (R163, R188). -/
def AllAnswerOk (c : Config) : List Instr → State → Prop
  | [], _ => True
  | i :: is, s => AnsweredOk (runWith c i s) ∧ AllAnswerOk c is (runWith c i s)

/-! ### The stream modes and the MAC, byte by byte and block by block -/

/-- The block that feeds stream block `q` of a CFB run: the IV, or ciphertext block `q - 1`, read from the
memory that holds the ciphertext (`C_q` of R132). -/
def cfbChain (c : Config) (cipher : Memory) (iv : Block) (a q : Nat) : Block :=
  if q = 0 then iv else Memory.readBlock c cipher (a + 8 * (q - 1))

/-- `S_q` of R132: `permute(ks, forward, ·)` applied `q` times to the IV. -/
def ofbBlock (c : Config) (ks : Sched) (iv : Block) : Nat → Block
  | 0 => iv
  | q + 1 => c.permute ks .forward (ofbBlock c ks iv q)

/-- One byte of the loop of R143 at address `p`. -/
def byteStep (c : Config) (mode : Mode) (dir : CipherDir) (discard : Bool) (p : Nat) (s : State) : State :=
  let r := if s.pos = 0 then c.permute s.ks .forward s.r else s.r
  let x := Memory.read c s.dmem p
  let y := x ^^^ r[s.pos]
  { s with
    r := match mode, dir with
      | .ofb, _ => r
      | .cfb, .enc => r.set s.pos y
      | .cfb, .dec => r.set s.pos x
    pos := s.pos + 1
    dmem := if discard then s.dmem else Memory.write c s.dmem p y }

/-- The loop of R143 over `n` bytes from address `p`. -/
def byteRun (c : Config) (mode : Mode) (dir : CipherDir) (discard : Bool) : Nat → Nat → State → State
  | 0, _, s => s
  | n + 1, p, s => byteRun c mode dir discard n (p + 1) (byteStep c mode dir discard p s)

/-- One message byte absorbed into the accumulator (R, POS) (R143 for `macUpdate`). -/
def absorbByte (c : Config) (ks : Sched) (acc : Block × Fin 8) (x : Byte) : Block × Fin 8 :=
  let r := if acc.2 = 0 then c.permute ks .forward acc.1 else acc.1
  (r.set acc.2 (x ^^^ r[acc.2]), acc.2 + 1)

/-- The accumulator after message bytes (R155). -/
def absorb (c : Config) (ks : Sched) (acc : Block × Fin 8) (msg : List Byte) : Block × Fin 8 :=
  msg.foldl (absorbByte c ks) acc

/-- `C_j` of R164: `C_0 = zeros(8)`, `C_j = M_j XOR E(C_{j-1})`. -/
def macChain (c : Config) (ks : Sched) (msg : List Byte) : Nat → Block
  | 0 => zeroBlock
  | j + 1 => Vector.ofFn fun i : Fin 8 =>
      msg.getD (8 * j + i.val) 0 ^^^ (c.permute ks .forward (macChain c ks msg j))[i.val]

/-- `W` of R164. -/
def macLast (c : Config) (ks : Sched) (msg : List Byte) : Block :=
  let q := msg.length / 8
  let m := msg.length % 8
  if m = 0 then macChain c ks msg q
  else Vector.ofFn fun i : Fin 8 =>
    let k' := c.permute ks .forward (macChain c ks msg q)
    if i.val < m then msg.getD (8 * q + i.val) 0 ^^^ k'[i.val] else k'[i.val]

/-- The MAC schedule of a key: `initSchedule(DKM, MACROUNDS)` (R153). -/
def macSched (c : Config) (k : Key) (macRounds : Byte) : Sched :=
  c.initSchedule (c.derive k).2 macRounds

/-- The tag of a message, R164's closed form: `tag = E(W)`. -/
def macTag (c : Config) (k : Key) (macRounds : Byte) (msg : List Byte) : Block :=
  c.permute (macSched c k macRounds) .forward (macLast c (macSched c k macRounds) msg)

/-- Loop iterations and `permute` calls of a feedback run over `n` bytes entered at stream position `pos`
modulo 8 (R245). -/
def chunkCount (pos n : Nat) : Nat :=
  if pos = 0 ∨ n = 0 then (n + 7) / 8 else 1 + (n - (8 - pos) + 7) / 8

/-- See `chunkCount`. -/
def permuteCount (pos n : Nat) : Nat :=
  if pos = 0 then (n + 7) / 8 else (n - (8 - pos) + 7) / 8

/-! ### The invariant -/

/-- What every step keeps: DMEM is in canonical form; REM is 0 between commands (R31); a MAC phase other than
Uninitialized is reached only in a configured core (R25, R150); in Ready and in Finished POS is 0, in Ready
R is MAC_IV (R153, R157); while a session is open KS is a schedule of DKM (R153, R155); the last response
is one the core can give: an error has BOOL = 0 and TAG = zeros, and no response has both BOOL = 1 and a
TAG (R80, R81). -/
structure Inv (c : Config) (s : State) : Prop where
  dmem_wf : Memory.wf c s.dmem
  rem_zero : s.rem = 0
  configured : s.macst ≠ .uninitialized → s.cfgv = true
  ready_start : s.macst = .ready → s.pos = 0 ∧ s.r = zeroBlock
  finished_pos : s.macst = .finished → s.pos = 0
  session_schedule : s.macst = .ready ∨ s.macst = .accumulating →
    ∃ m, s.ks = c.initSchedule s.dkm m
  response_form : ∀ q, s.response = some q →
    (q.status ≠ .ok → q.bool = false ∧ q.tag = zeroBlock) ∧ (q.bool = true → q.tag = zeroBlock)

/-! ### States no host can tell apart -/

/-- The states agree on everything a later command can read (R36, R41): the control registers, DMEM and the
ports; the round counts once configured; KS, R and POS while a session is open; R, the tag, in Finished.
They may differ in the unspecified reset values of R40, in DKE and DKM, and in what a cipher command left in
KS, R and POS (R125, R140). -/
structure SameToHost (s t : State) : Prop where
  cfgv : s.cfgv = t.cfgv
  macst : s.macst = t.macst
  rem : s.rem = t.rem
  dmem : s.dmem = t.dmem
  events : s.events = t.events
  response : s.response = t.response
  resets : s.resets = t.resets
  rounds : s.cfgv = true → s.rounds = t.rounds ∧ s.macRounds = t.macRounds
  session : s.macst = .ready ∨ s.macst = .accumulating → s.ks = t.ks ∧ s.r = t.r ∧ s.pos = t.pos
  tag : s.macst = .finished → s.r = t.r

end Sys2Proof.Machine
end

