-- ==== Sys2Proof/Certificates/Slice0/Obligations.lean ====
section
/-! DEFINITION. The statements for the provers. Each docstring names the rule of the spec it formalises.

Statements about `exec` are about the hardware's own, opaque configuration; the laws are stated for every
configuration through `runWith`, and `Obligations.ExecIsRunWithOpenConfiguration` joins the two. A premise
`Memory.wf` or `Inv` rules out only states no run reaches: `Obligations.EveryStepKeepsTheInvariant` and
`Obligations.ResetHoldsTheInvariant` say so. -/

open Sys2Proof Sys2Proof.Machine

/-! ### Encoding (30_encoding.md) -/

/-- R76, the first half of "mutually inverse": every operand at every value survives. -/
def Obligations.DecodeInvertsEncode : Prop :=
  ∀ i : Instr, i.wellFormed = true ∧ decode (encode i).toList = .ok i

/-- R76, the second half: a command encodes to exactly one packet. -/
def Obligations.EncodeInvertsDecode : Prop :=
  ∀ (p : Packet) (i : Instr), decode p.toList = .ok i → encode i = p

/-- R77 and R202: exactly the packets of (a) to (d) are illegal, the all-zero packet among them; an illegal
packet is answered with STATUS 1 and changes nothing, in every state. -/
def Obligations.IllegalPacketsRefusedUnchanged : Prop :=
  (∀ p : Packet, (∀ i, decode p.toList ≠ .ok i) ↔
    (p[0] ∉ assignedOpcodes ∨ p[3] ≠ 0 ∨ (p[0] ≠ 0x01 ∧ (p[1] ≠ 0 ∨ p[2] ≠ 0)) ∨
      (p[0] ∉ bufferOpcodes ∧ ∃ j : Fin 36, 4 ≤ j.val ∧ j.val < 12 ∧ p[j] ≠ 0) ∨
      (p[0] ∉ keyOpcodes ∧ ∃ j : Fin 36, 12 ≤ j.val ∧ j.val < 28 ∧ p[j] ≠ 0) ∨
      (p[0] ∉ auxOpcodes ∧ ∃ j : Fin 36, 28 ≤ j.val ∧ p[j] ≠ 0))) ∧
  (∀ i, decode (Vector.replicate 36 (0 : Byte)).toList ≠ .ok i) ∧
  (∀ (s : State) (p : Packet) (rest : List HostEvent), s.events = .command p :: rest →
    (∀ i, decode p.toList ≠ .ok i) →
    step s = .next { s with events := rest,
                            response := some ⟨.error .illegalCommand, false, zeroBlock⟩ })

/-- R75: "The rows are pairwise exclusive", for every header word. -/
def Obligations.OpcodeRowsExclusive : Prop :=
  opcodeRows.length = 14 ∧
  ∀ h : Word, ∀ i j : Fin 14, (opcodeRows[i.val]?.any fun r => r.selects h) = true →
    (opcodeRows[j.val]?.any fun r => r.selects h) = true → i = j

/-- R85: the two worked packets, written out byte by byte, decode to the commands they stand for, and the three
worked responses are the bytes of their responses; so do the `macFinish`, `macCmp` and `macVerify` packets of
95_test_vectors.md (V-ENC-10, 12, 14). -/
def Obligations.WorkedPacketsDecode : Prop :=
  decode [0x01, 0x20, 0x10, 0x00, 0, 0, 0, 0, 0, 0, 0, 0, 0, 0, 0, 0, 0, 0, 0, 0, 0, 0, 0, 0, 0, 0, 0, 0,
          0, 0, 0, 0, 0, 0, 0, 0] = .ok (.configure 32 16) ∧
  decode [0x20, 0, 0, 0, 0x00, 0x01, 0, 0, 0x0d, 0, 0, 0,
          0x00, 0x01, 0x02, 0x03, 0x04, 0x05, 0x06, 0x07, 0x08, 0x09, 0x0a, 0x0b, 0x0c, 0x0d, 0x0e, 0x0f,
          0xa0, 0xa1, 0xa2, 0xa3, 0xa4, 0xa5, 0xa6, 0xa7] =
    .ok (.cfbEncrypt #v[0x00, 0x01, 0x02, 0x03, 0x04, 0x05, 0x06, 0x07, 0x08, 0x09, 0x0a, 0x0b, 0x0c,
                        0x0d, 0x0e, 0x0f] #v[0xa0, 0xa1, 0xa2, 0xa3, 0xa4, 0xa5, 0xa6, 0xa7] 0x100 13) ∧
  decode [0x42, 0, 0, 0, 0, 0, 0, 0, 0, 0, 0, 0, 0, 0, 0, 0, 0, 0, 0, 0, 0, 0, 0, 0, 0, 0, 0, 0,
          0, 0, 0, 0, 0, 0, 0, 0] = .ok .macFinish ∧
  decode [0x44, 0, 0, 0, 0, 0, 0, 0, 0, 0, 0, 0, 0, 0, 0, 0, 0, 0, 0, 0, 0, 0, 0, 0, 0, 0, 0, 0,
          0x5e, 0x60, 0x62, 0x64, 0x66, 0x68, 0x6a, 0x5c] =
    .ok (.macCmp #v[0x5e, 0x60, 0x62, 0x64, 0x66, 0x68, 0x6a, 0x5c]) ∧
  decode [0x49, 0, 0, 0, 0, 0, 0, 0, 0x08, 0, 0, 0, 0, 0, 0, 0, 0, 0, 0, 0, 0, 0, 0, 0, 0, 0, 0, 0,
          0x5e, 0x60, 0x62, 0x64, 0x66, 0x68, 0x6a, 0x5c] =
    .ok (.macVerify zeroKey #v[0x5e, 0x60, 0x62, 0x64, 0x66, 0x68, 0x6a, 0x5c] 0 8) ∧
  (⟨.ok, false, #v[0x11, 0x22, 0x33, 0x44, 0x55, 0x66, 0x77, 0x88]⟩ : Response).bytes =
    #v[0, 0, 0, 0, 0x11, 0x22, 0x33, 0x44, 0x55, 0x66, 0x77, 0x88] ∧
  (⟨.ok, true, zeroBlock⟩ : Response).bytes = #v[0, 1, 0, 0, 0, 0, 0, 0, 0, 0, 0, 0] ∧
  (⟨.error .invalidLength, false, zeroBlock⟩ : Response).bytes = #v[4, 0, 0, 0, 0, 0, 0, 0, 0, 0, 0, 0]

/-- R80: the status word's STATUS, BOOL and always-zero bits, its little-endian place in the response packet,
and the TAG bytes; the STATUS codes are 0 to 5. -/
def Obligations.ResponsePacketLayout : Prop :=
  (∀ q : Response,
    (q.statusWord.extractLsb' 0 4).toNat = q.status.code ∧ q.statusWord.extractLsb' 4 4 = 0 ∧
    q.statusWord.getLsbD 8 = q.bool ∧ q.statusWord.extractLsb' 9 23 = 0 ∧
    (∀ j : Fin 4, q.bytes[j.val] = q.statusWord.extractLsb' (8 * j.val) 8) ∧
    (∀ j : Fin 8, q.bytes[4 + j.val] = q.tag[j.val])) ∧
  Status.ok.code = 0 ∧ (Status.error .illegalCommand).code = 1 ∧
  (Status.error .notConfigured).code = 2 ∧ (Status.error .invalidState).code = 3 ∧
  (Status.error .invalidLength).code = 4 ∧ (Status.error .outOfRange).code = 5

/-- R81 and the TAG row of R80: what BOOL and TAG of every response are. -/
def Obligations.BoolAndTagOfEveryResponse : Prop :=
  ∀ (c : Config) (i : Instr) (s : State), ∃ q, (runWith c i s).response = some q ∧
    q.bool = (match q.status, i with
      | .ok, .ecbEncrypt _ _ _ => true
      | .ok, .ecbDecrypt _ _ _ => true
      | .ok, .macCmp t => decide (t = (runWith c i s).r)
      | .ok, .macVerify _ t _ _ => decide (t = (runWith c i s).r)
      | _, _ => false) ∧
    q.tag = (match q.status, i with
      | .ok, .macGet => (runWith c i s).r
      | .ok, .macCompute _ _ _ => (runWith c i s).r
      | _, _ => zeroBlock)

/-! ### The step: commands, errors, reset, the host (R5, 60_exceptions.md, 70_reset_and_hazards.md) -/

/-- R5, R70: when the packet on the port decodes to a command, the step is that command's meaning, the packet
taken off the port. -/
def Obligations.StepRunsDecodedCommand : Prop :=
  ∀ (s : State) (p : Packet) (rest : List HostEvent) (i : Instr),
    s.events = .command p :: rest → decode p.toList = .ok i →
    step s = exec i { s with events := rest }

/-- Every command answers a next state, that of its meaning at the hardware's configuration (R201: no command
stops the core). -/
def Obligations.ExecIsRunWithOpenConfiguration : Prop :=
  ∀ (i : Instr) (s : State), exec i s = .next (runWith Config.hw i s)

/-- R218: the idle core holds its state unchanged. -/
def Obligations.IdleCoreHoldsState : Prop :=
  ∀ s : State, s.events = [] → step s = .next s

/-- R38, R39, R42, R230: what reset leaves, at power-up and later, in every state. -/
def Obligations.ResetLeavesControlStateClear : Prop :=
  (State.reset.cfgv = false ∧ State.reset.pos = 0 ∧ State.reset.rem = 0 ∧
    State.reset.macst = .uninitialized) ∧
  ∀ (s : State) (rest : List HostEvent), s.events = .reset :: rest →
    ∃ t, step s = .next t ∧ t.cfgv = false ∧ t.pos = 0 ∧ t.rem = 0 ∧ t.macst = .uninitialized ∧
      t.dmem = s.dmem ∧ t.events = rest

/-- R231: a reset of the idle core does not change DMEM; a reset that abandons a command leaves every byte of that
command's buffer old or new and every other byte unchanged; the control registers are those after reset
(R230, R38, R39). That a new byte is the whole command's is log 8's reading, and that the field `response` is then
none is the model's choice (log 6). -/
def Obligations.ResetDuringCommandTearsOnlyItsBuffer : Prop :=
  (∀ (s t : State) (rest : List HostEvent), s.events = .reset :: rest → step s = .next t →
    t.dmem = s.dmem) ∧
  ∀ (s : State) (p : Packet) (rest : List HostEvent), s.events = .resetDuring p :: rest →
    Memory.wf Config.hw s.dmem →
    ∃ t, step s = .next t ∧ t.cfgv = false ∧ t.pos = 0 ∧ t.rem = 0 ∧ t.macst = .uninitialized ∧
      t.response = none ∧ t.events = rest ∧
      ∀ x : Nat, Memory.read Config.hw t.dmem x ≠ Memory.read Config.hw s.dmem x →
        ∃ i a n, decode p.toList = .ok i ∧ bufferOf i = some (a, n) ∧ a.toNat ≤ x ∧
          x < a.toNat + n.toNat ∧
          Memory.read Config.hw t.dmem x =
            Memory.read Config.hw (runWith Config.hw i { s with events := rest }).dmem x

/-- R5, R61: the host writes DMEM between commands, byte `j` at `a + j`, and nothing else changes; a write
that reaches an address at or above DMEM_SIZE is the model's one fault (log 6). -/
def Obligations.HostWriteChangesItsBytesOnly : Prop :=
  ∀ (s : State) (a : Nat) (bytes : List Byte) (rest : List HostEvent),
    s.events = .hostWrite a bytes :: rest →
    (bytes ≠ [] → Config.hw.dmemSize < a + bytes.length → step s = .fault .hostWriteOutsideDmem) ∧
    ((bytes = [] ∨ a + bytes.length ≤ Config.hw.dmemSize) → Memory.wf Config.hw s.dmem →
      ∃ t, step s = .next t ∧ t = { s with events := rest, dmem := t.dmem } ∧
        (∀ j (h : j < bytes.length), Memory.read Config.hw t.dmem (a + j) = bytes[j]) ∧
        (∀ x, (x < a ∨ a + bytes.length ≤ x) →
          Memory.read Config.hw t.dmem x = Memory.read Config.hw s.dmem x))

/-- R185, R201: a response with STATUS other than 0 means that no register and no DMEM byte changed, BOOL = 0
and TAG = zeros, for every packet in every state. -/
def Obligations.ErrorsChangeNothing : Prop :=
  ∀ (s t : State) (p : Packet) (rest : List HostEvent) (q : Response),
    s.events = .command p :: rest → step s = .next t → t.response = some q → q.status ≠ .ok →
    t = { s with events := rest, response := some ⟨q.status, false, zeroBlock⟩ }

/-- R207: the STATUS every packet is answered with, in the priority order of the causes: IllegalCommand in every
state, then, for a command, the first of the other four. -/
def Obligations.StatusIsTheFirstCause : Prop :=
  (∀ (s : State) (p : Packet) (rest : List HostEvent), s.events = .command p :: rest →
    (∀ i, decode p.toList ≠ .ok i) →
    ∃ t q, step s = .next t ∧ t.response = some q ∧ q.status = .error .illegalCommand) ∧
  ∀ (c : Config) (i : Instr) (s : State), ∃ q, (runWith c i s).response = some q ∧
    q.status =
      if (∃ r m, i = .configure r m) then .ok
      else if s.cfgv = false then .error .notConfigured
      else if phaseTable i s.macst = none then .error .invalidState
      else if (∃ n, ecbLength i = some n ∧ n % 8 ≠ 0) then .error .invalidLength
      else if (∃ a n, bufferOf i = some (a, n) ∧ 0 < n.toNat ∧ c.dmemSize < a.toNat + n.toNat) then
        .error .outOfRange
      else .ok

/-- R203: before `configure` every other command answers NotConfigured; once CFGV is 1 no command answers it
and no command clears CFGV. -/
def Obligations.NotConfiguredUntilConfigure : Prop :=
  (∀ (i : Instr) (s : State), s.cfgv = false → (∀ r m, i ≠ .configure r m) →
    exec i s = .next { s with response := some ⟨.error .notConfigured, false, zeroBlock⟩ }) ∧
  (∀ (i : Instr) (s t : State), s.cfgv = true → exec i s = .next t →
    t.cfgv = true ∧ ∀ q, t.response = some q → q.status ≠ .error .notConfigured)

/-- R150, R204: the phase table, cell by cell: an `IS` cell raises InvalidState and changes nothing, another
cell gives the phase after success, and a command that fails for another reason leaves the phase, as every
command does before the core is configured. -/
def Obligations.PhaseTableGovernsEveryCommand : Prop :=
  ∀ (i : Instr) (s : State), ∃ t, exec i s = .next t ∧
    (s.cfgv = false → t.macst = s.macst) ∧
    (s.cfgv = true →
      match phaseTable i s.macst with
      | none => t = { s with response := some ⟨.error .invalidState, false, zeroBlock⟩ }
      | some ph => (AnsweredOk t → t.macst = ph) ∧ (¬ AnsweredOk t → t.macst = s.macst) ∧
          ∀ q, t.response = some q → q.status ≠ .error .invalidState)

/-- R184, R205: an ECB command with `LEN mod 8 != 0` answers BOOL = 0 with STATUS 2, 3 or 4, which is 4 from a
ready state, and changes nothing; no other command answers InvalidLength. -/
def Obligations.EcbLengthMustBeWholeBlocks : Prop :=
  (∀ (s : State) (k : Key) (a n : Word) (i : Instr),
    i = .ecbEncrypt k a n ∨ i = .ecbDecrypt k a n → n.toNat % 8 ≠ 0 →
    ∃ e, (e = .notConfigured ∨ e = .invalidState ∨ e = .invalidLength) ∧
      (Ready s → e = .invalidLength) ∧
      exec i s = .next { s with response := some ⟨.error e, false, zeroBlock⟩ }) ∧
  (∀ (c : Config) (i : Instr) (s : State) (q : Response), (runWith c i s).response = some q →
    q.status = .error .invalidLength → ∃ n, ecbLength i = some n ∧ n % 8 ≠ 0)

/-- R206: a non-empty buffer that reaches past DMEM_SIZE is refused whole, the sum taken without wrap; OutOfRange
has no other cause, so that an empty buffer raises it at no ADDR; an ECB command whose buffer is also of bad
length raises InvalidLength. -/
def Obligations.OutOfRangeBufferRefused : Prop :=
  (∀ (c : Config) (i : Instr) (s : State) (a n : Word), bufferOf i = some (a, n) →
    s.cfgv = true → phaseTable i s.macst ≠ none → (∀ l, ecbLength i = some l → l % 8 = 0) →
    0 < n.toNat → c.dmemSize < a.toNat + n.toNat →
    runWith c i s = { s with response := some ⟨.error .outOfRange, false, zeroBlock⟩ }) ∧
  (∀ (c : Config) (i : Instr) (s : State) (q : Response),
    (runWith c i s).response = some q → q.status = .error .outOfRange →
    ∃ a n, bufferOf i = some (a, n) ∧ 0 < n.toNat ∧ c.dmemSize < a.toNat + n.toNat) ∧
  (∀ (c : Config) (i : Instr) (s : State) (l : Nat), ecbLength i = some l → l % 8 ≠ 0 →
    s.cfgv = true → phaseTable i s.macst ≠ none →
    runWith c i s = { s with response := some ⟨.error .invalidLength, false, zeroBlock⟩ })

/-! ### The commands (40 to 43) -/

/-- R110, R26: `configure` in every state, whole. -/
def Obligations.ConfigureSetsRoundCounts : Prop :=
  ∀ (s : State) (r m : Byte),
    exec (.configure r m) s =
      .next { s with rounds := r, macRounds := m, cfgv := true,
                     response := some ⟨.ok, false, zeroBlock⟩ }

/-- R122, R121: `ecbEncrypt` from a ready state: block `j` becomes `permute(KS, forward, block j)` under
`KS = initSchedule(K, ROUNDS)`; nothing changes but KS and the buffer. -/
def Obligations.EcbEncryptMapsBlocksForward : Prop :=
  ∀ (s : State) (k : Key) (a n : Word), Ready s → n.toNat % 8 = 0 → BufferIn Config.hw a n →
    Memory.wf Config.hw s.dmem →
    ∃ t, exec (.ecbEncrypt k a n) s = .next t ∧
      t = { s with ks := Config.hw.initSchedule k s.rounds, dmem := t.dmem,
                   response := some ⟨.ok, true, zeroBlock⟩ } ∧
      (∀ j, j < n.toNat / 8 → Memory.readBlock Config.hw t.dmem (a.toNat + 8 * j) =
        Config.hw.permute (Config.hw.initSchedule k s.rounds) .forward
          (Memory.readBlock Config.hw s.dmem (a.toNat + 8 * j))) ∧
      (∀ x, (x < a.toNat ∨ a.toNat + n.toNat ≤ x) →
        Memory.read Config.hw t.dmem x = Memory.read Config.hw s.dmem x)

/-- R123, R121: `ecbDecrypt` from a ready state, as `ecbEncrypt` with the direction `inverse`. -/
def Obligations.EcbDecryptMapsBlocksInverse : Prop :=
  ∀ (s : State) (k : Key) (a n : Word), Ready s → n.toNat % 8 = 0 → BufferIn Config.hw a n →
    Memory.wf Config.hw s.dmem →
    ∃ t, exec (.ecbDecrypt k a n) s = .next t ∧
      t = { s with ks := Config.hw.initSchedule k s.rounds, dmem := t.dmem,
                   response := some ⟨.ok, true, zeroBlock⟩ } ∧
      (∀ j, j < n.toNat / 8 → Memory.readBlock Config.hw t.dmem (a.toNat + 8 * j) =
        Config.hw.permute (Config.hw.initSchedule k s.rounds) .inverse
          (Memory.readBlock Config.hw s.dmem (a.toNat + 8 * j))) ∧
      (∀ x, (x < a.toNat ∨ a.toNat + n.toNat ≤ x) →
        Memory.read Config.hw t.dmem x = Memory.read Config.hw s.dmem x)

/-- R135, R132, R134: `cfbEncrypt` from a ready state: output byte `i` is input byte `i` XOR byte `i mod 8` of
`E(C)`, `C` the ciphertext block before (the IV for the first); the end state of R132, `POS = N mod 8`; in R
the bytes past a partial chunk keep their keystream (R141). -/
def Obligations.CfbEncryptChainsCiphertext : Prop :=
  ∀ (s : State) (k : Key) (iv : Block) (a n : Word), Ready s → BufferIn Config.hw a n →
    Memory.wf Config.hw s.dmem →
    ∃ t, exec (.cfbEncrypt k iv a n) s = .next t ∧
      t = { s with ks := Config.hw.initSchedule k s.rounds, r := t.r, pos := Fin.ofNat 8 n.toNat,
                   rem := 0, macst := .uninitialized, dmem := t.dmem,
                   response := some ⟨.ok, false, zeroBlock⟩ } ∧
      (∀ i, i < n.toNat → Memory.read Config.hw t.dmem (a.toNat + i) =
        Memory.read Config.hw s.dmem (a.toNat + i) ^^^
          (Config.hw.permute t.ks .forward (cfbChain Config.hw t.dmem iv a.toNat (i / 8)))[i % 8]) ∧
      (∀ x, (x < a.toNat ∨ a.toNat + n.toNat ≤ x) →
        Memory.read Config.hw t.dmem x = Memory.read Config.hw s.dmem x) ∧
      (n.toNat % 8 = 0 → t.r = cfbChain Config.hw t.dmem iv a.toNat (n.toNat / 8)) ∧
      (n.toNat % 8 ≠ 0 → ∀ j : Fin 8, t.r[j.val] =
        if j.val < n.toNat % 8 then Memory.read Config.hw t.dmem (a.toNat + 8 * (n.toNat / 8) + j.val)
        else (Config.hw.permute t.ks .forward
          (cfbChain Config.hw t.dmem iv a.toNat (n.toNat / 8)))[j.val])

/-- R136, R132, R134: `cfbDecrypt` from a ready state: the same with the ciphertext read from the buffer before
the command; `permute` still with `forward` (R133). -/
def Obligations.CfbDecryptChainsCiphertextRead : Prop :=
  ∀ (s : State) (k : Key) (iv : Block) (a n : Word), Ready s → BufferIn Config.hw a n →
    Memory.wf Config.hw s.dmem →
    ∃ t, exec (.cfbDecrypt k iv a n) s = .next t ∧
      t = { s with ks := Config.hw.initSchedule k s.rounds, r := t.r, pos := Fin.ofNat 8 n.toNat,
                   rem := 0, macst := .uninitialized, dmem := t.dmem,
                   response := some ⟨.ok, false, zeroBlock⟩ } ∧
      (∀ i, i < n.toNat → Memory.read Config.hw t.dmem (a.toNat + i) =
        Memory.read Config.hw s.dmem (a.toNat + i) ^^^
          (Config.hw.permute t.ks .forward (cfbChain Config.hw s.dmem iv a.toNat (i / 8)))[i % 8]) ∧
      (∀ x, (x < a.toNat ∨ a.toNat + n.toNat ≤ x) →
        Memory.read Config.hw t.dmem x = Memory.read Config.hw s.dmem x) ∧
      (n.toNat % 8 = 0 → t.r = cfbChain Config.hw s.dmem iv a.toNat (n.toNat / 8)) ∧
      (n.toNat % 8 ≠ 0 → ∀ j : Fin 8, t.r[j.val] =
        if j.val < n.toNat % 8 then Memory.read Config.hw s.dmem (a.toNat + 8 * (n.toNat / 8) + j.val)
        else (Config.hw.permute t.ks .forward
          (cfbChain Config.hw s.dmem iv a.toNat (n.toNat / 8)))[j.val])

/-- R137, R138, R132, R134: `ofbEncrypt` and `ofbDecrypt` from a ready state: output byte `i` is input byte `i`
XOR byte `i mod 8` of keystream block `S_{i/8+1}`, `S_0` the IV; R ends as the last keystream block. -/
def Obligations.OfbXorsDataFreeKeystream : Prop :=
  ∀ (s : State) (k : Key) (iv : Block) (a n : Word) (i : Instr),
    i = .ofbEncrypt k iv a n ∨ i = .ofbDecrypt k iv a n → Ready s → BufferIn Config.hw a n →
    Memory.wf Config.hw s.dmem →
    ∃ t, exec i s = .next t ∧
      t = { s with ks := Config.hw.initSchedule k s.rounds,
                   r := ofbBlock Config.hw (Config.hw.initSchedule k s.rounds) iv ((n.toNat + 7) / 8),
                   pos := Fin.ofNat 8 n.toNat, rem := 0, macst := .uninitialized, dmem := t.dmem,
                   response := some ⟨.ok, false, zeroBlock⟩ } ∧
      (∀ j, j < n.toNat → Memory.read Config.hw t.dmem (a.toNat + j) =
        Memory.read Config.hw s.dmem (a.toNat + j) ^^^
          (ofbBlock Config.hw t.ks iv (j / 8 + 1))[j % 8]) ∧
      (∀ x, (x < a.toNat ∨ a.toNat + n.toNat ≤ x) →
        Memory.read Config.hw t.dmem x = Memory.read Config.hw s.dmem x)

/-- R139: with `N = 0` a feedback command succeeds from a ready state at any ADDR, calls no `permute` and touches
no DMEM byte: KS, R = IV, POS = 0, REM = 0, MACST = Uninitialized. -/
def Obligations.FeedbackLengthZeroSeedsOnly : Prop :=
  ∀ (s : State) (k : Key) (iv : Block) (a : Word) (i : Instr),
    i = .cfbEncrypt k iv a 0 ∨ i = .cfbDecrypt k iv a 0 ∨ i = .ofbEncrypt k iv a 0 ∨
      i = .ofbDecrypt k iv a 0 → Ready s →
    exec i s = .next { s with ks := Config.hw.initSchedule k s.rounds, r := iv, pos := 0, rem := 0,
                              macst := .uninitialized, response := some ⟨.ok, false, zeroBlock⟩ } ∧
      (callsOf Config.hw i s).permutes = 0

/-- R153: `macInit` from a ready state, whole. -/
def Obligations.MacInitSeedsTheSession : Prop :=
  ∀ (s : State) (k : Key), Ready s →
    exec (.macInit k) s =
      .next { s with dke := (Config.hw.derive k).1, dkm := (Config.hw.derive k).2,
                     ks := Config.hw.initSchedule (Config.hw.derive k).2 s.macRounds,
                     r := zeroBlock, pos := 0, macst := .ready,
                     response := some ⟨.ok, false, zeroBlock⟩ }

/-- R155, R156: `macUpdate` in an open session absorbs the buffer's bytes into (R, POS) by the CFB byte step,
writes no DMEM byte, and moves the phase to Accumulating, also for `N = 0`. -/
def Obligations.MacUpdateAbsorbsTheBuffer : Prop :=
  ∀ (s : State) (a n : Word), SessionOpen s → BufferIn Config.hw a n →
    exec (.macUpdate a n) s =
      .next { s with r := (absorb Config.hw s.ks (s.r, s.pos) (buf Config.hw s.dmem a n)).1,
                     pos := (absorb Config.hw s.ks (s.r, s.pos) (buf Config.hw s.dmem a n)).2,
                     rem := 0, macst := .accumulating,
                     response := some ⟨.ok, false, zeroBlock⟩ }

/-- R157: `macFinish` in an open session, whole. -/
def Obligations.MacFinishPermutesOnce : Prop :=
  ∀ s : State, SessionOpen s →
    exec .macFinish s =
      .next { s with r := Config.hw.permute s.ks .forward s.r, pos := 0, macst := .finished,
                     response := some ⟨.ok, false, zeroBlock⟩ }

/-- R158, R159: `macGet` and `macCmp` in Finished answer with R and with the comparison, and change nothing. -/
def Obligations.MacGetAndCmpReportTheTag : Prop :=
  ∀ s : State, TagReady s →
    exec .macGet s = .next { s with response := some ⟨.ok, false, s.r⟩ } ∧
    ∀ t : Block, exec (.macCmp t) s =
      .next { s with response := some ⟨.ok, decide (∀ j : Fin 8, t[j.val] = s.r[j.val]), zeroBlock⟩ }

/-- R161, R164: `macCompute` from a ready state leaves and answers R164's tag of the buffer's bytes; DMEM is
not written. -/
def Obligations.MacComputeAnswersTheTag : Prop :=
  ∀ (s : State) (k : Key) (a n : Word), Ready s → BufferIn Config.hw a n →
    exec (.macCompute k a n) s =
      .next { s with dke := (Config.hw.derive k).1, dkm := (Config.hw.derive k).2,
                     ks := macSched Config.hw k s.macRounds,
                     r := macTag Config.hw k s.macRounds (buf Config.hw s.dmem a n),
                     pos := 0, rem := 0, macst := .finished,
                     response := some ⟨.ok, false,
                       macTag Config.hw k s.macRounds (buf Config.hw s.dmem a n)⟩ }

/-- R162, R164, R243: `macVerify` from a ready state compares the candidate with the computed tag, does not
output the tag, and leaves the computed tag in R, equal or not. -/
def Obligations.MacVerifyComparesTheTag : Prop :=
  ∀ (s : State) (k : Key) (tag : Block) (a n : Word), Ready s → BufferIn Config.hw a n →
    exec (.macVerify k tag a n) s =
      .next { s with dke := (Config.hw.derive k).1, dkm := (Config.hw.derive k).2,
                     ks := macSched Config.hw k s.macRounds,
                     r := macTag Config.hw k s.macRounds (buf Config.hw s.dmem a n),
                     pos := 0, rem := 0, macst := .finished,
                     response := some ⟨.ok,
                       decide (tag = macTag Config.hw k s.macRounds (buf Config.hw s.dmem a n)),
                       zeroBlock⟩ }

/-! ### Laws of the engines -/

/-- R143: the chunk loop of R131 equals the loop over single bytes, in every state, mode and direction. -/
def Obligations.FeedbackRunEqualsByteRun : Prop :=
  ∀ (c : Config) (mode : Mode) (dir : CipherDir) (a n : Word) (discard : Bool) (s : State),
    feedbackRun c mode dir a n discard s =
      { byteRun c mode dir discard n.toNat a.toNat s with rem := 0 }

/-- R144: the splitting law, for any state with KS, R, POS given. -/
def Obligations.FeedbackRunSplits : Prop :=
  ∀ (c : Config) (mode : Mode) (dir : CipherDir) (a n1 n2 : Word) (discard : Bool) (s : State),
    a.toNat + n1.toNat + n2.toNat ≤ 2 ^ 32 → n1.toNat + n2.toNat < 2 ^ 32 →
    feedbackRun c mode dir a (n1 + n2) discard s =
      feedbackRun c mode dir (a + n1) n2 discard (feedbackRun c mode dir a n1 discard s)

/-- R183, R138: `ofbDecrypt` computes exactly what `ofbEncrypt` computes, state and response, in every state. -/
def Obligations.OfbDirectionsCoincide : Prop :=
  ∀ (c : Config) (k : Key) (iv : Block) (a n : Word) (s : State),
    runWith c (.ofbDecrypt k iv a n) s = runWith c (.ofbEncrypt k iv a n) s

/-- R126: splitting an ECB buffer at a block boundary gives the same DMEM. -/
def Obligations.EcbSplitsAtBlocks : Prop :=
  ∀ (c : Config) (s : State) (k : Key) (a n1 n2 : Word) (enc : Bool), Ready s →
    n1.toNat % 8 = 0 → n2.toNat % 8 = 0 → n1.toNat + n2.toNat < 2 ^ 32 →
    a.toNat + n1.toNat + n2.toNat ≤ c.dmemSize →
    let cmd (a n : Word) : Instr := if enc then .ecbEncrypt k a n else .ecbDecrypt k a n
    runAll c [cmd a n1, cmd (a + n1) n2] s = runWith c (cmd a (n1 + n2)) s

/-- R157: FINAL "is the same chained CFB step": it leaves the R and POS of a CFB run over
`((8 - POS) mod 8) + 8` zero bytes. -/
def Obligations.FinishIsCfbOverZeroBytes : Prop :=
  ∀ (c : Config) (s : State) (a z : Word), z.toNat = (8 - s.pos.val) % 8 + 8 →
    (∀ j, j < z.toNat → Memory.read c s.dmem (a.toNat + j) = 0) →
    (feedbackRun c .cfb .enc a z true s).r = (macFinishBody c s).r ∧
    (feedbackRun c .cfb .enc a z true s).pos = (macFinishBody c s).pos

/-- R103: what P-INV gives for every schedule: the forward map is injective and onto, and `inverse` undone by
`forward` is the identity too. -/
def Obligations.PermutationInvertsBothWays : Prop :=
  ∀ c : Config, c.PInv → ∀ ks,
    Function.Injective (c.permute ks .forward) ∧ Function.Surjective (c.permute ks .forward) ∧
    ∀ b, c.permute ks .forward (c.permute ks .inverse b) = b

/-! ### Properties the rules must satisfy (44_properties.md) -/

/-- R181: ECB round trips in both orders restore DMEM, assuming P-INV. -/
def Obligations.EcbRoundTripRestoresMemory : Prop :=
  ∀ (c : Config) (s : State) (k : Key) (a n : Word) (first second : Instr), c.PInv → Ready s →
    n.toNat % 8 = 0 → BufferIn c a n → Memory.wf c s.dmem →
    ((first = .ecbEncrypt k a n ∧ second = .ecbDecrypt k a n) ∨
      (first = .ecbDecrypt k a n ∧ second = .ecbEncrypt k a n)) →
    (runWith c first s).response = some ⟨.ok, true, zeroBlock⟩ ∧
    (runAll c [first, second] s).response = some ⟨.ok, true, zeroBlock⟩ ∧
    (runAll c [first, second] s).dmem = s.dmem

/-- R182: feedback round trips restore DMEM, with no assumption on the primitive: CFB in both orders, OFB by
either command. -/
def Obligations.FeedbackRoundTripRestoresMemory : Prop :=
  ∀ (c : Config) (s : State) (k : Key) (iv : Block) (a n : Word) (first second : Instr), Ready s →
    BufferIn c a n → Memory.wf c s.dmem →
    ((first = .cfbEncrypt k iv a n ∧ second = .cfbDecrypt k iv a n) ∨
      (first = .cfbDecrypt k iv a n ∧ second = .cfbEncrypt k iv a n) ∨
      (first = .ofbEncrypt k iv a n ∧ second = .ofbDecrypt k iv a n) ∨
      (first = .ofbEncrypt k iv a n ∧ second = .ofbEncrypt k iv a n)) →
    AllAnswerOk c [first, second] s ∧ (runAll c [first, second] s).dmem = s.dmem

/-- R163: `macCompute` and `macVerify` equal their step-by-step protocols, state, DMEM and response; where they
are refused, the protocol fails at its first or second command, and leaves a session open in Ready when only
the buffer is out of range. -/
def Obligations.MacOneShotEqualsProtocol : Prop :=
  (∀ (c : Config) (s : State) (k : Key) (tag : Block) (a n : Word), ¬ (Ready s ∧ BufferIn c a n) →
    ¬ AnsweredOk (runWith c (.macCompute k a n) s) ∧ ¬ AnsweredOk (runWith c (.macVerify k tag a n) s) ∧
    ¬ AllAnswerOk c [.macInit k, .macUpdate a n] s ∧
    (Ready s → (runAll c [.macInit k, .macUpdate a n] s).macst = .ready)) ∧
  ∀ (c : Config) (s : State) (k : Key) (tag : Block) (a n : Word), Ready s → BufferIn c a n →
    AllAnswerOk c [.macInit k, .macUpdate a n, .macFinish] s ∧
    runAll c [.macInit k, .macUpdate a n, .macFinish, .macGet] s = runWith c (.macCompute k a n) s ∧
    runAll c [.macInit k, .macUpdate a n, .macFinish, .macCmp tag] s =
      runWith c (.macVerify k tag a n) s

/-- R187: MAC determinism: the tag depends on the key, the buffer's bytes and MACROUNDS only. -/
def Obligations.MacTagIsDeterministic : Prop :=
  ∀ (c : Config) (s1 s2 : State) (k : Key) (a1 a2 n : Word), Ready s1 → Ready s2 →
    s1.macRounds = s2.macRounds → BufferIn c a1 n → BufferIn c a2 n →
    buf c s1.dmem a1 n = buf c s2.dmem a2 n →
    AnsweredOk (runWith c (.macCompute k a1 n) s1) ∧
    (runWith c (.macCompute k a1 n) s1).response = (runWith c (.macCompute k a2 n) s2).response

/-- R188, R164: MAC streaming equivalence. For every list of buffers in range, overlapping, repeated or empty, the
session answers OK throughout and its TAG is R164's of the concatenation, also where the data fits in no
buffer; and it is the TAG of `macCompute` on any buffer that holds the data, in any ready state with the same
MACROUNDS. -/
def Obligations.MacStreamingEquivalence : Prop :=
  ∀ (c : Config) (s : State) (k : Key) (pieces : List (Word × Word)), Ready s →
    (∀ x ∈ pieces, BufferIn c x.1 x.2) →
    let data : List Byte := pieces.flatMap fun x => buf c s.dmem x.1 x.2
    let session : List Instr :=
      .macInit k :: (pieces.map fun x => .macUpdate x.1 x.2) ++ [.macFinish, .macGet]
    AllAnswerOk c session s ∧
    (runAll c session s).response = some ⟨.ok, false, macTag c k s.macRounds data⟩ ∧
    ∀ (s2 : State) (a n : Word), Ready s2 → s2.macRounds = s.macRounds → BufferIn c a n →
      buf c s2.dmem a n = data →
      (runWith c (.macCompute k a n) s2).response = (runAll c session s).response

/-- R189: the tag verifies against the data it was computed over; and, assuming P-INV, it does not verify
against data of the same length that differs inside one 8-byte stream block. -/
def Obligations.MacVerifyAcceptsAndRejects : Prop :=
  (∀ (c : Config) (s : State) (k : Key) (a n : Word), Ready s → BufferIn c a n →
    ∃ tag, (runWith c (.macCompute k a n) s).response = some ⟨.ok, false, tag⟩ ∧
      (runAll c [.macCompute k a n, .macVerify k tag a n] s).response =
        some ⟨.ok, true, zeroBlock⟩) ∧
  (∀ (c : Config) (s1 s2 : State) (k : Key) (a1 a2 n : Word) (b : Nat) (tag : Block), c.PInv →
    Ready s1 → Ready s2 → s1.macRounds = s2.macRounds → BufferIn c a1 n → BufferIn c a2 n →
    buf c s1.dmem a1 n ≠ buf c s2.dmem a2 n →
    (∀ i, i < n.toNat → i / 8 ≠ b → Memory.read c s1.dmem (a1.toNat + i) =
      Memory.read c s2.dmem (a2.toNat + i)) →
    (runWith c (.macCompute k a1 n) s1).response = some ⟨.ok, false, tag⟩ →
    (runWith c (.macVerify k tag a2 n) s2).response = some ⟨.ok, false, zeroBlock⟩)

/-- R165, R244: zero bytes appended inside a partial last block do not change the tag; one appended after a
whole block gives `E(E(W))`: of R164's closed form, and of what `macCompute` answers over a buffer and over
the longer buffer whose further bytes are zero. -/
def Obligations.TrailingZerosKeepTheTag : Prop :=
  (∀ (c : Config) (k : Key) (m : Byte) (msg : List Byte), msg.length % 8 = 0 →
    macTag c k m (msg ++ [0]) = c.permute (macSched c k m) .forward (macTag c k m msg)) ∧
  (∀ (c : Config) (k : Key) (m : Byte) (msg : List Byte) (z : Nat), 0 < msg.length % 8 →
    msg.length % 8 + z ≤ 8 →
    macTag c k m (msg ++ List.replicate z 0) = macTag c k m msg) ∧
  ∀ (c : Config) (s : State) (k : Key) (a n n' : Word), Ready s → BufferIn c a n' →
    n.toNat ≤ n'.toNat →
    (∀ j, n.toNat ≤ j → j < n'.toNat → Memory.read c s.dmem (a.toNat + j) = 0) →
    ∃ tag, (runWith c (.macCompute k a n) s).response = some ⟨.ok, false, tag⟩ ∧
      (0 < n.toNat % 8 → n.toNat % 8 + (n'.toNat - n.toNat) ≤ 8 →
        (runWith c (.macCompute k a n') s).response = some ⟨.ok, false, tag⟩) ∧
      (n.toNat % 8 = 0 → n'.toNat = n.toNat + 1 →
        (runWith c (.macCompute k a n') s).response =
          some ⟨.ok, false, c.permute (macSched c k s.macRounds) .forward tag⟩)

/-- R166: the MAC of the empty message is `E(zeros(8))`, by the session and by `macCompute` at any ADDR. -/
def Obligations.EmptyMessageTag : Prop :=
  ∀ (c : Config) (s : State) (k : Key) (a : Word), Ready s →
    (runAll c [.macInit k, .macFinish, .macGet] s).response =
      some ⟨.ok, false, c.permute (macSched c k s.macRounds) .forward zeroBlock⟩ ∧
    (runWith c (.macCompute k a 0) s).response =
      some ⟨.ok, false, c.permute (macSched c k s.macRounds) .forward zeroBlock⟩

/-- R190: the source's concrete scenario, for every PRIM with P-INV, every DERIVE and every DMEM that holds the
buffer, from any state after a reset; the host then increments any one byte. -/
def Obligations.ConcreteScenarioHolds : Prop :=
  ∀ (c : Config) (s0 s1 s2 s3 : State) (a : Word) (j : Fin 8), c.PInv →
    a.toNat + 8 ≤ c.dmemSize → Memory.wf c s0.dmem →
    s1 = runWith c (.configure 32 16) (resetEvent c s0) →
    hostWriteEvent c a.toNat [0, 1, 2, 3, 4, 5, 6, 7] s1 = .next s2 →
    s3 = runAll c [.ecbEncrypt zeroKey a 8, .ecbDecrypt zeroKey a 8] s2 →
    s1.response = some ⟨.ok, false, zeroBlock⟩ ∧
    (runWith c (.ecbEncrypt zeroKey a 8) s2).response = some ⟨.ok, true, zeroBlock⟩ ∧
    s3.response = some ⟨.ok, true, zeroBlock⟩ ∧
    buf c s3.dmem a 8 = [0, 1, 2, 3, 4, 5, 6, 7] ∧
    ∃ tag, (runWith c (.macCompute zeroKey a 8) s3).response = some ⟨.ok, false, tag⟩ ∧
      (runAll c [.macCompute zeroKey a 8, .macCompute zeroKey a 8] s3).response =
        some ⟨.ok, false, tag⟩ ∧
      (runAll c [.macCompute zeroKey a 8, .macCompute zeroKey a 8, .macVerify zeroKey tag a 8]
        s3).response = some ⟨.ok, true, zeroBlock⟩ ∧
      ∃ s4, hostWriteEvent c (a.toNat + j.val) [BitVec.ofNat 8 (j.val + 1)]
          (runAll c [.macCompute zeroKey a 8, .macCompute zeroKey a 8, .macVerify zeroKey tag a 8]
            s3) = .next s4 ∧
        (runWith c (.macVerify zeroKey tag a 8) s4).response = some ⟨.ok, false, zeroBlock⟩

/-- R191: moving the buffer and ADDR together changes nothing else: the same registers and response, the same
bytes in the buffer. -/
def Obligations.CommandsArePositionIndependent : Prop :=
  ∀ (c : Config) (i : Instr) (s : State) (m : Memory) (a n b : Word), bufferOf i = some (a, n) →
    BufferIn c a n → BufferIn c b n → Memory.wf c s.dmem → Memory.wf c m →
    buf c s.dmem a n = buf c m b n →
    let t := runWith c i s
    let u := runWith c (relocate b i) { s with dmem := m }
    { u with dmem := t.dmem } = t ∧ buf c u.dmem b n = buf c t.dmem a n

/-- R192, R53: no command changes a byte outside its buffer, and no command but the six cipher commands changes
any byte. -/
def Obligations.OnlyCipherBuffersChange : Prop :=
  ∀ (c : Config) (i : Instr) (s : State),
    (∀ x : Nat, (∀ a n, bufferOf i = some (a, n) → x < a.toNat ∨ a.toNat + n.toNat ≤ x) →
      Memory.read c (runWith c i s).dmem x = Memory.read c s.dmem x) ∧
    (isCipher i = false → (runWith c i s).dmem = s.dmem)

/-- R193: the prefix property: the first `n1` output bytes over `(A, n)` are those over `(A, n1)` with the same
key, IV, ROUNDS and input prefix, whatever the rest of the two states. -/
def Obligations.StreamOutputHasPrefixProperty : Prop :=
  ∀ (c : Config) (s1 s2 : State) (k : Key) (iv : Block) (a n1 n : Word)
    (cmd : Key → Block → Word → Word → Instr),
    cmd = .cfbEncrypt ∨ cmd = .cfbDecrypt ∨ cmd = .ofbEncrypt ∨ cmd = .ofbDecrypt →
    Ready s1 → Ready s2 → s1.rounds = s2.rounds → n1.toNat ≤ n.toNat → BufferIn c a n →
    Memory.wf c s1.dmem → Memory.wf c s2.dmem → buf c s1.dmem a n1 = buf c s2.dmem a n1 →
    buf c (runWith c (cmd k iv a n) s1).dmem a n1 = buf c (runWith c (cmd k iv a n1) s2).dmem a n1

/-- R194: a cipher command does not depend on MACROUNDS, and every other command does not depend on ROUNDS
(`configure` sets both). -/
def Obligations.RoundCountsAreIndependent : Prop :=
  ∀ (c : Config) (i : Instr) (s : State) (x : Byte), (∀ r m, i ≠ .configure r m) →
    (isCipher i = true →
      runWith c i { s with macRounds := x } = { runWith c i s with macRounds := x }) ∧
    (isCipher i = false → runWith c i { s with rounds := x } = { runWith c i s with rounds := x })

/-! ### Rules about the whole machine -/

/-- R186: totality: in its phase and with its buffer in range, every streaming command answers OK. -/
def Obligations.StreamingCommandsAreTotal : Prop :=
  ∀ (c : Config) (s : State),
    (Ready s → ∀ (k : Key) (iv : Block) (a n : Word), BufferIn c a n →
      AnsweredOk (runWith c (.cfbEncrypt k iv a n) s) ∧ AnsweredOk (runWith c (.cfbDecrypt k iv a n) s) ∧
      AnsweredOk (runWith c (.ofbEncrypt k iv a n) s) ∧ AnsweredOk (runWith c (.ofbDecrypt k iv a n) s)) ∧
    (SessionOpen s → AnsweredOk (runWith c .macFinish s) ∧
      ∀ a n : Word, BufferIn c a n → AnsweredOk (runWith c (.macUpdate a n) s))

/-- R234: the state right after the first successful `configure` that follows a reset, and which commands it
accepts. -/
def Obligations.FirstConfigureOpensTheCore : Prop :=
  ∀ (c : Config) (s : State) (r m : Byte),
    let t := runWith c (.configure r m) (resetEvent c s)
    (t.rounds = r ∧ t.macRounds = m ∧ t.cfgv = true ∧ t.macst = .uninitialized ∧ t.pos = 0 ∧ t.rem = 0) ∧
    ∀ i : Instr, (∀ a n, bufferOf i = some (a, n) → BufferIn c a n) →
      (∀ l, ecbLength i = some l → l % 8 = 0) →
      ∃ q, (runWith c i t).response = some q ∧ q.status =
        match i with
        | .macUpdate _ _ => .error .invalidState
        | .macFinish => .error .invalidState
        | .macGet => .error .invalidState
        | .macCmp _ => .error .invalidState
        | _ => .ok

/-- R240: in Finished, `macGet`, `macCmp`, the ECB commands and `configure` leave the tag in R, whatever they
answer; a feedback command or a `macInit` that succeeds takes it away, and `macGet` then answers InvalidState;
after `macCompute` and `macVerify` `macGet` answers the new tag. -/
def Obligations.TagStaysUntilTheContextIsReused : Prop :=
  ∀ (c : Config) (s : State) (i : Instr), TagReady s →
    ((i = .macGet ∨ (∃ t, i = .macCmp t) ∨ IsEcb i ∨ ∃ r m, i = .configure r m) →
      TagReady (runWith c i s) ∧
      (runAll c [i, .macGet] s).response = (runWith c .macGet s).response) ∧
    ((isCipher i = true ∧ ¬ IsEcb i ∨ ∃ k, i = .macInit k) → AnsweredOk (runWith c i s) →
      (runAll c [i, .macGet] s).response = some ⟨.error .invalidState, false, zeroBlock⟩) ∧
    (∀ k a n, (i = .macCompute k a n ∨ ∃ t, i = .macVerify k t a n) → AnsweredOk (runWith c i s) →
      (runAll c [i, .macGet] s).response = some ⟨.ok, false, macTag c k s.macRounds (buf c s.dmem a n)⟩)

/-- R242: a `configure` inside an open session has no effect on its tag. -/
def Obligations.ConfigureInsideSessionKeepsTag : Prop :=
  ∀ (c : Config) (s : State) (r m : Byte) (pieces : List (Word × Word)), SessionOpen s →
    (∀ x ∈ pieces, BufferIn c x.1 x.2) →
    let rest : List Instr := (pieces.map fun x => .macUpdate x.1 x.2) ++ [.macFinish, .macGet]
    AllAnswerOk c (.configure r m :: rest) s ∧
    (runAll c (.configure r m :: rest) s).response = (runAll c rest s).response

/-- R245: the loop iterations and the calls of `initSchedule`, `permute` and `DERIVE` of every command that
succeeds; a command that raises an error makes none. What the engines count as they run are the iterations, and
the `permute` calls inside a loop, of the ECB commands, the feedback commands, `macUpdate`, `macCompute` and
`macVerify`; every other entry (the `initSchedule` and `DERIVE` columns, the one `permute` of FINAL, the rows
without a loop) is the number `callsOf` itself enters for the command's body. -/
def Obligations.CallCountsMatchTheTable : Prop :=
  ∀ (c : Config) (i : Instr) (s : State),
    (¬ AnsweredOk (runWith c i s) → callsOf c i s = ⟨0, 0, 0, 0⟩) ∧
    (AnsweredOk (runWith c i s) → callsOf c i s =
      match i with
      | .configure _ _ => ⟨0, 0, 0, 0⟩
      | .ecbEncrypt _ _ n => ⟨n.toNat / 8, 1, n.toNat / 8, 0⟩
      | .ecbDecrypt _ _ n => ⟨n.toNat / 8, 1, n.toNat / 8, 0⟩
      | .cfbEncrypt _ _ _ n => ⟨chunkCount 0 n.toNat, 1, permuteCount 0 n.toNat, 0⟩
      | .cfbDecrypt _ _ _ n => ⟨chunkCount 0 n.toNat, 1, permuteCount 0 n.toNat, 0⟩
      | .ofbEncrypt _ _ _ n => ⟨chunkCount 0 n.toNat, 1, permuteCount 0 n.toNat, 0⟩
      | .ofbDecrypt _ _ _ n => ⟨chunkCount 0 n.toNat, 1, permuteCount 0 n.toNat, 0⟩
      | .macInit _ => ⟨0, 1, 0, 1⟩
      | .macUpdate _ n => ⟨chunkCount s.pos.val n.toNat, 0, permuteCount s.pos.val n.toNat, 0⟩
      | .macFinish => ⟨0, 0, 1, 0⟩
      | .macGet => ⟨0, 0, 0, 0⟩
      | .macCmp _ => ⟨0, 0, 0, 0⟩
      | .macCompute _ _ n => ⟨chunkCount 0 n.toNat, 1, permuteCount 0 n.toNat + 1, 1⟩
      | .macVerify _ _ _ n => ⟨chunkCount 0 n.toNat, 1, permuteCount 0 n.toNat + 1, 1⟩)

/-- R232: reset is the only way to leave an open MAC session without finishing it, and the only way to return
CFGV to 0. -/
def Obligations.OnlyResetClearsOrAbandons : Prop :=
  ∀ s t : State, step s = .next t →
    ((s.cfgv = true ∧ t.cfgv = false) ∨
      (s.macst.sessionOpen = true ∧ t.macst.sessionOpen = false ∧
        ∀ p rest, s.events = .command p :: rest → decode p.toList ≠ .ok .macFinish)) →
    ∃ rest, s.events = .reset :: rest ∨ ∃ p, s.events = .resetDuring p :: rest

/-- R41, R125, R140: no response, no DMEM byte and no phase ever depends on an unspecified reset value, on DKE or
DKM, or on what a cipher command left in KS, R and POS: states a host cannot tell apart stay so. -/
def Obligations.UnspecifiedValuesNeverShow : Prop :=
  ∀ s t s' : State, SameToHost s t → step s = .next s' →
    ∃ t', step t = .next t' ∧ SameToHost s' t'

/-- R31, R33 and the canonical form of DMEM: every step keeps the invariant, from every state that has it. -/
def Obligations.EveryStepKeepsTheInvariant : Prop :=
  ∀ s t : State, Inv Config.hw s → step s = .next t → Inv Config.hw t

/-- The state after reset has the invariant. -/
def Obligations.ResetHoldsTheInvariant : Prop :=
  Inv Config.hw State.reset
end

