-- ==== Sys2Proof/Laws/State.lean ====
section
/-! SUPPORT. One lemma per field per named update of the state, true by `rfl`, so that no later proof unfolds a
record update. -/

namespace Sys2Proof.Machine

/-! ### `State.setRoundConfig` -/

@[simp] theorem State.setRoundConfig_rounds (s : State) (x y : Byte) : (s.setRoundConfig x y).rounds = x := rfl
@[simp] theorem State.setRoundConfig_macRounds (s : State) (x y : Byte) : (s.setRoundConfig x y).macRounds = y := rfl
@[simp] theorem State.setRoundConfig_cfgv (s : State) (x y : Byte) : (s.setRoundConfig x y).cfgv = true := rfl
@[simp] theorem State.setRoundConfig_ks (s : State) (x y : Byte) : (s.setRoundConfig x y).ks = s.ks := rfl
@[simp] theorem State.setRoundConfig_dke (s : State) (x y : Byte) : (s.setRoundConfig x y).dke = s.dke := rfl
@[simp] theorem State.setRoundConfig_dkm (s : State) (x y : Byte) : (s.setRoundConfig x y).dkm = s.dkm := rfl
@[simp] theorem State.setRoundConfig_r (s : State) (x y : Byte) : (s.setRoundConfig x y).r = s.r := rfl
@[simp] theorem State.setRoundConfig_pos (s : State) (x y : Byte) : (s.setRoundConfig x y).pos = s.pos := rfl
@[simp] theorem State.setRoundConfig_rem (s : State) (x y : Byte) : (s.setRoundConfig x y).rem = s.rem := rfl
@[simp] theorem State.setRoundConfig_macst (s : State) (x y : Byte) : (s.setRoundConfig x y).macst = s.macst := rfl
@[simp] theorem State.setRoundConfig_dmem (s : State) (x y : Byte) : (s.setRoundConfig x y).dmem = s.dmem := rfl
@[simp] theorem State.setRoundConfig_events (s : State) (x y : Byte) : (s.setRoundConfig x y).events = s.events := rfl
@[simp] theorem State.setRoundConfig_response (s : State) (x y : Byte) : (s.setRoundConfig x y).response = s.response := rfl
@[simp] theorem State.setRoundConfig_resets (s : State) (x y : Byte) : (s.setRoundConfig x y).resets = s.resets := rfl

/-! ### `State.setKs` -/

@[simp] theorem State.setKs_rounds (s : State) (v : Sched) : (s.setKs v).rounds = s.rounds := rfl
@[simp] theorem State.setKs_macRounds (s : State) (v : Sched) : (s.setKs v).macRounds = s.macRounds := rfl
@[simp] theorem State.setKs_cfgv (s : State) (v : Sched) : (s.setKs v).cfgv = s.cfgv := rfl
@[simp] theorem State.setKs_ks (s : State) (v : Sched) : (s.setKs v).ks = v := rfl
@[simp] theorem State.setKs_dke (s : State) (v : Sched) : (s.setKs v).dke = s.dke := rfl
@[simp] theorem State.setKs_dkm (s : State) (v : Sched) : (s.setKs v).dkm = s.dkm := rfl
@[simp] theorem State.setKs_r (s : State) (v : Sched) : (s.setKs v).r = s.r := rfl
@[simp] theorem State.setKs_pos (s : State) (v : Sched) : (s.setKs v).pos = s.pos := rfl
@[simp] theorem State.setKs_rem (s : State) (v : Sched) : (s.setKs v).rem = s.rem := rfl
@[simp] theorem State.setKs_macst (s : State) (v : Sched) : (s.setKs v).macst = s.macst := rfl
@[simp] theorem State.setKs_dmem (s : State) (v : Sched) : (s.setKs v).dmem = s.dmem := rfl
@[simp] theorem State.setKs_events (s : State) (v : Sched) : (s.setKs v).events = s.events := rfl
@[simp] theorem State.setKs_response (s : State) (v : Sched) : (s.setKs v).response = s.response := rfl
@[simp] theorem State.setKs_resets (s : State) (v : Sched) : (s.setKs v).resets = s.resets := rfl

/-! ### `State.setDerived` -/

@[simp] theorem State.setDerived_rounds (s : State) (v : Key × Key) : (s.setDerived v).rounds = s.rounds := rfl
@[simp] theorem State.setDerived_macRounds (s : State) (v : Key × Key) : (s.setDerived v).macRounds = s.macRounds := rfl
@[simp] theorem State.setDerived_cfgv (s : State) (v : Key × Key) : (s.setDerived v).cfgv = s.cfgv := rfl
@[simp] theorem State.setDerived_ks (s : State) (v : Key × Key) : (s.setDerived v).ks = s.ks := rfl
@[simp] theorem State.setDerived_dke (s : State) (v : Key × Key) : (s.setDerived v).dke = v.1 := rfl
@[simp] theorem State.setDerived_dkm (s : State) (v : Key × Key) : (s.setDerived v).dkm = v.2 := rfl
@[simp] theorem State.setDerived_r (s : State) (v : Key × Key) : (s.setDerived v).r = s.r := rfl
@[simp] theorem State.setDerived_pos (s : State) (v : Key × Key) : (s.setDerived v).pos = s.pos := rfl
@[simp] theorem State.setDerived_rem (s : State) (v : Key × Key) : (s.setDerived v).rem = s.rem := rfl
@[simp] theorem State.setDerived_macst (s : State) (v : Key × Key) : (s.setDerived v).macst = s.macst := rfl
@[simp] theorem State.setDerived_dmem (s : State) (v : Key × Key) : (s.setDerived v).dmem = s.dmem := rfl
@[simp] theorem State.setDerived_events (s : State) (v : Key × Key) : (s.setDerived v).events = s.events := rfl
@[simp] theorem State.setDerived_response (s : State) (v : Key × Key) : (s.setDerived v).response = s.response := rfl
@[simp] theorem State.setDerived_resets (s : State) (v : Key × Key) : (s.setDerived v).resets = s.resets := rfl

/-! ### `State.setR` -/

@[simp] theorem State.setR_rounds (s : State) (v : Block) : (s.setR v).rounds = s.rounds := rfl
@[simp] theorem State.setR_macRounds (s : State) (v : Block) : (s.setR v).macRounds = s.macRounds := rfl
@[simp] theorem State.setR_cfgv (s : State) (v : Block) : (s.setR v).cfgv = s.cfgv := rfl
@[simp] theorem State.setR_ks (s : State) (v : Block) : (s.setR v).ks = s.ks := rfl
@[simp] theorem State.setR_dke (s : State) (v : Block) : (s.setR v).dke = s.dke := rfl
@[simp] theorem State.setR_dkm (s : State) (v : Block) : (s.setR v).dkm = s.dkm := rfl
@[simp] theorem State.setR_r (s : State) (v : Block) : (s.setR v).r = v := rfl
@[simp] theorem State.setR_pos (s : State) (v : Block) : (s.setR v).pos = s.pos := rfl
@[simp] theorem State.setR_rem (s : State) (v : Block) : (s.setR v).rem = s.rem := rfl
@[simp] theorem State.setR_macst (s : State) (v : Block) : (s.setR v).macst = s.macst := rfl
@[simp] theorem State.setR_dmem (s : State) (v : Block) : (s.setR v).dmem = s.dmem := rfl
@[simp] theorem State.setR_events (s : State) (v : Block) : (s.setR v).events = s.events := rfl
@[simp] theorem State.setR_response (s : State) (v : Block) : (s.setR v).response = s.response := rfl
@[simp] theorem State.setR_resets (s : State) (v : Block) : (s.setR v).resets = s.resets := rfl

/-! ### `State.setPos` -/

@[simp] theorem State.setPos_rounds (s : State) (v : Fin 8) : (s.setPos v).rounds = s.rounds := rfl
@[simp] theorem State.setPos_macRounds (s : State) (v : Fin 8) : (s.setPos v).macRounds = s.macRounds := rfl
@[simp] theorem State.setPos_cfgv (s : State) (v : Fin 8) : (s.setPos v).cfgv = s.cfgv := rfl
@[simp] theorem State.setPos_ks (s : State) (v : Fin 8) : (s.setPos v).ks = s.ks := rfl
@[simp] theorem State.setPos_dke (s : State) (v : Fin 8) : (s.setPos v).dke = s.dke := rfl
@[simp] theorem State.setPos_dkm (s : State) (v : Fin 8) : (s.setPos v).dkm = s.dkm := rfl
@[simp] theorem State.setPos_r (s : State) (v : Fin 8) : (s.setPos v).r = s.r := rfl
@[simp] theorem State.setPos_pos (s : State) (v : Fin 8) : (s.setPos v).pos = v := rfl
@[simp] theorem State.setPos_rem (s : State) (v : Fin 8) : (s.setPos v).rem = s.rem := rfl
@[simp] theorem State.setPos_macst (s : State) (v : Fin 8) : (s.setPos v).macst = s.macst := rfl
@[simp] theorem State.setPos_dmem (s : State) (v : Fin 8) : (s.setPos v).dmem = s.dmem := rfl
@[simp] theorem State.setPos_events (s : State) (v : Fin 8) : (s.setPos v).events = s.events := rfl
@[simp] theorem State.setPos_response (s : State) (v : Fin 8) : (s.setPos v).response = s.response := rfl
@[simp] theorem State.setPos_resets (s : State) (v : Fin 8) : (s.setPos v).resets = s.resets := rfl

/-! ### `State.setRem` -/

@[simp] theorem State.setRem_rounds (s : State) (v : Word) : (s.setRem v).rounds = s.rounds := rfl
@[simp] theorem State.setRem_macRounds (s : State) (v : Word) : (s.setRem v).macRounds = s.macRounds := rfl
@[simp] theorem State.setRem_cfgv (s : State) (v : Word) : (s.setRem v).cfgv = s.cfgv := rfl
@[simp] theorem State.setRem_ks (s : State) (v : Word) : (s.setRem v).ks = s.ks := rfl
@[simp] theorem State.setRem_dke (s : State) (v : Word) : (s.setRem v).dke = s.dke := rfl
@[simp] theorem State.setRem_dkm (s : State) (v : Word) : (s.setRem v).dkm = s.dkm := rfl
@[simp] theorem State.setRem_r (s : State) (v : Word) : (s.setRem v).r = s.r := rfl
@[simp] theorem State.setRem_pos (s : State) (v : Word) : (s.setRem v).pos = s.pos := rfl
@[simp] theorem State.setRem_rem (s : State) (v : Word) : (s.setRem v).rem = v := rfl
@[simp] theorem State.setRem_macst (s : State) (v : Word) : (s.setRem v).macst = s.macst := rfl
@[simp] theorem State.setRem_dmem (s : State) (v : Word) : (s.setRem v).dmem = s.dmem := rfl
@[simp] theorem State.setRem_events (s : State) (v : Word) : (s.setRem v).events = s.events := rfl
@[simp] theorem State.setRem_response (s : State) (v : Word) : (s.setRem v).response = s.response := rfl
@[simp] theorem State.setRem_resets (s : State) (v : Word) : (s.setRem v).resets = s.resets := rfl

/-! ### `State.setMacst` -/

@[simp] theorem State.setMacst_rounds (s : State) (v : MacPhase) : (s.setMacst v).rounds = s.rounds := rfl
@[simp] theorem State.setMacst_macRounds (s : State) (v : MacPhase) : (s.setMacst v).macRounds = s.macRounds := rfl
@[simp] theorem State.setMacst_cfgv (s : State) (v : MacPhase) : (s.setMacst v).cfgv = s.cfgv := rfl
@[simp] theorem State.setMacst_ks (s : State) (v : MacPhase) : (s.setMacst v).ks = s.ks := rfl
@[simp] theorem State.setMacst_dke (s : State) (v : MacPhase) : (s.setMacst v).dke = s.dke := rfl
@[simp] theorem State.setMacst_dkm (s : State) (v : MacPhase) : (s.setMacst v).dkm = s.dkm := rfl
@[simp] theorem State.setMacst_r (s : State) (v : MacPhase) : (s.setMacst v).r = s.r := rfl
@[simp] theorem State.setMacst_pos (s : State) (v : MacPhase) : (s.setMacst v).pos = s.pos := rfl
@[simp] theorem State.setMacst_rem (s : State) (v : MacPhase) : (s.setMacst v).rem = s.rem := rfl
@[simp] theorem State.setMacst_macst (s : State) (v : MacPhase) : (s.setMacst v).macst = v := rfl
@[simp] theorem State.setMacst_dmem (s : State) (v : MacPhase) : (s.setMacst v).dmem = s.dmem := rfl
@[simp] theorem State.setMacst_events (s : State) (v : MacPhase) : (s.setMacst v).events = s.events := rfl
@[simp] theorem State.setMacst_response (s : State) (v : MacPhase) : (s.setMacst v).response = s.response := rfl
@[simp] theorem State.setMacst_resets (s : State) (v : MacPhase) : (s.setMacst v).resets = s.resets := rfl

/-! ### `State.setDmem` -/

@[simp] theorem State.setDmem_rounds (s : State) (v : Memory) : (s.setDmem v).rounds = s.rounds := rfl
@[simp] theorem State.setDmem_macRounds (s : State) (v : Memory) : (s.setDmem v).macRounds = s.macRounds := rfl
@[simp] theorem State.setDmem_cfgv (s : State) (v : Memory) : (s.setDmem v).cfgv = s.cfgv := rfl
@[simp] theorem State.setDmem_ks (s : State) (v : Memory) : (s.setDmem v).ks = s.ks := rfl
@[simp] theorem State.setDmem_dke (s : State) (v : Memory) : (s.setDmem v).dke = s.dke := rfl
@[simp] theorem State.setDmem_dkm (s : State) (v : Memory) : (s.setDmem v).dkm = s.dkm := rfl
@[simp] theorem State.setDmem_r (s : State) (v : Memory) : (s.setDmem v).r = s.r := rfl
@[simp] theorem State.setDmem_pos (s : State) (v : Memory) : (s.setDmem v).pos = s.pos := rfl
@[simp] theorem State.setDmem_rem (s : State) (v : Memory) : (s.setDmem v).rem = s.rem := rfl
@[simp] theorem State.setDmem_macst (s : State) (v : Memory) : (s.setDmem v).macst = s.macst := rfl
@[simp] theorem State.setDmem_dmem (s : State) (v : Memory) : (s.setDmem v).dmem = v := rfl
@[simp] theorem State.setDmem_events (s : State) (v : Memory) : (s.setDmem v).events = s.events := rfl
@[simp] theorem State.setDmem_response (s : State) (v : Memory) : (s.setDmem v).response = s.response := rfl
@[simp] theorem State.setDmem_resets (s : State) (v : Memory) : (s.setDmem v).resets = s.resets := rfl

/-! ### `State.setEvents` -/

@[simp] theorem State.setEvents_rounds (s : State) (v : List HostEvent) : (s.setEvents v).rounds = s.rounds := rfl
@[simp] theorem State.setEvents_macRounds (s : State) (v : List HostEvent) : (s.setEvents v).macRounds = s.macRounds := rfl
@[simp] theorem State.setEvents_cfgv (s : State) (v : List HostEvent) : (s.setEvents v).cfgv = s.cfgv := rfl
@[simp] theorem State.setEvents_ks (s : State) (v : List HostEvent) : (s.setEvents v).ks = s.ks := rfl
@[simp] theorem State.setEvents_dke (s : State) (v : List HostEvent) : (s.setEvents v).dke = s.dke := rfl
@[simp] theorem State.setEvents_dkm (s : State) (v : List HostEvent) : (s.setEvents v).dkm = s.dkm := rfl
@[simp] theorem State.setEvents_r (s : State) (v : List HostEvent) : (s.setEvents v).r = s.r := rfl
@[simp] theorem State.setEvents_pos (s : State) (v : List HostEvent) : (s.setEvents v).pos = s.pos := rfl
@[simp] theorem State.setEvents_rem (s : State) (v : List HostEvent) : (s.setEvents v).rem = s.rem := rfl
@[simp] theorem State.setEvents_macst (s : State) (v : List HostEvent) : (s.setEvents v).macst = s.macst := rfl
@[simp] theorem State.setEvents_dmem (s : State) (v : List HostEvent) : (s.setEvents v).dmem = s.dmem := rfl
@[simp] theorem State.setEvents_events (s : State) (v : List HostEvent) : (s.setEvents v).events = v := rfl
@[simp] theorem State.setEvents_response (s : State) (v : List HostEvent) : (s.setEvents v).response = s.response := rfl
@[simp] theorem State.setEvents_resets (s : State) (v : List HostEvent) : (s.setEvents v).resets = s.resets := rfl

/-! ### `respondOk` -/

@[simp] theorem respondOk_rounds (s : State) (v : Bool) (tag : Block) : (respondOk v tag s).rounds = s.rounds := rfl
@[simp] theorem respondOk_macRounds (s : State) (v : Bool) (tag : Block) : (respondOk v tag s).macRounds = s.macRounds := rfl
@[simp] theorem respondOk_cfgv (s : State) (v : Bool) (tag : Block) : (respondOk v tag s).cfgv = s.cfgv := rfl
@[simp] theorem respondOk_ks (s : State) (v : Bool) (tag : Block) : (respondOk v tag s).ks = s.ks := rfl
@[simp] theorem respondOk_dke (s : State) (v : Bool) (tag : Block) : (respondOk v tag s).dke = s.dke := rfl
@[simp] theorem respondOk_dkm (s : State) (v : Bool) (tag : Block) : (respondOk v tag s).dkm = s.dkm := rfl
@[simp] theorem respondOk_r (s : State) (v : Bool) (tag : Block) : (respondOk v tag s).r = s.r := rfl
@[simp] theorem respondOk_pos (s : State) (v : Bool) (tag : Block) : (respondOk v tag s).pos = s.pos := rfl
@[simp] theorem respondOk_rem (s : State) (v : Bool) (tag : Block) : (respondOk v tag s).rem = s.rem := rfl
@[simp] theorem respondOk_macst (s : State) (v : Bool) (tag : Block) : (respondOk v tag s).macst = s.macst := rfl
@[simp] theorem respondOk_dmem (s : State) (v : Bool) (tag : Block) : (respondOk v tag s).dmem = s.dmem := rfl
@[simp] theorem respondOk_events (s : State) (v : Bool) (tag : Block) : (respondOk v tag s).events = s.events := rfl
@[simp] theorem respondOk_response (s : State) (v : Bool) (tag : Block) : (respondOk v tag s).response = some (Response.okWith v tag) := rfl
@[simp] theorem respondOk_resets (s : State) (v : Bool) (tag : Block) : (respondOk v tag s).resets = s.resets := rfl

/-! ### `raise` -/

@[simp] theorem raise_rounds (s : State) (e : Cause) : (raise e s).rounds = s.rounds := rfl
@[simp] theorem raise_macRounds (s : State) (e : Cause) : (raise e s).macRounds = s.macRounds := rfl
@[simp] theorem raise_cfgv (s : State) (e : Cause) : (raise e s).cfgv = s.cfgv := rfl
@[simp] theorem raise_ks (s : State) (e : Cause) : (raise e s).ks = s.ks := rfl
@[simp] theorem raise_dke (s : State) (e : Cause) : (raise e s).dke = s.dke := rfl
@[simp] theorem raise_dkm (s : State) (e : Cause) : (raise e s).dkm = s.dkm := rfl
@[simp] theorem raise_r (s : State) (e : Cause) : (raise e s).r = s.r := rfl
@[simp] theorem raise_pos (s : State) (e : Cause) : (raise e s).pos = s.pos := rfl
@[simp] theorem raise_rem (s : State) (e : Cause) : (raise e s).rem = s.rem := rfl
@[simp] theorem raise_macst (s : State) (e : Cause) : (raise e s).macst = s.macst := rfl
@[simp] theorem raise_dmem (s : State) (e : Cause) : (raise e s).dmem = s.dmem := rfl
@[simp] theorem raise_events (s : State) (e : Cause) : (raise e s).events = s.events := rfl
@[simp] theorem raise_response (s : State) (e : Cause) : (raise e s).response = some (Response.ofCause e) := rfl
@[simp] theorem raise_resets (s : State) (e : Cause) : (raise e s).resets = s.resets := rfl

/-! ### Responses -/

@[simp] theorem Response.okWith_status (v : Bool) (tag : Block) : (Response.okWith v tag).status = .ok := rfl
@[simp] theorem Response.okWith_bool (v : Bool) (tag : Block) : (Response.okWith v tag).bool = v := rfl
@[simp] theorem Response.okWith_tag (v : Bool) (tag : Block) : (Response.okWith v tag).tag = tag := rfl
@[simp] theorem Response.ofCause_status (e : Cause) : (Response.ofCause e).status = .error e := rfl
@[simp] theorem Response.ofCause_bool (e : Cause) : (Response.ofCause e).bool = false := rfl
@[simp] theorem Response.ofCause_tag (e : Cause) : (Response.ofCause e).tag = zeroBlock := rfl

end Sys2Proof.Machine
end

