-- ==== Sys2Proof/Laws/Command.lean ====
section
/-! SUPPORT. What the prologue and `command` can do: a command either raises the first cause of R207 or runs its
body, and nothing else. -/

namespace Sys2Proof.Machine

variable {c : Config} {i : Instr} {s : State}

theorem command_of_none {body : State → State} (h : prologue c i s = none) :
    command c i body s = body s := by simp [command, h]

theorem command_of_some {body : State → State} {e : Cause} (h : prologue c i s = some e) :
    command c i body s = raise e s := by simp [command, h]

/-- Every command is its prologue followed by its body (R108, R201). -/
theorem runWith_eq (c : Config) (i : Instr) (s : State) :
    runWith c i s = match prologue c i s with
      | some e => raise e s
      | none => bodyOf c i s := by
  cases i <;> rfl

theorem runWith_of_none (h : prologue c i s = none) : runWith c i s = bodyOf c i s := by
  rw [runWith_eq, h]

theorem runWith_of_some {e : Cause} (h : prologue c i s = some e) : runWith c i s = raise e s := by
  rw [runWith_eq, h]

/-- Inversion of a command over any configuration. -/
theorem runWith_cases (c : Config) (i : Instr) (s : State) :
    (∃ e, prologue c i s = some e ∧ runWith c i s = raise e s) ∨
      (prologue c i s = none ∧ runWith c i s = bodyOf c i s) := by
  cases h : prologue c i s with
  | none => exact .inr ⟨rfl, runWith_of_none h⟩
  | some e => exact .inl ⟨e, rfl, runWith_of_some h⟩

/-- Every body ends in an OK response. -/
theorem bodyOf_response (c : Config) (i : Instr) (s : State) :
    ∃ v tag, (bodyOf c i s).response = some (Response.okWith v tag) := by
  cases i <;> exact ⟨_, _, rfl⟩

/-- The prologue lets a command pass exactly when it is `configure` or all four checks hold (R108). -/
theorem prologue_eq_none : prologue c i s = none ↔
    isConfigure i = true ∨ (s.cfgv = true ∧ allowedIn i s.macst = true ∧ lengthOk i = true ∧
      bufferInRange c i = true) := by
  unfold prologue
  cases isConfigure i <;> cases s.cfgv <;> cases allowedIn i s.macst <;> cases lengthOk i <;>
    cases bufferInRange c i <;> simp

@[simp] theorem inRange_eq_true {a n : Word} : inRange c a n = true ↔ BufferIn c a n := by
  simp [inRange, BufferIn]

/-- In a ready state a session-free command passes the phase check. -/
theorem Ready.not_open (h : Ready s) : s.macst.sessionOpen = false := by
  rcases h.2 with h | h <;> simp [h, MacPhase.sessionOpen]

theorem SessionOpen.is_open (h : SessionOpen s) : s.macst.sessionOpen = true := by
  rcases h.2 with h | h <;> simp [h, MacPhase.sessionOpen]

end Sys2Proof.Machine
end

