-- ==== Sys2Proof/Laws/Decode.lean ====
section
/-! SUPPORT. The small lemmas of the packet layout: the little-endian words, the fields of a packet and back, and
when a row of the opcode map selects a header word. -/

namespace Sys2Proof

/-- On packets, `decode` is `decodePacket`. -/
theorem decode_toList (p : Packet) : decode p.toList = decodePacket p := by
  have : p.toList.length = 36 := by simp
  rw [decode, dif_pos this]
  congr 1

/-! ### Little-endian words -/

theorem le32_leByte (w : Word) :
    le32 (leByte w 0) (leByte w 1) (leByte w 2) (leByte w 3) = w := by
  apply BitVec.eq_of_getLsbD_eq
  intro i hi
  simp only [le32, leByte, BitVec.getLsbD_append, BitVec.getLsbD_extractLsb']
  by_cases h1 : i < 8
  · simp [h1]
  · by_cases h2 : i < 16
    · have : i - 8 < 8 := by omega
      simp [h1, this]; congr 1; omega
    · by_cases h3 : i < 24
      · have e1 : ¬ i - 8 < 8 := by omega
        have e2 : i - 8 - 8 < 8 := by omega
        simp [h1, e1, e2]; congr 1; omega
      · have e1 : ¬ i - 8 < 8 := by omega
        have e2 : ¬ i - 8 - 8 < 8 := by omega
        have e3 : i - 8 - 8 - 8 < 8 := by omega
        simp [h1, e1, e2, e3]; congr 1; omega

theorem leByte_le32 (a b c d : Byte) :
    leByte (le32 a b c d) 0 = a ∧ leByte (le32 a b c d) 1 = b ∧
      leByte (le32 a b c d) 2 = c ∧ leByte (le32 a b c d) 3 = d := by
  refine ⟨?_, ?_, ?_, ?_⟩ <;>
  · apply BitVec.eq_of_getLsbD_eq
    intro i hi
    simp only [le32, leByte, BitVec.getLsbD_append, BitVec.getLsbD_extractLsb']
    have : ¬ 8 + i < 8 := by omega
    have e2 : ¬ 16 + i < 8 := by omega
    have e3 : ¬ 16 + i - 8 < 8 := by omega
    have e4 : ¬ 24 + i < 8 := by omega
    have e5 : ¬ 24 + i - 8 < 8 := by omega
    have e6 : ¬ 24 + i - 8 - 8 < 8 := by omega
    have f1 : 8 + i - 8 = i := by omega
    have f2 : 16 + i - 8 - 8 = i := by omega
    have f3 : 24 + i - 8 - 8 - 8 = i := by omega
    simp [*]

theorem le32_eq_iff {a b c d : Byte} {w : Word} :
    le32 a b c d = w ↔ a = leByte w 0 ∧ b = leByte w 1 ∧ c = leByte w 2 ∧ d = leByte w 3 := by
  constructor
  · rintro rfl
    have := leByte_le32 a b c d
    exact ⟨this.1.symm, this.2.1.symm, this.2.2.1.symm, this.2.2.2.symm⟩
  · rintro ⟨rfl, rfl, rfl, rfl⟩
    exact le32_leByte w

theorem le32_and (a b c d a' b' c' d' : Byte) :
    le32 a b c d &&& le32 a' b' c' d' = le32 (a &&& a') (b &&& b') (c &&& c') (d &&& d') := by
  apply BitVec.eq_of_getLsbD_eq
  intro i hi
  simp only [le32, BitVec.getLsbD_append, BitVec.getLsbD_and]
  split_ifs <;> rfl

/-! ### The fields of a packet -/

/-- Laying fields out and assembling them again gives the fields (R71). -/
theorem assemble_packet (f : Fields) : assemble f.packet = f := by
  obtain ⟨op, rnd, mrnd, rsv, addr, len, key, aux⟩ := f
  simp only [assemble, Fields.packet, Vector.getElem_ofFn, Fields.byteAt, Fields.mk.injEq]
  refine ⟨rfl, rfl, rfl, rfl, ?_, ?_, ?_, ?_⟩
  · simpa using le32_leByte addr
  · simpa using le32_leByte len
  · ext i hi
    have h2 : 12 + i ≠ 1 := by omega
    have h3 : 12 + i ≠ 2 := by omega
    have h4 : 12 + i ≠ 3 := by omega
    have h5 : ¬ 12 + i < 8 := by omega
    have h7 : 12 + i < 28 := by omega
    simp [h2, h3, h4, h5, h7]
  · ext i hi
    have h2 : 28 + i ≠ 1 := by omega
    have h3 : 28 + i ≠ 2 := by omega
    have h4 : 28 + i ≠ 3 := by omega
    have h5 : ¬ 28 + i < 8 := by omega
    have h6 : ¬ 28 + i < 12 := by omega
    have h8 : 28 + i < 36 := by omega
    simp [h2, h3, h4, h5, h6, h8]

/-- Assembling a packet's fields and laying them out again gives the packet (R71). -/
theorem packet_assemble (p : Packet) : (assemble p).packet = p := by
  have key : ∀ i : Fin 36, (assemble p).byteAt i.val = p[i.val] := by
    intro i
    fin_cases i <;> simp [Fields.byteAt, assemble, leByte_le32]
  ext i hi
  simp [Fields.packet, key ⟨i, hi⟩]

/-! ### Selecting a row -/

/-- A row with a full mask selects exactly its own header word (R75). -/
theorem Fields.header_full (f : Fields) (w : Word) :
    (f.header &&& 0xFFFFFFFF == w) = true ↔
      f.op = leByte w 0 ∧ f.rnd = leByte w 1 ∧ f.mrnd = leByte w 2 ∧ f.rsv = leByte w 3 := by
  have : f.header &&& 0xFFFFFFFF = f.header := BitVec.and_allOnes
  rw [this, beq_iff_eq, Fields.header, le32_eq_iff]

/-- The row of `configure` selects every header word with OP 0x01 and RSV 0 (R75). -/
theorem Fields.header_configure (f : Fields) :
    (f.header &&& 0xFF0000FF == 0x00000001) = true ↔ f.op = 0x01 ∧ f.rsv = 0 := by
  have h : (0xFF0000FF : Word) = le32 0xFF 0 0 0xFF := by decide
  have h1 : f.op &&& 0xFF = f.op := BitVec.and_allOnes
  have h2 : f.rsv &&& 0xFF = f.rsv := BitVec.and_allOnes
  have b0 : leByte 0x00000001 0 = 1 := by decide
  have b1 : leByte 0x00000001 1 = 0 := by decide
  have b2 : leByte 0x00000001 2 = 0 := by decide
  have b3 : leByte 0x00000001 3 = 0 := by decide
  rw [Fields.header, h, le32_and, h1, h2, beq_iff_eq, le32_eq_iff, b0, b1, b2, b3]
  simp

end Sys2Proof
end

