-- ==== Sys2Proof/Laws/Memory.lean ====
section
/-! SUPPORT. What the operations over DMEM do: read after write, what a write leaves, and the canonical form. -/

namespace Sys2Proof.Machine

variable {c : Config}

/-! ### Reading a canonical memory -/

@[simp] theorem Memory.read_nil (a : Nat) : Memory.read c [] a = c.powerUp a := rfl

theorem Memory.read_eq_powerUp {m : Memory} {a : Nat} (h : ∀ x ∈ m, x.1 ≠ a) :
    Memory.read c m a = c.powerUp a := by
  induction m with
  | nil => rfl
  | cons x m ih =>
    have hx : ¬ a = x.1 := fun e => h x (by simp) e.symm
    simpa [Memory.read, hx] using ih fun y hy => h y (by simp [hy])

theorem Memory.wf_nil : Memory.wf c [] := by simp [Memory.wf]

theorem Memory.wf.tail {x : Host.Cell} {m : Memory} (h : Memory.wf c (x :: m)) : Memory.wf c m :=
  ⟨(List.pairwise_cons.1 h.1).2, fun y hy => h.2 y (by simp [hy])⟩

theorem Memory.wf.head_lt {x : Host.Cell} {m : Memory} (h : Memory.wf c (x :: m)) :
    ∀ y ∈ m, x.1 < y.1 := (List.pairwise_cons.1 h.1).1

theorem Memory.read_of_lt_head {m : Memory} {a : Nat} (h : ∀ x ∈ m, a < x.1) :
    Memory.read c m a = c.powerUp a :=
  Memory.read_eq_powerUp fun x hx => Nat.ne_of_gt (h x hx)

/-! ### Read after write -/

theorem Memory.read_write_same {m : Memory} (h : Memory.wf c m) (a : Nat) (v : Byte) :
    Memory.read c (Memory.write c m a v) a = v := by
  induction m with
  | nil => by_cases hv : v = c.powerUp a <;> simp [Memory.write, Memory.read, hv]
  | cons x m ih =>
    obtain ⟨k, b⟩ := x
    have hlt : ∀ y ∈ m, k < y.1 := h.head_lt
    simp only [Memory.write]
    by_cases h1 : a < k
    · by_cases hv : v = c.powerUp a
      · have : Memory.read c ((k, b) :: m) a = c.powerUp a := by
          refine Memory.read_of_lt_head fun y hy => ?_
          rcases List.mem_cons.1 hy with rfl | hy
          · exact h1
          · exact Nat.lt_trans h1 (hlt y hy)
        simp [h1, hv, this]
      · simp [h1, hv, Memory.read]
    · by_cases h2 : a = k
      · subst h2
        by_cases hv : v = c.powerUp a
        · simp [hv, Memory.read_of_lt_head hlt]
        · simp [hv, Memory.read]
      · simp [h1, h2, Memory.read, ih h.tail]

theorem Memory.read_write_ne (m : Memory) {a x : Nat} (v : Byte) (h : x ≠ a) :
    Memory.read c (Memory.write c m a v) x = Memory.read c m x := by
  induction m with
  | nil => by_cases hv : v = c.powerUp a <;> simp [Memory.write, Memory.read, hv, h]
  | cons y m ih =>
    obtain ⟨k, b⟩ := y
    simp only [Memory.write]
    split_ifs with h1 h2 h3 h4
    · rfl
    · simp [Memory.read, h]
    · subst h3; simp [Memory.read, h]
    · subst h3; simp [Memory.read, h]
    · simp [Memory.read, ih]

/-! ### The canonical form is kept -/

theorem Memory.mem_write {m : Memory} {a : Nat} {v : Byte} {x : Host.Cell}
    (h : x ∈ Memory.write c m a v) : x ∈ m ∨ (x = (a, v) ∧ v ≠ c.powerUp a) := by
  induction m with
  | nil =>
    by_cases hv : v = c.powerUp a <;> simp [Memory.write, hv] at h
    exact .inr ⟨h, hv⟩
  | cons y m ih =>
    obtain ⟨k, b⟩ := y
    simp only [Memory.write] at h
    split_ifs at h with h1 h2 h3 h4
    · exact .inl h
    · rcases List.mem_cons.1 h with rfl | h
      · exact .inr ⟨rfl, h2⟩
      · exact .inl h
    · exact .inl (by simp [h])
    · rcases List.mem_cons.1 h with rfl | h
      · exact .inr ⟨rfl, h4⟩
      · exact .inl (by simp [h])
    · rcases List.mem_cons.1 h with rfl | h
      · exact .inl (by simp)
      · rcases ih h with h | h
        · exact .inl (by simp [h])
        · exact .inr h

theorem Memory.wf_write {m : Memory} (h : Memory.wf c m) {a : Nat} (v : Byte)
    (ha : a < c.dmemSize) : Memory.wf c (Memory.write c m a v) := by
  refine ⟨?_, fun x hx => ?_⟩
  · induction m with
    | nil => by_cases hv : v = c.powerUp a <;> simp [Memory.write, hv]
    | cons y m ih =>
      obtain ⟨k, b⟩ := y
      have hlt : ∀ y ∈ m, k < y.1 := h.head_lt
      simp only [Memory.write]
      split_ifs with h1 h2 h3 h4
      · exact h.1
      · refine List.pairwise_cons.2 ⟨fun y hy => ?_, h.1⟩
        rcases List.mem_cons.1 hy with rfl | hy
        · exact h1
        · exact Nat.lt_trans h1 (hlt y hy)
      · exact h.tail.1
      · exact List.pairwise_cons.2 ⟨fun y hy => h3 ▸ hlt y hy, h.tail.1⟩
      · refine List.pairwise_cons.2 ⟨fun y hy => ?_, ih h.tail⟩
        rcases Memory.mem_write hy with hy | ⟨rfl, -⟩
        · exact hlt y hy
        · show k < a
          omega
  · rcases Memory.mem_write hx with hx | ⟨rfl, hv⟩
    · exact h.2 x hx
    · exact ⟨ha, hv⟩

/-- Two canonical memories that read alike everywhere are the same list. -/
theorem Memory.wf_ext {m m' : Memory} (h : Memory.wf c m) (h' : Memory.wf c m')
    (hr : ∀ a, Memory.read c m a = Memory.read c m' a) : m = m' := by
  induction m generalizing m' with
  | nil =>
    cases m' with
    | nil => rfl
    | cons y m' =>
      have := hr y.1
      simp [Memory.read] at this
      exact absurd this.symm (h'.2 y (by simp)).2
  | cons x m ih =>
    cases m' with
    | nil =>
      have := hr x.1
      simp [Memory.read] at this
      exact absurd this (h.2 x (by simp)).2
    | cons y m' =>
      obtain ⟨k, b⟩ := x
      obtain ⟨k', b'⟩ := y
      have hkk : k = k' := by
        by_contra hne
        rcases Nat.lt_or_gt_of_ne hne with hlt | hlt
        · have h2 : Memory.read c ((k', b') :: m') k = c.powerUp k :=
            Memory.read_of_lt_head fun z hz => by
              rcases List.mem_cons.1 hz with rfl | hz
              · exact hlt
              · exact Nat.lt_trans hlt (h'.head_lt z hz)
          have h1 := hr k
          rw [h2] at h1
          simp [Memory.read] at h1
          exact (h.2 (k, b) (by simp)).2 h1
        · have h2 : Memory.read c ((k, b) :: m) k' = c.powerUp k' :=
            Memory.read_of_lt_head fun z hz => by
              rcases List.mem_cons.1 hz with rfl | hz
              · exact hlt
              · exact Nat.lt_trans hlt (h.head_lt z hz)
          have h1 := hr k'
          rw [h2] at h1
          simp [Memory.read] at h1
          exact (h'.2 (k', b') (by simp)).2 h1.symm
      subst hkk
      have hb : b = b' := by simpa [Memory.read] using hr k
      subst hb
      congr 1
      refine ih h.tail h'.tail fun a => ?_
      by_cases ha : a = k
      · subst ha
        rw [Memory.read_of_lt_head h.head_lt, Memory.read_of_lt_head h'.head_lt]
      · simpa [Memory.read, ha] using hr a

/-! ### Several bytes -/

@[simp] theorem Memory.readBytes_length (m : Memory) (a n : Nat) :
    (Memory.readBytes c m a n).length = n := by
  induction n generalizing a with
  | zero => rfl
  | succ n ih => simp [Memory.readBytes, ih]

theorem Memory.readBytes_getElem (m : Memory) (a n i : Nat)
    (h : i < (Memory.readBytes c m a n).length) :
    (Memory.readBytes c m a n)[i] = Memory.read c m (a + i) := by
  induction n generalizing a i with
  | zero => simp [Memory.readBytes] at h
  | succ n ih =>
    cases i with
    | zero => simp [Memory.readBytes]
    | succ i =>
      have hi : i < (Memory.readBytes c m (a + 1) n).length := by
        simp [Memory.readBytes] at h ⊢; exact h
      have := ih (a + 1) i hi
      simp only [Memory.readBytes, List.getElem_cons_succ, this]
      congr 1; omega

@[simp] theorem Memory.readBlock_getElem (m : Memory) (a i : Nat) (h : i < 8) :
    (Memory.readBlock c m a)[i] = Memory.read c m (a + i) := by simp [Memory.readBlock]

theorem Memory.read_writeBytes_outside (m : Memory) (a x : Nat) (bs : List Byte)
    (h : x < a ∨ a + bs.length ≤ x) :
    Memory.read c (Memory.writeBytes c m a bs) x = Memory.read c m x := by
  induction bs generalizing a m with
  | nil => rfl
  | cons b bs ih =>
    simp only [List.length_cons] at h
    simp only [Memory.writeBytes]
    rw [ih _ _ (by omega), Memory.read_write_ne _ _ (by omega)]

theorem Memory.wf_writeBytes {m : Memory} (h : Memory.wf c m) (a : Nat) (bs : List Byte)
    (ha : bs = [] ∨ a + bs.length ≤ c.dmemSize) : Memory.wf c (Memory.writeBytes c m a bs) := by
  induction bs generalizing a m with
  | nil => exact h
  | cons b bs ih =>
    have ha' : a + (bs.length + 1) ≤ c.dmemSize := by simpa using ha
    exact ih (Memory.wf_write h b (by omega)) (a + 1) (.inr (by omega))

theorem Memory.read_writeBytes_inside {m : Memory} (h : Memory.wf c m) (a : Nat) (bs : List Byte)
    (ha : a + bs.length ≤ c.dmemSize) (i : Nat) (hi : i < bs.length) :
    Memory.read c (Memory.writeBytes c m a bs) (a + i) = bs[i] := by
  induction bs generalizing a m i with
  | nil => simp at hi
  | cons b bs ih =>
    have ha' : a + (bs.length + 1) ≤ c.dmemSize := by simpa using ha
    have hw := Memory.wf_write h b (show a < c.dmemSize by omega)
    simp only [Memory.writeBytes]
    cases i with
    | zero =>
      rw [Memory.read_writeBytes_outside _ _ _ _ (by omega)]
      simpa using Memory.read_write_same h a b
    | succ i =>
      have hi' : i < bs.length := by simpa using hi
      have := ih hw (a + 1) (by omega) i hi'
      rw [show a + (i + 1) = a + 1 + i by omega, this]
      simp

end Sys2Proof.Machine
end

