-- ==== Sys2Proof/Laws/Engines.lean ====
section
/-! SUPPORT. What the ECB loop and the feedback loop can change, and that the feedback loop always runs to
REM = 0. -/

namespace Sys2Proof.Machine

variable {c : Config} {ks : Sched} {mode : Mode} {dir : CipherDir} {discard : Bool}

/-! ### EcbRun -/

/-- What the loop does, whatever its counters start from: DMEM as from fresh counters, and one iteration and
one `permute` call a block. -/
theorem ecbLoop_eq (d : Direction) (k : Nat) (e : EcbEngine) :
    ecbLoop c ks d k e =
      ⟨e.ptr + 8 * k, ecbRun c ks d k e.ptr e.dmem, e.iterations + k, e.permutes + k⟩ := by
  induction k generalizing e with
  | zero => rfl
  | succ k ih =>
    have h : ecbRun c ks d (k + 1) e.ptr e.dmem =
        ecbRun c ks d k (ecbBlock c ks d e).ptr (ecbBlock c ks d e).dmem := by
      rw [ecbRun, ecbEngine, ecbLoop, ih]
      rfl
    rw [ecbLoop, ih, h, EcbEngine.mk.injEq]
    simp only [ecbBlock, true_and]
    omega

@[simp] theorem ecbRun_zero (d : Direction) (a : Nat) (m : Memory) : ecbRun c ks d 0 a m = m := rfl

theorem ecbRun_succ (d : Direction) (k a : Nat) (m : Memory) :
    ecbRun c ks d (k + 1) a m = ecbRun c ks d k (a + 8)
      (Memory.writeBytes c m a (c.permute ks d (Memory.readBlock c m a)).toList) := by
  rw [ecbRun, ecbEngine, ecbLoop, ecbLoop_eq]
  rfl

theorem ecbRun_read_outside (d : Direction) (k a : Nat) (m : Memory) {x : Nat}
    (h : x < a ∨ a + 8 * k ≤ x) :
    Memory.read c (ecbRun c ks d k a m) x = Memory.read c m x := by
  induction k generalizing a m with
  | zero => rfl
  | succ k ih =>
    rw [ecbRun_succ, ih _ _ (by omega), Memory.read_writeBytes_outside _ _ _ _ (by simp; omega)]

theorem ecbRun_wf (d : Direction) (k a : Nat) {m : Memory} (h : Memory.wf c m)
    (ha : k = 0 ∨ a + 8 * k ≤ c.dmemSize) : Memory.wf c (ecbRun c ks d k a m) := by
  induction k generalizing a m with
  | zero => exact h
  | succ k ih =>
    have ha' : a + 8 * (k + 1) ≤ c.dmemSize := by simpa using ha
    rw [ecbRun_succ]
    exact ih _ (Memory.wf_writeBytes h _ _ (.inr (by simp; omega))) (.inr (by omega))

/-! ### One chunk -/

theorem chunkLength_le_pos (e : Engine) : chunkLength e ≤ 8 - e.pos.val := Nat.min_le_left _ _

theorem chunkLength_le_rem (e : Engine) : chunkLength e ≤ e.rem.toNat := Nat.min_le_right _ _

theorem chunkLength_pos {e : Engine} (h : e.rem ≠ 0) : 0 < chunkLength e := by
  have h1 : e.rem.toNat ≠ 0 := fun h' => h (BitVec.eq_of_toNat_eq (by simpa using h'))
  have h2 := e.pos.isLt
  simp only [chunkLength]
  omega

/-- The output chunk is as long as the chunk: "the XOR step is chunk-length-bounded" (R130). -/
theorem xorBytes_length (xs ys : List Byte) : (xorBytes xs ys).length = min xs.length ys.length := by
  simp [xorBytes]

@[simp] theorem feedbackChunk_rem (e : Engine) :
    (feedbackChunk c ks mode dir discard e).rem.toNat = e.rem.toNat - chunkLength e := by
  have h := chunkLength_le_rem e
  have h2 := e.rem.isLt
  simp only [feedbackChunk, BitVec.toNat_sub, BitVec.toNat_ofNat]
  omega

@[simp] theorem feedbackChunk_ptr (e : Engine) :
    (feedbackChunk c ks mode dir discard e).ptr = e.ptr + chunkLength e := rfl

/-- A chunk writes no byte outside itself. -/
theorem feedbackChunk_read_outside (e : Engine) {x : Nat}
    (h : x < e.ptr ∨ e.ptr + chunkLength e ≤ x) :
    Memory.read c (feedbackChunk c ks mode dir discard e).dmem x = Memory.read c e.dmem x := by
  cases discard
  · simp only [feedbackChunk, Bool.false_eq_true, if_false]
    refine Memory.read_writeBytes_outside _ _ _ _ ?_
    simp only [xorBytes_length, Memory.readBytes_length]
    omega
  · rfl

theorem feedbackChunk_wf {e : Engine} (h : Memory.wf c e.dmem)
    (ha : e.ptr + chunkLength e ≤ c.dmemSize) :
    Memory.wf c (feedbackChunk c ks mode dir discard e).dmem := by
  cases discard
  · simp only [feedbackChunk, Bool.false_eq_true, if_false]
    refine Memory.wf_writeBytes h _ _ (.inr ?_)
    simp only [xorBytes_length, Memory.readBytes_length]
    omega
  · exact h

@[simp] theorem feedbackChunk_dmem_discard (e : Engine) :
    (feedbackChunk c ks mode dir true e).dmem = e.dmem := rfl

/-! ### The loop -/

/-- "The loop ends exactly when REM = 0" (R131). -/
theorem feedbackLoop_rem (fuel : Nat) (e : Engine) (h : e.rem.toNat ≤ fuel) :
    (feedbackLoop c ks mode dir discard fuel e).rem = 0 := by
  induction fuel generalizing e with
  | zero => exact BitVec.eq_of_toNat_eq (by simpa [feedbackLoop] using h)
  | succ fuel ih =>
    simp only [feedbackLoop]
    split_ifs with h0
    · exact h0
    · have := chunkLength_pos h0
      exact ih _ (by rw [feedbackChunk_rem]; omega)

theorem feedbackLoop_read_outside (fuel : Nat) (e : Engine) {x : Nat}
    (h : x < e.ptr ∨ e.ptr + e.rem.toNat ≤ x) :
    Memory.read c (feedbackLoop c ks mode dir discard fuel e).dmem x = Memory.read c e.dmem x := by
  induction fuel generalizing e with
  | zero => rfl
  | succ fuel ih =>
    simp only [feedbackLoop]
    split_ifs with h0
    · rfl
    · have := chunkLength_le_rem e
      rw [ih, feedbackChunk_read_outside _ (by omega)]
      rw [feedbackChunk_rem, feedbackChunk_ptr]
      omega

theorem feedbackLoop_wf (fuel : Nat) {e : Engine} (h : Memory.wf c e.dmem)
    (ha : e.rem = 0 ∨ e.ptr + e.rem.toNat ≤ c.dmemSize) :
    Memory.wf c (feedbackLoop c ks mode dir discard fuel e).dmem := by
  induction fuel generalizing e with
  | zero => exact h
  | succ fuel ih =>
    simp only [feedbackLoop]
    split_ifs with h0
    · exact h
    · have h1 := chunkLength_le_rem e
      have h2 := ha.resolve_left h0
      refine ih (feedbackChunk_wf h (by omega)) (.inr ?_)
      rw [feedbackChunk_rem, feedbackChunk_ptr]
      omega

@[simp] theorem feedbackLoop_dmem_discard (fuel : Nat) (e : Engine) :
    (feedbackLoop c ks mode dir true fuel e).dmem = e.dmem := by
  induction fuel generalizing e with
  | zero => rfl
  | succ fuel ih =>
    simp only [feedbackLoop]
    split_ifs
    · rfl
    · rw [ih, feedbackChunk_dmem_discard]

/-! ### FeedbackRun -/

variable (mode dir discard)

/-- FeedbackRun writes R, POS, REM and DMEM, and leaves REM = 0 (R131). -/
theorem feedbackRun_frame (c : Config) (a n : Word) (s : State) :
    ∃ r pos m, feedbackRun c mode dir a n discard s =
      { s with r := r, pos := pos, rem := 0, dmem := m } := by
  let e := feedbackEngine c mode dir a n discard s
  refine ⟨e.r, e.pos, e.dmem, ?_⟩
  have := feedbackLoop_rem (c := c) (ks := s.ks) (mode := mode) (dir := dir) (discard := discard)
    n.toNat (engineStart a n s) (by simp [engineStart])
  simp only [feedbackRun, e, feedbackEngine, State.setR, State.setPos, State.setRem, State.setDmem, this]

theorem feedbackRun_read_outside (c : Config) (a n : Word) (s : State) {x : Nat}
    (h : x < a.toNat ∨ a.toNat + n.toNat ≤ x) :
    Memory.read c (feedbackRun c mode dir a n discard s).dmem x = Memory.read c s.dmem x :=
  feedbackLoop_read_outside _ _ h

theorem feedbackRun_wf (c : Config) (a n : Word) {s : State} (h : Memory.wf c s.dmem)
    (ha : BufferIn c a n) : Memory.wf c (feedbackRun c mode dir a n discard s).dmem :=
  feedbackLoop_wf _ h ha

/-- "No output buffer is produced" (R155). -/
theorem feedbackRun_dmem_discard (c : Config) (a n : Word) (s : State) :
    (feedbackRun c mode dir a n true s).dmem = s.dmem :=
  feedbackLoop_dmem_discard _ _

end Sys2Proof.Machine
end

