-- ==== Sys2Proof/Laws/PerInstr.lean ====
section
/-! SUPPORT. What holds of each command as syntax, one lemma per constructor: it has a row of the opcode map whose
`match` and `mask` select its header word, its other fields respect the row's format, and the row builds the
command back from them (R74, R75). -/

namespace Sys2Proof.Laws.EncodesToItsRow

/-- The command has a row of the opcode map (R74, R75). -/
def Statement (i : Instr) : Prop :=
  ∃ r ∈ opcodeRows, r.selects i.fields.header = true ∧ r.format.unusedZero i.fields = true ∧
    r.build i.fields = i

/-- A header word whose three upper bytes are 0 is selected by the full mask on its opcode (R75). -/
theorem selects_of_opcode {f : Fields} {op : Byte} {w : Word} (hw : w = le32 op 0 0 0) (h : f.op = op)
    (h1 : f.rnd = 0) (h2 : f.mrnd = 0) (h3 : f.rsv = 0) : (f.header &&& 0xFFFFFFFF == w) = true := by
  have : f.header &&& 0xFFFFFFFF = f.header := BitVec.and_allOnes
  rw [this, Fields.header, h, h1, h2, h3, hw, beq_self_eq_true]

theorem configure (r m : Byte) : Statement (.configure r m) :=
  ⟨opcodeRows[0], List.getElem_mem (by decide), (Fields.header_configure _).2 ⟨rfl, rfl⟩, rfl, rfl⟩

theorem ecbEncrypt (k : Key) (a n : Word) : Statement (.ecbEncrypt k a n) :=
  ⟨opcodeRows[1], List.getElem_mem (by decide),
    selects_of_opcode (op := 0x10) (by decide) rfl rfl rfl rfl, rfl, rfl⟩

theorem ecbDecrypt (k : Key) (a n : Word) : Statement (.ecbDecrypt k a n) :=
  ⟨opcodeRows[2], List.getElem_mem (by decide),
    selects_of_opcode (op := 0x11) (by decide) rfl rfl rfl rfl, rfl, rfl⟩

theorem cfbEncrypt (k : Key) (v : Block) (a n : Word) : Statement (.cfbEncrypt k v a n) :=
  ⟨opcodeRows[3], List.getElem_mem (by decide),
    selects_of_opcode (op := 0x20) (by decide) rfl rfl rfl rfl, rfl, rfl⟩

theorem cfbDecrypt (k : Key) (v : Block) (a n : Word) : Statement (.cfbDecrypt k v a n) :=
  ⟨opcodeRows[4], List.getElem_mem (by decide),
    selects_of_opcode (op := 0x21) (by decide) rfl rfl rfl rfl, rfl, rfl⟩

theorem ofbEncrypt (k : Key) (v : Block) (a n : Word) : Statement (.ofbEncrypt k v a n) :=
  ⟨opcodeRows[5], List.getElem_mem (by decide),
    selects_of_opcode (op := 0x30) (by decide) rfl rfl rfl rfl, rfl, rfl⟩

theorem ofbDecrypt (k : Key) (v : Block) (a n : Word) : Statement (.ofbDecrypt k v a n) :=
  ⟨opcodeRows[6], List.getElem_mem (by decide),
    selects_of_opcode (op := 0x31) (by decide) rfl rfl rfl rfl, rfl, rfl⟩

theorem macInit (k : Key) : Statement (.macInit k) :=
  ⟨opcodeRows[7], List.getElem_mem (by decide),
    selects_of_opcode (op := 0x40) (by decide) rfl rfl rfl rfl, rfl, rfl⟩

theorem macUpdate (a n : Word) : Statement (.macUpdate a n) :=
  ⟨opcodeRows[8], List.getElem_mem (by decide),
    selects_of_opcode (op := 0x41) (by decide) rfl rfl rfl rfl, rfl, rfl⟩

theorem macFinish : Statement .macFinish :=
  ⟨opcodeRows[9], List.getElem_mem (by decide),
    selects_of_opcode (op := 0x42) (by decide) rfl rfl rfl rfl, rfl, rfl⟩

theorem macGet : Statement .macGet :=
  ⟨opcodeRows[10], List.getElem_mem (by decide),
    selects_of_opcode (op := 0x43) (by decide) rfl rfl rfl rfl, rfl, rfl⟩

theorem macCmp (t : Block) : Statement (.macCmp t) :=
  ⟨opcodeRows[11], List.getElem_mem (by decide),
    selects_of_opcode (op := 0x44) (by decide) rfl rfl rfl rfl, rfl, rfl⟩

theorem macCompute (k : Key) (a n : Word) : Statement (.macCompute k a n) :=
  ⟨opcodeRows[12], List.getElem_mem (by decide),
    selects_of_opcode (op := 0x48) (by decide) rfl rfl rfl rfl, rfl, rfl⟩

theorem macVerify (k : Key) (t : Block) (a n : Word) : Statement (.macVerify k t a n) :=
  ⟨opcodeRows[13], List.getElem_mem (by decide),
    selects_of_opcode (op := 0x49) (by decide) rfl rfl rfl rfl, rfl, rfl⟩

end Sys2Proof.Laws.EncodesToItsRow
end

