-- ==== Sys2Proof/Laws/Step.lean ====
section
/-! SUPPORT. What one step can do, said once. -/

namespace Sys2Proof.Machine

/-- Inversion of a step: nothing to do, a command run or refused as illegal, a host write inside DMEM, or a
reset of the idle or of the busy core. -/
theorem step_cases {s t : State} (h : step s = .next t) :
    (s.events = [] ∧ t = s) ∨
    ∃ rest,
      (∃ p i, s.events = .command p :: rest ∧ decode p.toList = .ok i ∧
        exec i (s.setEvents rest) = .next t) ∨
      (∃ p, s.events = .command p :: rest ∧ (∀ i, decode p.toList ≠ .ok i) ∧
        t = raise .illegalCommand (s.setEvents rest)) ∨
      (∃ a bytes, s.events = .hostWrite a bytes :: rest ∧
        (bytes = [] ∨ a + bytes.length ≤ Config.hw.dmemSize) ∧
        t = (s.setEvents rest).setDmem (Memory.writeBytes Config.hw s.dmem a bytes)) ∨
      (s.events = .reset :: rest ∧ t = resetEvent Config.hw (s.setEvents rest)) ∨
      (∃ p, s.events = .resetDuring p :: rest ∧ t = abandonEvent Config.hw p (s.setEvents rest)) := by
  unfold step at h
  split at h
  case h_1 he => exact .inl ⟨he, by injection h with h; exact h.symm⟩
  case h_2 p rest he =>
    refine .inr ⟨rest, ?_⟩
    unfold fetchCommand at h
    cases hd : decode p.toList with
    | ok i => exact .inl ⟨p, i, he, hd, by simpa [hd] using h⟩
    | error e =>
      refine .inr (.inl ⟨p, he, by simp [hd], ?_⟩)
      simp only [hd] at h
      injection h with h
      exact h.symm
  case h_3 a bytes rest he =>
    refine .inr ⟨rest, .inr (.inr (.inl ⟨a, bytes, he, ?_⟩))⟩
    unfold hostWriteEvent at h
    split at h
    case isTrue hb =>
      injection h with h
      exact ⟨hb, h.symm⟩
    case isFalse => cases h
  case h_4 rest he =>
    refine .inr ⟨rest, .inr (.inr (.inr (.inl ⟨he, ?_⟩)))⟩
    injection h with h
    exact h.symm
  case h_5 p rest he =>
    refine .inr ⟨rest, .inr (.inr (.inr (.inr ⟨p, he, ?_⟩)))⟩
    injection h with h
    exact h.symm

/-- Tearing a buffer leaves every byte old or new. -/
theorem tornBuffer_read {c : Config} (n : Nat) (new : Memory) (k a : Nat) {m : Memory}
    (h : Memory.wf c m) (ha : k = 0 ∨ a + k ≤ c.dmemSize) (x : Nat) :
    Memory.read c (tornBuffer c n new k a m) x = Memory.read c m x ∨
      (a ≤ x ∧ x < a + k ∧ Memory.read c (tornBuffer c n new k a m) x = Memory.read c new x) := by
  induction k generalizing a m with
  | zero => exact .inl rfl
  | succ k ih =>
    have ha' : a + (k + 1) ≤ c.dmemSize := by simpa using ha
    simp only [tornBuffer]
    split_ifs with ht
    · have hw := Memory.wf_write h (Memory.read c new a) (show a < c.dmemSize by omega)
      rcases ih (a + 1) hw (.inr (by omega)) with h1 | ⟨h1, h2, h3⟩
      · rw [h1]
        by_cases hx : x = a
        · subst hx
          exact .inr ⟨by omega, by omega, Memory.read_write_same h _ _⟩
        · exact .inl (Memory.read_write_ne _ _ hx)
      · exact .inr ⟨by omega, by omega, h3⟩
    · rcases ih (a + 1) h (.inr (by omega)) with h1 | ⟨h1, h2, h3⟩
      · exact .inl h1
      · exact .inr ⟨by omega, by omega, h3⟩

theorem tornBuffer_wf {c : Config} (n : Nat) (new : Memory) (k a : Nat) {m : Memory}
    (h : Memory.wf c m) (ha : k = 0 ∨ a + k ≤ c.dmemSize) :
    Memory.wf c (tornBuffer c n new k a m) := by
  induction k generalizing a m with
  | zero => exact h
  | succ k ih =>
    have ha' : a + (k + 1) ≤ c.dmemSize := by simpa using ha
    simp only [tornBuffer]
    split_ifs
    · exact ih (a + 1) (Memory.wf_write h _ (by omega)) (.inr (by omega))
    · exact ih (a + 1) h (.inr (by omega))

end Sys2Proof.Machine
end

