-- ==== Sys2Proof/Laws/Stream.lean ====
section
/-! SUPPORT. The small lemmas of the definitions the laws are stated in: blocks in memory, ECB block by block, the
byte loop, absorbing message bytes, the closed form of the tag, command sequences, and which commands pass the
prologue in which phase. -/

namespace Sys2Proof.Machine

variable {c : Config}

/-! ### Byte sequences and blocks in memory -/

@[simp] theorem overwrite_nil (r : Block) (p : Nat) : overwrite r p [] = r :=
  Vector.ext fun i hi => by simp [overwrite]

/-- Overwriting a run of bytes is overwriting its first byte, then the rest one place on. -/
theorem overwrite_cons (r : Block) {p : Nat} (hp : p < 8) (b : Byte) (bs : List Byte) :
    overwrite r p (b :: bs) = overwrite (r.set p b) (p + 1) bs := by
  refine Vector.ext fun i hi => ?_
  simp only [overwrite, Vector.getElem_ofFn, List.length_cons, Vector.getElem_set]
  by_cases h1 : p = i
  · subst h1; simp
  · by_cases h2 : p + 1 ≤ i ∧ i < p + 1 + bs.length
    · have h3 : p ≤ i ∧ i < p + (bs.length + 1) := by omega
      have e : i - p = (i - (p + 1)) + 1 := by omega
      simp only [h1, h2, h3, and_self, if_true]
      rw [e, List.getD_cons_succ]
    · have h3 : ¬ (p ≤ i ∧ i < p + (bs.length + 1)) := by omega
      simp only [h1, h2, h3, if_false]

theorem xorBytes_cons_drop (r : Block) {p : Nat} (hp : p < 8) (x : Byte) (xs : List Byte) :
    xorBytes (x :: xs) (r.toList.drop p) = (x ^^^ r[p]) :: xorBytes xs (r.toList.drop (p + 1)) := by
  have : r.toList.drop p = r[p] :: r.toList.drop (p + 1) := by
    rw [List.drop_eq_getElem_cons (by simpa using hp)]; simp
  rw [this]; rfl

theorem drop_set_succ (r : Block) {p : Nat} (hp : p < 8) (b : Byte) :
    (r.set p b).toList.drop (p + 1) = r.toList.drop (p + 1) := by
  apply List.ext_getElem
  · simp
  · intro i h1 h2
    simp [Vector.getElem_set]
    intro; omega

/-- Reading one byte more reads it last. -/
theorem Memory.readBytes_succ (m : Memory) (a n : Nat) :
    Memory.readBytes c m a (n + 1) = Memory.readBytes c m a n ++ [Memory.read c m (a + n)] := by
  induction n generalizing a with
  | zero => rfl
  | succ n ih => rw [Memory.readBytes, ih (a + 1)]; simp [Memory.readBytes]; congr 1; omega

theorem Memory.readBytes_write_below (m : Memory) {a b : Nat} (n : Nat) (v : Byte) (h : a < b) :
    Memory.readBytes c (Memory.write c m a v) b n = Memory.readBytes c m b n := by
  induction n generalizing b with
  | zero => rfl
  | succ n ih =>
    simp only [Memory.readBytes]
    rw [ih (by omega), Memory.read_write_ne _ _ (by omega)]

theorem Memory.readBlock_congr {m m' : Memory} {a : Nat}
    (h : ∀ x, a ≤ x → x < a + 8 → Memory.read c m x = Memory.read c m' x) :
    Memory.readBlock c m a = Memory.readBlock c m' a :=
  Vector.ext fun i hi => by simpa using h _ (by omega) (by omega)

theorem Memory.readBlock_writeBytes {m : Memory} (h : Memory.wf c m) (a : Nat) (b : Block)
    (ha : a + 8 ≤ c.dmemSize) : Memory.readBlock c (Memory.writeBytes c m a b.toList) a = b := by
  refine Vector.ext fun i hi => ?_
  simp only [Memory.readBlock_getElem]
  rw [Memory.read_writeBytes_inside h a b.toList (by simpa using ha) i (by simpa using hi)]
  simp

theorem cfbChain_congr {m m' : Memory} (iv : Block) {a q : Nat}
    (h : ∀ x, x < a + 8 * q → Memory.read c m x = Memory.read c m' x) :
    cfbChain c m iv a q = cfbChain c m' iv a q := by
  unfold cfbChain
  split_ifs with h0
  · rfl
  · exact Memory.readBlock_congr fun x h1 h2 => h x (by omega)

/-! ### ECB block by block -/

/-- Block `j` of the result depends on block `j` of the input and on the schedule only (R121). -/
theorem ecbRun_readBlock (ks : Sched) (d : Direction) (k a : Nat) {m : Memory} (h : Memory.wf c m)
    (ha : k = 0 ∨ a + 8 * k ≤ c.dmemSize) {j : Nat} (hj : j < k) :
    Memory.readBlock c (ecbRun c ks d k a m) (a + 8 * j) =
      c.permute ks d (Memory.readBlock c m (a + 8 * j)) := by
  induction k generalizing a m j with
  | zero => omega
  | succ k ih =>
    have hw := Memory.wf_writeBytes h a (c.permute ks d (Memory.readBlock c m a)).toList
      (.inr (by simp; omega))
    rw [ecbRun_succ]
    cases j with
    | zero =>
      refine (Memory.readBlock_congr fun x h1 h2 => ?_).trans
        (Memory.readBlock_writeBytes h a _ (by omega))
      rw [ecbRun_read_outside _ _ _ _ (by omega)]
      rfl
    | succ j =>
      have := ih (a + 8) hw (by omega) (j := j) (by omega)
      rw [show a + 8 * (j + 1) = a + 8 + 8 * j by omega, this]
      congr 1
      refine Memory.readBlock_congr fun x h1 h2 => ?_
      rw [Memory.read_writeBytes_outside _ _ _ _ (by simp; omega)]

/-! ### The byte loop -/

variable (mode : Mode) (dir : CipherDir) (discard : Bool)

theorem byteRun_add (m n p : Nat) (s : State) : byteRun c mode dir discard (m + n) p s =
    byteRun c mode dir discard n (p + m) (byteRun c mode dir discard m p s) := by
  induction m generalizing p s with
  | zero => simp [byteRun]
  | succ m ih =>
    rw [show m + 1 + n = (m + n) + 1 by omega]
    simp only [byteRun]
    rw [ih]
    congr 1
    omega

theorem byteRun_succ (n p : Nat) (s : State) : byteRun c mode dir discard (n + 1) p s =
    byteStep c mode dir discard (p + n) (byteRun c mode dir discard n p s) := by
  rw [byteRun_add]; rfl

/-- The byte loop writes R, POS and DMEM only. -/
theorem byteRun_frame (n p : Nat) (s : State) :
    ∃ r pos m, byteRun c mode dir discard n p s = { s with r := r, pos := pos, dmem := m } := by
  induction n generalizing p s with
  | zero => exact ⟨_, _, _, rfl⟩
  | succ n ih =>
    obtain ⟨r, pos, m, h⟩ := ih (p + 1) (byteStep c mode dir discard p s)
    exact ⟨r, pos, m, by rw [byteRun, h]; rfl⟩

@[simp] theorem byteRun_ks (n p : Nat) (s : State) : (byteRun c mode dir discard n p s).ks = s.ks := by
  obtain ⟨_, _, _, h⟩ := byteRun_frame (c := c) mode dir discard n p s
  rw [h]

theorem byteStep_read_ne (p : Nat) (s : State) {x : Nat} (h : x ≠ p) :
    Memory.read c (byteStep c mode dir false p s).dmem x = Memory.read c s.dmem x :=
  Memory.read_write_ne _ _ h

theorem byteRun_read_outside (n p : Nat) (s : State) {x : Nat} (h : x < p ∨ p + n ≤ x) :
    Memory.read c (byteRun c mode dir false n p s).dmem x = Memory.read c s.dmem x := by
  induction n generalizing p s with
  | zero => rfl
  | succ n ih => simp only [byteRun]; rw [ih _ _ (by omega), byteStep_read_ne _ _ _ _ (by omega)]

theorem byteRun_wf (n p : Nat) {s : State} (h : Memory.wf c s.dmem) (ha : p + n ≤ c.dmemSize) :
    Memory.wf c (byteRun c mode dir false n p s).dmem := by
  induction n generalizing p s with
  | zero => exact h
  | succ n ih =>
    have h1 : Memory.wf c (byteStep c mode dir false p s).dmem := Memory.wf_write h _ (by omega)
    exact ih (p + 1) h1 (by omega)

/-- Entered at a block boundary, the cursor counts the bytes modulo 8 (R30). -/
theorem byteRun_pos (n p : Nat) {s : State} (h : s.pos = 0) :
    (byteRun c mode dir discard n p s).pos.val = n % 8 := by
  induction n with
  | zero => simp [byteRun, h]
  | succ n ih =>
    rw [byteRun_succ]
    show (_ + 1 : Fin 8).val = _
    rw [Fin.val_add, ih]; simp

/-! ### Absorbing message bytes, and the closed form of the tag -/

theorem absorb_append (ks : Sched) (acc : Block × Fin 8) (l l' : List Byte) :
    absorb c ks acc (l ++ l') = absorb c ks (absorb c ks acc l) l' := by
  simp [absorb, List.foldl_append]

theorem absorb_snoc (ks : Sched) (acc : Block × Fin 8) (l : List Byte) (x : Byte) :
    absorb c ks acc (l ++ [x]) = absorbByte c ks (absorb c ks acc l) x := by
  simp [absorb, List.foldl_append]

theorem macChain_succ_getElem (ks : Sched) (msg : List Byte) (j : Nat) {i : Nat} (hi : i < 8) :
    (macChain c ks msg (j + 1))[i] =
      msg.getD (8 * j + i) 0 ^^^ (c.permute ks .forward (macChain c ks msg j))[i] := by
  simp only [macChain, Vector.getElem_ofFn]

/-- `C_j` depends on the first `j` blocks only. -/
theorem macChain_congr (ks : Sched) {m m' : List Byte} (j : Nat)
    (h : ∀ i, i < 8 * j → m.getD i 0 = m'.getD i 0) : macChain c ks m j = macChain c ks m' j := by
  induction j with
  | zero => rfl
  | succ j ih =>
    refine Vector.ext fun i hi => ?_
    rw [macChain_succ_getElem _ _ _ hi, macChain_succ_getElem _ _ _ hi, h _ (by omega),
      ih fun i hi => h i (by omega)]

theorem macLast_of_whole (ks : Sched) {msg : List Byte} (h : msg.length % 8 = 0) :
    macLast c ks msg = macChain c ks msg (msg.length / 8) := by
  simp only [macLast, h, if_true]

theorem macLast_getElem_of_tail (ks : Sched) {msg : List Byte} (h : msg.length % 8 ≠ 0) {i : Nat}
    (hi : i < 8) : (macLast c ks msg)[i] =
      if i < msg.length % 8 then
        msg.getD (8 * (msg.length / 8) + i) 0 ^^^
          (c.permute ks .forward (macChain c ks msg (msg.length / 8)))[i]
      else (c.permute ks .forward (macChain c ks msg (msg.length / 8)))[i] := by
  simp [macLast, h]

/-! ### Command sequences -/

theorem runAll_append (l l' : List Instr) (s : State) :
    runAll c (l ++ l') s = runAll c l' (runAll c l s) := by
  induction l generalizing s with
  | nil => rfl
  | cons i l ih => exact ih _

theorem allAnswerOk_append (l l' : List Instr) (s : State) :
    AllAnswerOk c (l ++ l') s ↔ AllAnswerOk c l s ∧ AllAnswerOk c l' (runAll c l s) := by
  induction l generalizing s with
  | nil => simp [AllAnswerOk, runAll]
  | cons i l ih => simp [AllAnswerOk, runAll, ih, and_assoc]

/-! ### Which commands pass the prologue -/

variable {mode dir discard} {s : State} {i : Instr}

/-- In a ready state a session-free command with a good length and buffer passes (R108). -/
theorem Ready.prologue_eq_none (h : Ready s)
    (hp : ∀ p : MacPhase, p.sessionOpen = false → allowedIn i p = true) (hl : lengthOk i = true)
    (hb : bufferInRange c i = true) : prologue c i s = none :=
  Machine.prologue_eq_none.2 (.inr ⟨h.1, hp _ h.not_open, hl, hb⟩)

/-- In an open session its own commands pass (R151). -/
theorem SessionOpen.prologue_eq_none (h : SessionOpen s)
    (hp : ∀ p : MacPhase, p.sessionOpen = true → allowedIn i p = true) (hl : lengthOk i = true)
    (hb : bufferInRange c i = true) : prologue c i s = none :=
  Machine.prologue_eq_none.2 (.inr ⟨h.1, hp _ h.is_open, hl, hb⟩)

theorem allowedIn_eq_phaseTable (i : Instr) (p : MacPhase) : allowedIn i p = (phaseTable i p).isSome := by
  cases i <;> cases p <;> rfl

end Sys2Proof.Machine
end

