-- ==== Sys2Proof/Tests/Slice0.lean ====
section
/-! SUPPORT. The model's own tests: ill-formed packets, the words of every command, one step of every command with
the fixture primitive of 95_test_vectors.md, and, for every obligation with hypotheses, a concrete state and
operands that meet them all. Every expected byte is a vector of that file or a hand calculation from a rule. -/

open Sys2Proof Sys2Proof.Machine

namespace Sys2Proof.Tests

/-! ### The fixtures of 95_test_vectors.md, section 2 -/

/-- TOY8's schedule: the key's bytes, then the round count. -/
def toySchedule (k : Key) (r : Byte) : Sched := ⟨k.toList ++ [r]⟩

/-- TOY8's `permute`. -/
def toyPermute (ks : Sched) (d : Direction) (b : Block) : Block :=
  let k (i : Nat) : Byte := ks.bytes.getD i 0
  match d with
  | .forward => Vector.ofFn fun i : Fin 8 =>
      ((b[(i.val + 1) % 8]'(by omega)) ^^^ k i.val).rotateLeft 1 + k (i.val + 8) + k 16
  | .inverse => Vector.ofFn fun i : Fin 8 =>
      let j := (i.val + 7) % 8
      ((b[j]'(by omega)) - k (j + 8) - k 16).rotateRight 1 ^^^ k j

/-- TOY8, DERIVE_T and a DMEM of 1024 zero bytes. -/
def toy : Config where
  initSchedule := toySchedule
  permute := toyPermute
  derive := fun k => (k, Vector.ofFn fun i : Fin 16 => k[i.val] ^^^ 0x5c)
  dmemTop := 1023
  powerUp := fun _ => 0
  resetRounds := fun _ => 0
  resetMacRounds := fun _ => 0
  resetKs := fun _ => ⟨[]⟩
  resetDke := fun _ => zeroKey
  resetDkm := fun _ => zeroKey
  resetR := fun _ => zeroBlock
  torn := fun _ _ => false

/-- `K1`. -/
def k1 : Key := #v[0, 1, 2, 3, 4, 5, 6, 7, 8, 9, 10, 11, 12, 13, 14, 15]

/-- `IV1`. -/
def iv1 : Block := #v[0xa0, 0xa1, 0xa2, 0xa3, 0xa4, 0xa5, 0xa6, 0xa7]

/-- The tag of V-MAC-1. -/
def tag1 : Block := #v[0x5e, 0x60, 0x62, 0x64, 0x66, 0x68, 0x6a, 0x5c]

/-- The common settings: after `configure rounds=32, macRounds=16` (R234). -/
def start : State where
  rounds := 32
  macRounds := 16
  cfgv := true
  ks := ⟨[]⟩
  dke := zeroKey
  dkm := zeroKey
  r := zeroBlock
  pos := 0
  rem := 0
  macst := .uninitialized
  dmem := []
  events := []
  response := none
  resets := 0

/-- The same before `configure`. -/
def unconfigured : State := { start with cfgv := false }

/-- An open MAC session of V-MAC-1, after `macInit key=K0`. -/
def session : State :=
  { start with macst := .ready, dkm := Vector.replicate 16 0x5c,
               ks := toySchedule (Vector.replicate 16 0x5c) 16 }

/-- The phase Finished with V-MAC-1's tag in R. -/
def finished : State := { session with macst := .finished, r := tag1 }

/-- The state with bytes written from an address. -/
def withBytes (s : State) (a : Nat) (bs : List Byte) : State :=
  { s with dmem := Memory.writeBytes toy s.dmem a bs }

/-- The state with one event to come. -/
def withEvent (s : State) (e : HostEvent) : State := { s with events := [e] }

/-- `00 01 02 ..`, `n` bytes. -/
def ramp (n : Nat) : List Byte := (List.range n).map fun i => BitVec.ofNat 8 i

/-! ### Ill-formed packets: one per check of WellFormed, and V-ILL-1 to V-ILL-9 -/

theorem test_wellFormed_opcode : (Fields.ofOpcode 0x12).wellFormed = false ∧
    (Fields.ofOpcode 0x12).opcodeAssigned = false := by decide

theorem test_wellFormed_reserved : ({ Fields.ofOpcode 0x42 with rsv := 1 } : Fields).wellFormed = false ∧
    ({ Fields.ofOpcode 0x42 with rsv := 1 } : Fields).reservedZero = false := by decide

theorem test_wellFormed_rounds : ({ Fields.ofOpcode 0x10 with rnd := 0x20 } : Fields).wellFormed = false ∧
    ({ Fields.ofOpcode 0x10 with mrnd := 1 } : Fields).roundsUnused = false := by decide

theorem test_wellFormed_unused : ({ Fields.ofOpcode 0x40 with addr := 4 } : Fields).wellFormed = false ∧
    ({ Fields.ofOpcode 0x41 with key := k1 } : Fields).unusedZero = false ∧
    ({ Fields.ofOpcode 0x10 with aux := iv1 } : Fields).unusedZero = false ∧
    ({ Fields.ofOpcode 0x01 with len := 8 } : Fields).unusedZero = false := by decide

theorem test_wellFormed_accepts : ({ Fields.ofOpcode 0x01 with rnd := 32, mrnd := 16 } : Fields).wellFormed = true ∧
    ({ Fields.ofOpcode 0x20 with key := k1, aux := iv1, addr := 0x100, len := 13 } : Fields).wellFormed = true := by
  decide

/-- The name of the refusal, none where the bytes decode. -/
def refusalOf (bs : List Byte) : Option DecodeRefusal :=
  match decode bs with
  | .ok _ => none
  | .error e => some e

theorem test_decode_refuses_by_name :
    refusalOf (List.replicate 36 0) = some .unknownOpcode ∧
    refusalOf (0x12 :: List.replicate 35 0) = some .unknownOpcode ∧
    refusalOf ([0x42, 0, 0, 1] ++ List.replicate 32 0) = some .reservedNotZero ∧
    refusalOf ([0x10, 0x20, 0, 0, 0, 0, 0, 0, 8] ++ List.replicate 27 0) = some .roundsNotZero ∧
    refusalOf ([0x01, 0x20, 0x10, 0, 0, 0, 0, 0, 8] ++ List.replicate 27 0) = some .unusedFieldNotZero ∧
    refusalOf ([0x41, 0, 0, 0, 0, 0, 0, 0, 8, 0, 0, 0, 1] ++ List.replicate 23 0) =
      some .unusedFieldNotZero ∧
    refusalOf ([0x43] ++ List.replicate 34 0 ++ [1]) = some .unusedFieldNotZero ∧
    refusalOf ([0x10, 0, 0, 0, 0, 0, 0, 0, 8] ++ List.replicate 26 0 ++ [1]) = some .unusedFieldNotZero ∧
    refusalOf ([0x40, 0, 0, 0, 4] ++ List.replicate 31 0) = some .unusedFieldNotZero ∧
    refusalOf (0x42 :: List.replicate 34 0) = some .notAPacket ∧
    refusalOf (0x42 :: List.replicate 36 0) = some .notAPacket := by decide

/-! ### The words of every command: V-ENC-1 to V-ENC-14 -/

/-- The first twelve bytes of a packet, then KEY, then AUX. -/
def packetBytes (head : List Byte) (key aux : List Byte) : List Byte := head ++ key ++ aux

/-- Sixteen zero bytes and eight zero bytes. -/
def noKey : List Byte := List.replicate 16 0

/-- See `noKey`. -/
def noAux : List Byte := List.replicate 8 0

/-- Decoding the bytes gives the command, and encoding the command gives the bytes. -/
def Stands (bs : List Byte) (i : Instr) : Prop := decode bs = .ok i ∧ (encode i).toList = bs

theorem test_enc_configure : Stands
    (packetBytes [0x01, 0x20, 0x10, 0, 0, 0, 0, 0, 0, 0, 0, 0] noKey noAux) (.configure 32 16) := ⟨rfl, rfl⟩

theorem test_enc_ecbEncrypt : Stands
    (packetBytes [0x10, 0, 0, 0, 0x40, 0, 0, 0, 0x10, 0, 0, 0] (ramp 16) noAux) (.ecbEncrypt k1 0x40 16) := ⟨rfl, rfl⟩

theorem test_enc_ecbDecrypt : Stands
    (packetBytes [0x11, 0, 0, 0, 0x40, 0, 0, 0, 0x10, 0, 0, 0] (ramp 16) noAux) (.ecbDecrypt k1 0x40 16) := ⟨rfl, rfl⟩

theorem test_enc_cfbEncrypt : Stands
    (packetBytes [0x20, 0, 0, 0, 0, 1, 0, 0, 0x0d, 0, 0, 0] (ramp 16)
      [0xa0, 0xa1, 0xa2, 0xa3, 0xa4, 0xa5, 0xa6, 0xa7]) (.cfbEncrypt k1 iv1 0x100 13) := ⟨rfl, rfl⟩

theorem test_enc_cfbDecrypt : Stands
    (packetBytes [0x21, 0, 0, 0, 0, 1, 0, 0, 0x0d, 0, 0, 0] (ramp 16)
      [0xa0, 0xa1, 0xa2, 0xa3, 0xa4, 0xa5, 0xa6, 0xa7]) (.cfbDecrypt k1 iv1 0x100 13) := ⟨rfl, rfl⟩

theorem test_enc_ofbEncrypt : Stands
    (packetBytes [0x30, 0, 0, 0, 0, 1, 0, 0, 0x0d, 0, 0, 0] (ramp 16)
      [0xa0, 0xa1, 0xa2, 0xa3, 0xa4, 0xa5, 0xa6, 0xa7]) (.ofbEncrypt k1 iv1 0x100 13) := ⟨rfl, rfl⟩

theorem test_enc_ofbDecrypt : Stands
    (packetBytes [0x31, 0, 0, 0, 0, 1, 0, 0, 0x0d, 0, 0, 0] (ramp 16)
      [0xa0, 0xa1, 0xa2, 0xa3, 0xa4, 0xa5, 0xa6, 0xa7]) (.ofbDecrypt k1 iv1 0x100 13) := ⟨rfl, rfl⟩

theorem test_enc_macInit : Stands
    (packetBytes [0x40, 0, 0, 0, 0, 0, 0, 0, 0, 0, 0, 0] (ramp 16) noAux) (.macInit k1) := ⟨rfl, rfl⟩

theorem test_enc_macUpdate : Stands
    (packetBytes [0x41, 0, 0, 0, 0x45, 0x23, 0x01, 0, 0, 0x10, 0, 0] noKey noAux)
    (.macUpdate 0x12345 0x1000) := ⟨rfl, rfl⟩

theorem test_enc_macFinish : Stands
    (packetBytes [0x42, 0, 0, 0, 0, 0, 0, 0, 0, 0, 0, 0] noKey noAux) .macFinish := ⟨rfl, rfl⟩

theorem test_enc_macGet : Stands
    (packetBytes [0x43, 0, 0, 0, 0, 0, 0, 0, 0, 0, 0, 0] noKey noAux) .macGet := ⟨rfl, rfl⟩

theorem test_enc_macCmp : Stands
    (packetBytes [0x44, 0, 0, 0, 0, 0, 0, 0, 0, 0, 0, 0] noKey
      [0x5e, 0x60, 0x62, 0x64, 0x66, 0x68, 0x6a, 0x5c]) (.macCmp tag1) := ⟨rfl, rfl⟩

theorem test_enc_macCompute : Stands
    (packetBytes [0x48, 0, 0, 0, 0, 0, 0, 0, 8, 0, 0, 0] noKey noAux) (.macCompute zeroKey 0 8) := ⟨rfl, rfl⟩

theorem test_enc_macVerify : Stands
    (packetBytes [0x49, 0, 0, 0, 0, 0, 0, 0, 8, 0, 0, 0] noKey
      [0x5e, 0x60, 0x62, 0x64, 0x66, 0x68, 0x6a, 0x5c]) (.macVerify zeroKey tag1 0 8) := ⟨rfl, rfl⟩

/-- The words of opcode_table.json decode to their rows (R75). -/
theorem test_tableWords :
    [0x01, 0x10, 0x11, 0x20, 0x21, 0x30, 0x31, 0x40, 0x41, 0x42, 0x43, 0x44, 0x48, 0x49].map
        (decodeTableWord 32) =
      [some (.configure 0 0), some (.ecbEncrypt zeroKey 0 0), some (.ecbDecrypt zeroKey 0 0),
       some (.cfbEncrypt zeroKey zeroBlock 0 0), some (.cfbDecrypt zeroKey zeroBlock 0 0),
       some (.ofbEncrypt zeroKey zeroBlock 0 0), some (.ofbDecrypt zeroKey zeroBlock 0 0),
       some (.macInit zeroKey), some (.macUpdate 0 0), some .macFinish, some .macGet,
       some (.macCmp zeroBlock), some (.macCompute zeroKey 0 0), some (.macVerify zeroKey zeroBlock 0 0)] := by
  decide

/-- The word on the port is the next command, also right after reset: `configure` runs, and the others answer
NotConfigured (R233). -/
theorem test_fetchWord_after_reset :
    (∃ t, step (State.reset.withFetchWord 32 0x102001) = .next t ∧ t.rounds = 32 ∧ t.macRounds = 16 ∧
      t.cfgv = true) ∧
    (∃ t, step (State.reset.withFetchWord 32 0x10) = .next t ∧
      t.response = some ⟨.error .notConfigured, false, zeroBlock⟩) :=
  ⟨⟨_, rfl, rfl, rfl, rfl⟩, ⟨_, rfl, rfl⟩⟩

/-! ### One step of every command with the fixtures -/

/-- The response and some bytes of DMEM after a command. -/
def answer (i : Instr) (s : State) (a n : Nat) : Option (List Byte) × List Byte :=
  let t := runWith toy i s
  (t.response.map fun q => q.bytes.toList, Memory.readBytes toy t.dmem a n)

/-- The response bytes of a status, a boolean and a zero tag. -/
def status (st bool : Byte) : Option (List Byte) := some ([st, bool] ++ List.replicate 10 0)

/-- The example of R110. -/
theorem test_configure : answer (.configure 32 16) unconfigured 0 0 = (status 0 0, []) ∧
    (runWith toy (.configure 7 99) session).rounds = 7 ∧
    (runWith toy (.configure 7 99) session).ks = session.ks := by decide

/-- V-ECB-1. -/
theorem test_ecbEncrypt : answer (.ecbEncrypt zeroKey 0 8) (withBytes start 0 (ramp 8)) 0 8 =
    (status 0 1, [0x22, 0x24, 0x26, 0x28, 0x2a, 0x2c, 0x2e, 0x20]) := by decide

/-- V-ECB-3: two blocks, another key, an unaligned address; and R245's row for two blocks. -/
theorem test_ecbEncrypt_unaligned : answer (.ecbEncrypt k1 3 16)
    (withBytes start 3 [0, 0x11, 0x22, 0x33, 0x44, 0x55, 0x66, 0x77, 0x88, 0x99, 0xaa, 0xbb, 0xcc, 0xdd,
      0xee, 0xff]) 0 24 =
    (status 0 1, [0, 0, 0, 0x4a, 0x6f, 0x8c, 0xb9, 0xce, 0xf3, 0x10, 0x3d, 0x5b, 0x80, 0x9d, 0xca, 0xdf,
      0x04, 0x21, 0x4e, 0, 0, 0, 0, 0]) ∧
    callsOf toy (.ecbEncrypt k1 3 16) start = ⟨2, 1, 2, 0⟩ := by decide

/-- V-ECB-2. -/
theorem test_ecbDecrypt : answer (.ecbDecrypt zeroKey 0 8)
    (withBytes start 0 [0x22, 0x24, 0x26, 0x28, 0x2a, 0x2c, 0x2e, 0x20]) 0 8 = (status 0 1, ramp 8) := by decide

/-- V-ECB-5, V-ECB-6, V-ECB-7: length zero far outside DMEM; a bad length; the last legal block; past the end; a
sum that does not wrap. -/
theorem test_ecbDecrypt_corners :
    answer (.ecbDecrypt k1 0xFFFFFFF0 0) start 0 0 = (status 0 1, []) ∧
    answer (.ecbDecrypt k1 0 12) start 0 0 = (status 4 0, []) ∧
    answer (.ecbDecrypt k1 1016 8) start 0 0 = (status 0 1, []) ∧
    answer (.ecbDecrypt k1 1020 8) start 0 0 = (status 5 0, []) ∧
    answer (.ecbDecrypt k1 1020 5) start 0 0 = (status 4 0, []) ∧
    answer (.ecbDecrypt k1 0xFFFFFFF8 16) start 0 0 = (status 5 0, []) := by decide

/-- V-CFB-1. -/
theorem test_cfbEncrypt :
    answer (.cfbEncrypt k1 iv1 0x100 13) (withBytes start 0x100 (ramp 13)) 0x100 14 =
      (status 0 0, [0x6b, 0x71, 0x6f, 0x79, 0x6b, 0x71, 0x77, 0x79, 0x02, 0x0c, 0x2a, 0xf0, 0x1a, 0]) ∧
    (runWith toy (.cfbEncrypt k1 iv1 0x100 13) (withBytes start 0x100 (ramp 13))).r =
      #v[0x02, 0x0c, 0x2a, 0xf0, 0x1a, 0x11, 0x2c, 0x07] := by decide

/-- V-CFB-4: from Finished, length zero. -/
theorem test_cfbEncrypt_empty : runWith toy (.cfbEncrypt k1 iv1 0x7FFFFFFF 0) finished =
    { finished with ks := toySchedule k1 32, r := iv1, macst := .uninitialized,
                    response := some ⟨.ok, false, zeroBlock⟩ } := by decide

/-- V-CFB-2. -/
theorem test_cfbDecrypt : answer (.cfbDecrypt k1 iv1 0x100 13) (withBytes start 0x100
      [0x6b, 0x71, 0x6f, 0x79, 0x6b, 0x71, 0x77, 0x79, 0x02, 0x0c, 0x2a, 0xf0, 0x1a]) 0x100 13 =
    (status 0 0, ramp 13) := by decide

/-- V-OFB-1. -/
theorem test_ofbEncrypt :
    answer (.ofbEncrypt k1 iv1 0x100 13) (withBytes start 0x100 (ramp 13)) 0x100 14 =
      (status 0 0, [0x6b, 0x71, 0x6f, 0x79, 0x6b, 0x71, 0x77, 0x79, 0, 0x08, 0x10, 0x08, 0, 0]) ∧
    (runWith toy (.ofbEncrypt k1 iv1 0x100 13) (withBytes start 0x100 (ramp 13))).r =
      #v[0x08, 0x01, 0x1a, 0x03, 0x0c, 0x15, 0x1e, 0x07] := by decide

/-- V-OFB-2. -/
theorem test_ofbDecrypt : answer (.ofbDecrypt k1 iv1 0x100 13) (withBytes start 0x100
      [0x6b, 0x71, 0x6f, 0x79, 0x6b, 0x71, 0x77, 0x79, 0, 0x08, 0x10, 0x08, 0]) 0x100 13 =
    (status 0 0, ramp 13) := by decide

/-- V-MAC-1, first line: the whole state after `macInit`. -/
theorem test_macInit : runWith toy (.macInit zeroKey) finished =
    { session with response := some ⟨.ok, false, zeroBlock⟩ } := by decide

/-- V-MAC-1, second line. -/
theorem test_macUpdate : runWith toy (.macUpdate 0 8) (withBytes session 0 (ramp 8)) =
    { withBytes session 0 (ramp 8) with
      r := #v[0x24, 0x25, 0x26, 0x27, 0x20, 0x21, 0x22, 0x23], macst := .accumulating,
      response := some ⟨.ok, false, zeroBlock⟩ } := by decide

/-- V-MAC-3, the fourth row: three unused keystream bytes are used up before a new block is made. -/
theorem test_macUpdate_midBlock :
    let s := { withBytes session 0x300 [5, 6, 7, 8, 9, 10, 11, 12] with
               ks := toySchedule #v[0x5c, 0x5d, 0x5e, 0x5f, 0x58, 0x59, 0x5a, 0x5b, 0x54, 0x55, 0x56,
                 0x57, 0x50, 0x51, 0x52, 0x53] 16,
               r := #v[0x1c, 0x1e, 0x20, 0x26, 0x14, 0x13, 0x16, 0x19], pos := 5, macst := .accumulating }
    (runWith toy (.macUpdate 0x300 8) s).r = #v[0xe0, 0x56, 0x5c, 0xf6, 0xf0, 0xf3, 0xea, 0xf1] ∧
    (runWith toy (.macUpdate 0x300 8) s).pos = 5 ∧
    callsOf toy (.macUpdate 0x300 8) s = ⟨2, 0, 1, 0⟩ := by decide

/-- V-MAC-1, third line. -/
theorem test_macFinish : (runWith toy .macFinish { session with
      r := #v[0x24, 0x25, 0x26, 0x27, 0x20, 0x21, 0x22, 0x23], macst := .accumulating }).r = tag1 ∧
    answer .macFinish finished 0 0 = (status 3 0, []) := by decide

/-- V-MAC-1, last line; too early it gives no byte of R. -/
theorem test_macGet :
    answer .macGet finished 0 0 = (some [0, 0, 0, 0, 0x5e, 0x60, 0x62, 0x64, 0x66, 0x68, 0x6a, 0x5c], []) ∧
    answer .macGet { finished with macst := .accumulating } 0 0 = (status 3 0, []) := by decide

/-- V-MAC-2: a match and a mismatch in the last byte. -/
theorem test_macCmp : answer (.macCmp tag1) finished 0 0 = (status 0 1, []) ∧
    answer (.macCmp (tag1.set 7 0x5d)) finished 0 0 = (status 0 0, []) := by decide

/-- V-MAC-1 and V-MAC-3 in one piece. -/
theorem test_macCompute :
    (answer (.macCompute zeroKey 0 8) (withBytes start 0 (ramp 8)) 0 0).1 =
      some [0, 0, 0, 0, 0x5e, 0x60, 0x62, 0x64, 0x66, 0x68, 0x6a, 0x5c] ∧
    (answer (.macCompute k1 0x200 13) (withBytes start 0x200 (ramp 13)) 0 0).1 =
      some [0, 0, 0, 0, 0x78, 0x67, 0xb7, 0xc6, 0xb7, 0xc8, 0xb9, 0xda] := by decide

/-- V-MAC-2: the altered message answers false and leaves its own tag in R. -/
theorem test_macVerify :
    answer (.macVerify zeroKey tag1 0 8) (withBytes start 0 (ramp 8)) 0 0 = (status 0 1, []) ∧
    answer (.macVerify zeroKey tag1 0 8) (withBytes start 0 (1 :: (ramp 8).tail)) 0 0 = (status 0 0, []) ∧
    (runWith toy (.macVerify zeroKey tag1 0 8) (withBytes start 0 (1 :: (ramp 8).tail))).r =
      tag1.set 7 0x5e := by decide

/-- V-MAC-5: the closed form gives the tag of three messages that end in zeros. -/
theorem test_macTag_trailing_zeros :
    macTag toy zeroKey 16 [1, 2, 3] = #v[0x60, 0x62, 0x5c, 0x5c, 0x5c, 0x5c, 0x5c, 0x5e] ∧
    macTag toy zeroKey 16 [1, 2, 3, 0, 0, 0, 0, 0] = #v[0x60, 0x62, 0x5c, 0x5c, 0x5c, 0x5c, 0x5c, 0x5e] ∧
    macTag toy zeroKey 16 [1, 2, 3, 0, 0, 0, 0, 0, 0] = #v[0xe8, 0x6c, 0x6c, 0x6c, 0x6c, 0x6c, 0x70, 0xe4] := by
  decide

/-- R231: a reset while V-ECB-1 runs, with every even address already new, mixes old and new bytes of the buffer
and leaves the ninth byte. -/
theorem test_abandon :
    let c := { toy with torn := fun _ a => a % 2 == 0 }
    let t := abandonEvent c (encode (.ecbEncrypt zeroKey 0 8)) (withBytes start 0 (ramp 9))
    Memory.readBytes c t.dmem 0 9 = [0x22, 1, 0x26, 3, 0x2a, 5, 0x2e, 7, 8] ∧ t.response = none ∧
    t.cfgv = false := by decide

/-! ### Witnesses: concrete states and operands that meet the hypotheses of the obligations

Statements about `exec` speak of the hardware's opaque configuration, of whose DMEM_SIZE only
`1 <= DMEM_SIZE` is known (R61); their buffers here are of length 0 or 1, and `witness_ecbBlock` adds a whole
block under the condition that DMEM holds one. -/

/-- TOY8's rotations undo each other. -/
theorem toy_rotate : ∀ x : BitVec 8, (x.rotateLeft 1).rotateRight 1 = x := by decide

/-- TOY8 has P-INV (95_test_vectors.md, section 2). -/
theorem toy_pinv : toy.PInv := by
  intro ks b
  have cancel : ∀ x y z : BitVec 8, x + y + z - y - z = x := by intros; ring
  ext i hi
  have : i = 0 ∨ i = 1 ∨ i = 2 ∨ i = 3 ∨ i = 4 ∨ i = 5 ∨ i = 6 ∨ i = 7 := by omega
  rcases this with rfl | rfl | rfl | rfl | rfl | rfl | rfl | rfl <;>
    simp [toy, toyPermute, cancel, toy_rotate]

theorem start_ready : Ready start := ⟨rfl, .inl rfl⟩

theorem finished_ready : Ready finished := ⟨rfl, .inr rfl⟩

theorem session_open : SessionOpen session := ⟨rfl, .inl rfl⟩

theorem accumulating_open : SessionOpen { session with macst := .accumulating } := ⟨rfl, .inr rfl⟩

theorem finished_tagReady : TagReady finished := ⟨rfl, rfl⟩

/-- DMEM holds at least one byte (R61). -/
theorem hw_oneByte : BufferIn Config.hw 0 1 := .inr (by simp [Config.dmemSize])

theorem witness_EncodeInvertsDecode : decode (encode .macFinish).toList = .ok .macFinish := rfl

/-- A packet on the port, and packets for each of R77(a) to (d), the edges of every field among them. -/
theorem witness_IllegalPacketsRefusedUnchanged :
    (withEvent start (.command (Vector.replicate 36 0))).events = .command (Vector.replicate 36 0) :: [] ∧
    refusalOf (Vector.replicate 36 (0 : Byte)).toList = some .unknownOpcode ∧
    ([3, 1, 2, 4, 11, 12, 27, 28, 35].map fun j : Fin 36 =>
        refusalOf ((encode .macFinish).set j 1).toList) =
      [some .reservedNotZero, some .roundsNotZero, some .roundsNotZero, some .unusedFieldNotZero,
       some .unusedFieldNotZero, some .unusedFieldNotZero, some .unusedFieldNotZero,
       some .unusedFieldNotZero, some .unusedFieldNotZero] := ⟨rfl, rfl, rfl⟩

theorem witness_OpcodeRowsExclusive :
    (opcodeRows[(13 : Fin 14).val]?.any fun r => r.selects 0x49) = true ∧
    (opcodeRows[(0 : Fin 14).val]?.any fun r => r.selects 0x102001) = true := by decide

theorem witness_StepRunsDecodedCommand :
    (withEvent session (.command (encode .macFinish))).events = .command (encode .macFinish) :: [] ∧
    decode (encode .macFinish).toList = .ok .macFinish := ⟨rfl, rfl⟩

theorem witness_IdleCoreHoldsState : start.events = [] := rfl

theorem witness_ResetLeavesControlStateClear : (withEvent session .reset).events = .reset :: [] := rfl

theorem witness_ResetDuringCommandTearsOnlyItsBuffer :
    ((withEvent session .reset).events = .reset :: [] ∧
      ∃ t, step (withEvent session .reset) = .next t) ∧
    ((withEvent start (.resetDuring (encode (.ecbEncrypt k1 0 8)))).events =
        .resetDuring (encode (.ecbEncrypt k1 0 8)) :: [] ∧
      Memory.wf Config.hw (withEvent start (.resetDuring (encode (.ecbEncrypt k1 0 8)))).dmem) :=
  ⟨⟨rfl, _, rfl⟩, rfl, by simp [withEvent, start, Memory.wf]⟩

/-- Both clauses: a byte at address 2^32, and one at address 0; they never meet. -/
theorem witness_HostWriteChangesItsBytesOnly :
    ((withEvent start (.hostWrite (2 ^ 32) [5])).events = .hostWrite (2 ^ 32) [5] :: [] ∧
      Config.hw.dmemSize < 2 ^ 32 + [(5 : Byte)].length) ∧
    ((withEvent start (.hostWrite 0 [5])).events = .hostWrite 0 [5] :: [] ∧
      0 + [(5 : Byte)].length ≤ Config.hw.dmemSize ∧ Memory.wf Config.hw start.dmem) := by
  refine ⟨⟨rfl, ?_⟩, rfl, by simp [Config.dmemSize], by simp [start, Memory.wf]⟩
  have := Config.hw.dmemTop.isLt
  simp only [Config.dmemSize, List.length_singleton]
  omega

/-- `macGet` before `configure`. -/
theorem witness_ErrorsChangeNothing : ∃ t q,
    (withEvent unconfigured (.command (encode .macGet))).events = .command (encode .macGet) :: [] ∧
    step (withEvent unconfigured (.command (encode .macGet))) = .next t ∧ t.response = some q ∧
    q.status ≠ .ok := ⟨_, _, rfl, rfl, rfl, by decide⟩

/-- One command for each branch, with DMEM_SIZE = 1024; the last two stand at the edge of DMEM. -/
theorem witness_StatusIsTheFirstCause :
    answer (.configure 1 1) unconfigured 0 0 = (status 0 0, []) ∧
    answer (.ecbEncrypt k1 1020 12) { unconfigured with macst := .ready } 0 0 = (status 2 0, []) ∧
    answer (.ecbEncrypt k1 1020 12) session 0 0 = (status 3 0, []) ∧
    answer (.ecbEncrypt k1 1020 12) start 0 0 = (status 4 0, []) ∧
    answer (.macCompute k1 1020 5) start 0 0 = (status 5 0, []) ∧
    (answer (.macVerify k1 tag1 1020 4) start 0 0).1 = status 0 0 := by decide

theorem witness_NotConfiguredUntilConfigure :
    (unconfigured.cfgv = false ∧ ∀ r m, Instr.macGet ≠ .configure r m) ∧
    (∃ t q, start.cfgv = true ∧ exec .macGet start = .next t ∧ t.response = some q) :=
  ⟨⟨rfl, by simp⟩, _, _, rfl, rfl, rfl⟩

/-- An unconfigured core; an `IS` cell; a cell that succeeds; a cell whose command fails for another reason. -/
theorem witness_PhaseTableGovernsEveryCommand :
    unconfigured.cfgv = false ∧ (start.cfgv = true ∧ phaseTable .macGet start.macst = none) ∧
    (phaseTable (.macInit k1) start.macst = some .ready ∧ AnsweredOk (runWith Config.hw (.macInit k1) start)) ∧
    (phaseTable (.ecbEncrypt k1 0 12) start.macst = some .uninitialized ∧
      ¬ AnsweredOk (runWith Config.hw (.ecbEncrypt k1 0 12) start)) := by
  refine ⟨rfl, ⟨rfl, rfl⟩, ⟨rfl, _, rfl, rfl⟩, rfl, ?_⟩
  rintro ⟨q, hq, h⟩
  obtain rfl : q = Response.ofCause .invalidLength := Option.some.inj (hq.symm.trans rfl)
  cases h

theorem witness_EcbLengthMustBeWholeBlocks :
    ((12 : Word).toNat % 8 ≠ 0 ∧ (0xFFFFFFFF : Word).toNat % 8 ≠ 0 ∧ Ready start) ∧
    (∃ q, (runWith toy (.ecbDecrypt k1 0 1) start).response = some q ∧
      q.status = .error .invalidLength) := ⟨⟨by decide, by decide, start_ready⟩, _, rfl, rfl⟩

/-- The first byte past DMEM, a sum past 2^32, and `macUpdate` in a session; an answer OutOfRange; and a buffer
that is out of range and of bad length. -/
theorem witness_OutOfRangeBufferRefused :
    (bufferOf (.ecbEncrypt k1 1017 8) = some (1017, 8) ∧ start.cfgv = true ∧
      phaseTable (.ecbEncrypt k1 1017 8) start.macst ≠ none ∧
      (∀ l, ecbLength (.ecbEncrypt k1 1017 8) = some l → l % 8 = 0) ∧ 0 < (8 : Word).toNat ∧
      toy.dmemSize < (1017 : Word).toNat + (8 : Word).toNat) ∧
    toy.dmemSize < (0xFFFFFFFF : Word).toNat + (1 : Word).toNat ∧
    (phaseTable (.macUpdate 1024 1) session.macst ≠ none ∧
      toy.dmemSize < (1024 : Word).toNat + (1 : Word).toNat) ∧
    (∃ q, (runWith toy (.macCompute k1 1024 1) start).response = some q ∧
      q.status = .error .outOfRange) ∧
    (ecbLength (.ecbEncrypt k1 1020 5) = some 5 ∧ 5 % 8 ≠ 0 ∧ start.cfgv = true ∧
      phaseTable (.ecbEncrypt k1 1020 5) start.macst ≠ none) := by
  refine ⟨⟨rfl, rfl, by decide, ?_, by decide, by decide⟩, by decide, by decide, ⟨_, rfl, rfl⟩, by decide⟩
  rintro l h
  obtain rfl : 8 = l := Option.some.inj h
  rfl

/-- `EcbEncryptMapsBlocksForward` and `EcbDecryptMapsBlocksInverse`, with no block. -/
theorem witness_EcbEncryptMapsBlocksForward : Ready finished ∧ (0 : Word).toNat % 8 = 0 ∧
    BufferIn Config.hw 0xFFFFFFFF 0 ∧ Memory.wf Config.hw finished.dmem :=
  ⟨finished_ready, by decide, .inl rfl, by simp [finished, session, start, Memory.wf]⟩

/-- The same with one block, where DMEM holds one. -/
theorem witness_ecbBlock (h : 8 ≤ Config.hw.dmemSize) : Ready start ∧ (8 : Word).toNat % 8 = 0 ∧
    BufferIn Config.hw 0 8 ∧ Memory.wf Config.hw start.dmem :=
  ⟨start_ready, by decide, .inr h, by simp [start, Memory.wf]⟩

theorem witness_EcbDecryptMapsBlocksInverse : Ready start ∧ (0 : Word).toNat % 8 = 0 ∧
    BufferIn Config.hw 0 0 ∧ Memory.wf Config.hw start.dmem :=
  ⟨start_ready, by decide, .inl rfl, by simp [start, Memory.wf]⟩

/-- `CfbEncryptChainsCiphertext`, `CfbDecryptChainsCiphertextRead` and `OfbXorsDataFreeKeystream`: one byte; and,
for the clause `N mod 8 = 0`, none. -/
theorem witness_CfbEncryptChainsCiphertext :
    (Ready start ∧ BufferIn Config.hw 0 1 ∧ Memory.wf Config.hw start.dmem ∧ (1 : Word).toNat % 8 ≠ 0) ∧
    (Ready finished ∧ BufferIn Config.hw 7 0 ∧ Memory.wf Config.hw finished.dmem ∧
      (0 : Word).toNat % 8 = 0) :=
  ⟨⟨start_ready, hw_oneByte, by simp [start, Memory.wf], by decide⟩,
   finished_ready, .inl rfl, by simp [finished, session, start, Memory.wf], by decide⟩

theorem witness_CfbDecryptChainsCiphertextRead : Ready start ∧ BufferIn Config.hw 0 1 ∧
    Memory.wf Config.hw start.dmem := ⟨start_ready, hw_oneByte, by simp [start, Memory.wf]⟩

theorem witness_OfbXorsDataFreeKeystream : Ready start ∧ BufferIn Config.hw 0 1 ∧
    Memory.wf Config.hw start.dmem := ⟨start_ready, hw_oneByte, by simp [start, Memory.wf]⟩

/-- `FeedbackLengthZeroSeedsOnly` and `MacInitSeedsTheSession`. -/
theorem witness_FeedbackLengthZeroSeedsOnly : Ready start ∧ Ready finished := ⟨start_ready, finished_ready⟩

theorem witness_MacInitSeedsTheSession : Ready start ∧ Ready finished := ⟨start_ready, finished_ready⟩

theorem witness_MacUpdateAbsorbsTheBuffer :
    (SessionOpen session ∧ BufferIn Config.hw 0 1) ∧
    (SessionOpen { session with macst := .accumulating } ∧ BufferIn Config.hw 0xFFFFFFFF 0) :=
  ⟨⟨session_open, hw_oneByte⟩, accumulating_open, .inl rfl⟩

theorem witness_MacFinishPermutesOnce : SessionOpen session := session_open

theorem witness_MacGetAndCmpReportTheTag : TagReady finished := finished_tagReady

theorem witness_MacComputeAnswersTheTag : Ready start ∧ BufferIn Config.hw 0 1 := ⟨start_ready, hw_oneByte⟩

theorem witness_MacVerifyComparesTheTag : Ready finished ∧ BufferIn Config.hw 0 1 :=
  ⟨finished_ready, hw_oneByte⟩

/-- The last address of the address space, and a split inside a block. -/
theorem witness_FeedbackRunSplits :
    ((0xFFFFFFFF : Word).toNat + (1 : Word).toNat + (0 : Word).toNat ≤ 2 ^ 32 ∧
      (1 : Word).toNat + (0 : Word).toNat < 2 ^ 32) ∧
    ((0x200 : Word).toNat + (5 : Word).toNat + (8 : Word).toNat ≤ 2 ^ 32 ∧
      (5 : Word).toNat + (8 : Word).toNat < 2 ^ 32) := by decide

theorem witness_EcbSplitsAtBlocks : Ready start ∧ (8 : Word).toNat % 8 = 0 ∧ (16 : Word).toNat % 8 = 0 ∧
    (8 : Word).toNat + (16 : Word).toNat < 2 ^ 32 ∧
    (1000 : Word).toNat + (8 : Word).toNat + (16 : Word).toNat ≤ toy.dmemSize :=
  ⟨start_ready, by decide⟩

/-- POS = 5: three bytes end the block, eight make the last one. -/
theorem witness_FinishIsCfbOverZeroBytes :
    (11 : Word).toNat = (8 - ({ session with pos := 5 } : State).pos.val) % 8 + 8 ∧
    (∀ j, j < (11 : Word).toNat → Memory.read toy session.dmem ((64 : Word).toNat + j) = 0) :=
  ⟨by decide, fun _ _ => rfl⟩

theorem witness_PermutationInvertsBothWays : toy.PInv := toy_pinv

/-- V-ECB-1 and V-ECB-2. -/
theorem witness_EcbRoundTripRestoresMemory : toy.PInv ∧ Ready (withBytes start 0 (ramp 8)) ∧
    (8 : Word).toNat % 8 = 0 ∧ BufferIn toy 0 8 ∧ Memory.wf toy (withBytes start 0 (ramp 8)).dmem :=
  ⟨toy_pinv, ⟨rfl, .inl rfl⟩, by decide, .inr (by decide), by decide⟩

/-- V-CFB-1 and V-CFB-2. -/
theorem witness_FeedbackRoundTripRestoresMemory : Ready (withBytes start 0x100 (ramp 13)) ∧
    BufferIn toy 0x100 13 ∧ Memory.wf toy (withBytes start 0x100 (ramp 13)).dmem :=
  ⟨⟨rfl, .inl rfl⟩, .inr (by decide), by decide⟩

/-- An open session; a buffer out of range; and the case where the protocol succeeds. -/
theorem witness_MacOneShotEqualsProtocol :
    ¬ (Ready session ∧ BufferIn toy 0 8) ∧
    (¬ (Ready start ∧ BufferIn toy 1017 8) ∧ Ready start) ∧ (Ready finished ∧ BufferIn toy 1016 8) := by
  refine ⟨fun h => ?_, ⟨fun h => ?_, start_ready⟩, finished_ready, .inr (by decide)⟩
  · rcases h.1.2 with h | h <;> cases h
  · rcases h.2 with h | h <;> exact absurd h (by decide)

/-- The same eight bytes at two addresses, in two phases. -/
theorem witness_MacTagIsDeterministic : Ready (withBytes start 0 (ramp 8)) ∧
    Ready (withBytes finished 0x41 (ramp 8)) ∧ start.macRounds = finished.macRounds ∧
    BufferIn toy 0 8 ∧ BufferIn toy 0x41 8 ∧
    buf toy (withBytes start 0 (ramp 8)).dmem 0 8 = buf toy (withBytes finished 0x41 (ramp 8)).dmem 0x41 8 :=
  ⟨⟨rfl, .inl rfl⟩, ⟨rfl, .inr rfl⟩, rfl, .inr (by decide), .inr (by decide), by decide⟩

/-- V-MAC-3's split of 13 bytes, with an empty piece outside DMEM; a second state that holds the bytes
elsewhere; and a list that absorbs all of DMEM twice, more than any buffer of it holds. -/
theorem witness_MacStreamingEquivalence :
    (Ready (withBytes start 0x200 (ramp 13)) ∧
      ∀ x ∈ ([(0x200, 3), (0xFFFFFFFF, 0), (0x203, 10)] : List (Word × Word)), BufferIn toy x.1 x.2) ∧
    (Ready (withBytes finished 7 (ramp 13)) ∧
      (withBytes finished 7 (ramp 13)).macRounds = (withBytes start 0x200 (ramp 13)).macRounds ∧
      BufferIn toy 7 13 ∧
      buf toy (withBytes finished 7 (ramp 13)).dmem 7 13 =
        ([(0x200, 3), (0xFFFFFFFF, 0), (0x203, 10)] : List (Word × Word)).flatMap fun x =>
          buf toy (withBytes start 0x200 (ramp 13)).dmem x.1 x.2) ∧
    ∀ x ∈ ([(0, 1024), (0, 1024)] : List (Word × Word)), BufferIn toy x.1 x.2 := by
  refine ⟨⟨⟨rfl, .inl rfl⟩, ?_⟩, ⟨⟨rfl, .inr rfl⟩, rfl, .inr (by decide), by decide⟩, ?_⟩
  all_goals simp only [List.mem_cons, List.not_mem_nil, or_false, forall_eq_or_imp, forall_eq]
  · exact ⟨.inr (by decide), .inl rfl, .inr (by decide)⟩
  · exact ⟨.inr (by decide), .inr (by decide)⟩

/-- V-MAC-2's altered message: byte 0 of stream block 0 differs. -/
theorem witness_MacVerifyAcceptsAndRejects :
    let s1 := withBytes start 0 (ramp 8)
    let s2 := withBytes start 0 (1 :: (ramp 8).tail)
    (Ready s1 ∧ BufferIn toy 0 8) ∧
    (toy.PInv ∧ Ready s2 ∧ s1.macRounds = s2.macRounds ∧ buf toy s1.dmem 0 8 ≠ buf toy s2.dmem 0 8 ∧
      (∀ i, i < (8 : Word).toNat → i / 8 ≠ 0 →
        Memory.read toy s1.dmem ((0 : Word).toNat + i) = Memory.read toy s2.dmem ((0 : Word).toNat + i)) ∧
      (runWith toy (.macCompute zeroKey 0 8) s1).response = some ⟨.ok, false, tag1⟩) := by
  refine ⟨⟨⟨rfl, .inl rfl⟩, .inr (by decide)⟩, toy_pinv, ⟨rfl, .inl rfl⟩, rfl, by decide, ?_, by decide⟩
  intro i h h'
  exact absurd (Nat.div_eq_of_lt h) h'

/-- A whole block for the first clause; three bytes and five zeros, which fill the block, for the second; both
as buffers that end where DMEM ends for the third. -/
theorem witness_TrailingZerosKeepTheTag :
    ((ramp 8).length % 8 = 0 ∧ (([] : List Byte).length % 8 = 0) ∧
      0 < (ramp 3).length % 8 ∧ (ramp 3).length % 8 + 5 ≤ 8) ∧
    (Ready (withBytes start 1016 (ramp 3)) ∧ BufferIn toy 1016 8 ∧ (3 : Word).toNat ≤ (8 : Word).toNat ∧
      (∀ j, (3 : Word).toNat ≤ j → j < (8 : Word).toNat →
        Memory.read toy (withBytes start 1016 (ramp 3)).dmem ((1016 : Word).toNat + j) = 0) ∧
      0 < (3 : Word).toNat % 8 ∧ (3 : Word).toNat % 8 + ((8 : Word).toNat - (3 : Word).toNat) ≤ 8) ∧
    (Ready (withBytes start 1015 (ramp 8)) ∧ BufferIn toy 1015 9 ∧ (8 : Word).toNat ≤ (9 : Word).toNat ∧
      (∀ j, (8 : Word).toNat ≤ j → j < (9 : Word).toNat →
        Memory.read toy (withBytes start 1015 (ramp 8)).dmem ((1015 : Word).toNat + j) = 0) ∧
      (8 : Word).toNat % 8 = 0 ∧ (9 : Word).toNat = (8 : Word).toNat + 1) := by
  refine ⟨by decide, ⟨⟨rfl, .inl rfl⟩, .inr (by decide), by decide, ?_, by decide⟩,
    ⟨⟨rfl, .inl rfl⟩, .inr (by decide), by decide, ?_, by decide⟩⟩
  all_goals
    intro j _ h
    revert j
    decide

theorem witness_EmptyMessageTag : Ready start := start_ready

/-- The scenario with DMEM full to its last byte, and byte 0 incremented. -/
theorem witness_ConcreteScenarioHolds :
    toy.PInv ∧ (1016 : Word).toNat + 8 ≤ toy.dmemSize ∧ Memory.wf toy session.dmem ∧
    ∃ s2, hostWriteEvent toy (1016 : Word).toNat [0, 1, 2, 3, 4, 5, 6, 7]
      (runWith toy (.configure 32 16) (resetEvent toy session)) = .next s2 :=
  ⟨toy_pinv, by decide, by decide, _, rfl⟩

theorem witness_CommandsArePositionIndependent : bufferOf (.cfbEncrypt k1 iv1 0 13) = some (0, 13) ∧
    BufferIn toy 0 13 ∧ BufferIn toy 1011 13 ∧ Memory.wf toy (withBytes start 0 (ramp 13)).dmem ∧
    Memory.wf toy (withBytes start 1011 (ramp 13)).dmem ∧
    buf toy (withBytes start 0 (ramp 13)).dmem 0 13 = buf toy (withBytes start 1011 (ramp 13)).dmem 1011 13 :=
  ⟨rfl, .inr (by decide), .inr (by decide), by decide, by decide, by decide⟩

/-- The byte just below the buffer and the byte just past it; a command that writes no byte. -/
theorem witness_OnlyCipherBuffersChange : bufferOf (.ecbEncrypt k1 3 16) = some (3, 16) ∧
    (2 < (3 : Word).toNat ∨ (3 : Word).toNat + (16 : Word).toNat ≤ 2) ∧
    (19 < (3 : Word).toNat ∨ (3 : Word).toNat + (16 : Word).toNat ≤ 19) ∧
    isCipher (.macCompute k1 3 16) = false := by decide

/-- V-CFB-1's buffer, and its first five bytes in a state that agrees with it on those only. -/
theorem witness_StreamOutputHasPrefixProperty :
    let s1 := withBytes start 0x100 (ramp 13)
    let s2 := withBytes finished 0x100 (ramp 5)
    Ready s1 ∧ Ready s2 ∧ s1.rounds = s2.rounds ∧ (5 : Word).toNat ≤ (13 : Word).toNat ∧
    BufferIn toy 0x100 13 ∧ Memory.wf toy s1.dmem ∧ Memory.wf toy s2.dmem ∧
    buf toy s1.dmem 0x100 5 = buf toy s2.dmem 0x100 5 :=
  ⟨⟨rfl, .inl rfl⟩, ⟨rfl, .inr rfl⟩, rfl, by decide, .inr (by decide), by decide, by decide, by decide⟩

theorem witness_RoundCountsAreIndependent : (∀ r m, Instr.macGet ≠ .configure r m) ∧
    (∀ r m, Instr.ecbEncrypt k1 0 8 ≠ .configure r m) ∧ isCipher (.ecbEncrypt k1 0 8) = true ∧
    isCipher .macGet = false := ⟨by simp, by simp, rfl, rfl⟩

theorem witness_StreamingCommandsAreTotal : (Ready start ∧ BufferIn toy 0x100 13) ∧
    (SessionOpen session ∧ BufferIn toy 1016 8) := ⟨⟨start_ready, .inr (by decide)⟩, session_open, .inr (by decide)⟩

/-- An ECB command, which is accepted, and `macUpdate`, which is not. -/
theorem witness_FirstConfigureOpensTheCore :
    ((∀ a n, bufferOf (.ecbEncrypt k1 0 8) = some (a, n) → BufferIn toy a n) ∧
      ∀ l, ecbLength (.ecbEncrypt k1 0 8) = some l → l % 8 = 0) ∧
    ((∀ a n, bufferOf (.macUpdate 0 8) = some (a, n) → BufferIn toy a n) ∧
      ∀ l, ecbLength (.macUpdate 0 8) = some l → l % 8 = 0) := by
  refine ⟨⟨?_, ?_⟩, ?_, fun l h => nomatch h⟩
  · rintro a n ⟨⟩
    exact .inr (by decide)
  · rintro l ⟨⟩
    rfl
  · rintro a n ⟨⟩
    exact .inr (by decide)

/-- A command for each clause. -/
theorem witness_TagStaysUntilTheContextIsReused : TagReady finished ∧ IsEcb (.ecbEncrypt k1 0 8) ∧
    (isCipher (.ofbEncrypt k1 iv1 0 0) = true ∧ ¬ IsEcb (.ofbEncrypt k1 iv1 0 0) ∧
      AnsweredOk (runWith toy (.ofbEncrypt k1 iv1 0 0) finished)) ∧
    AnsweredOk (runWith toy (.macInit k1) finished) ∧
    AnsweredOk (runWith toy (.macVerify k1 tag1 0 8) finished) :=
  ⟨finished_tagReady, trivial, ⟨rfl, id, _, rfl, rfl⟩, ⟨_, rfl, rfl⟩, _, rfl, rfl⟩

theorem witness_ConfigureInsideSessionKeepsTag : SessionOpen session ∧
    (∀ x ∈ ([(0, 8), (8, 5)] : List (Word × Word)), BufferIn toy x.1 x.2) := by
  refine ⟨session_open, ?_⟩
  simp only [List.mem_cons, List.not_mem_nil, or_false, forall_eq_or_imp, forall_eq]
  exact ⟨.inr (by decide), .inr (by decide)⟩

theorem witness_CallCountsMatchTheTable : AnsweredOk (runWith toy (.macCompute k1 0 13) start) ∧
    (runWith toy (.macGet) start).response = some ⟨.error .invalidState, false, zeroBlock⟩ :=
  ⟨⟨_, rfl, rfl⟩, rfl⟩

/-- A reset that clears CFGV, and one that abandons a session. -/
theorem witness_OnlyResetClearsOrAbandons :
    (∃ t, step (withEvent start .reset) = .next t ∧ (withEvent start .reset).cfgv = true ∧ t.cfgv = false) ∧
    (∃ t, step (withEvent session (.resetDuring (encode .macFinish))) = .next t ∧
      session.macst.sessionOpen = true ∧ t.macst.sessionOpen = false ∧
      ∀ p rest, (withEvent session (.resetDuring (encode .macFinish))).events = .command p :: rest →
        decode p.toList ≠ .ok .macFinish) :=
  ⟨⟨_, rfl, rfl, rfl⟩, _, rfl, rfl, rfl, fun _ _ h => by simp [withEvent] at h⟩

/-- Two states that differ in every register a host cannot see, with `macInit` to come. -/
theorem witness_UnspecifiedValuesNeverShow :
    SameToHost (withEvent start (.command (encode (.macInit k1))))
      { withEvent start (.command (encode (.macInit k1))) with
        ks := ⟨[1]⟩, dke := k1, dkm := k1, r := iv1, pos := 3 } ∧
    ∃ t, step (withEvent start (.command (encode (.macInit k1)))) = .next t := by
  refine ⟨⟨rfl, rfl, rfl, rfl, rfl, rfl, rfl, fun _ => ⟨rfl, rfl⟩, ?_, ?_⟩, _, rfl⟩
  · rintro (h | h) <;> cases h
  · intro h
    cases h

/-- A state with the invariant that a step leaves: after reset, with `configure` to come. -/
theorem witness_EveryStepKeepsTheInvariant :
    Inv Config.hw (withEvent start (.command (encode (.macInit k1)))) ∧
    ∃ t, step (withEvent start (.command (encode (.macInit k1)))) = .next t := by
  refine ⟨⟨by simp [withEvent, start, Memory.wf], rfl, fun _ => rfl, ?_, ?_, ?_, ?_⟩, _, rfl⟩
  · intro h
    cases h
  · intro h
    cases h
  · rintro (h | h) <;> cases h
  · intro q h
    cases h

end Sys2Proof.Tests
end

/-! PROOFS. Scope of the core (00_scope.md): what one step does with a packet and with a host write, and that
`exec` is `runWith` at the hardware's configuration. -/

namespace Sys2Proof.Machine

/-! ### A command packet on the port -/

theorem fetchCommand_of_decode {p : Packet} {i : Instr} (h : decode p.toList = .ok i) :
    fetchCommand p = some i := by
  rw [fetchCommand, h]

theorem step_of_command {s : State} {p : Packet} {rest : List HostEvent} {i : Instr}
    (he : s.events = .command p :: rest) (hd : decode p.toList = .ok i) :
    step s = exec i (s.setEvents rest) := by
  simp only [step, he, fetchCommand_of_decode hd]

/-- Settles O8: the port fetches the decoded command, and taking the event off the list is `setEvents`. -/
theorem stepRunsDecodedCommand : Obligations.StepRunsDecodedCommand :=
  fun _ _ _ _ he hd => step_of_command he hd

/-! ### The dispatch -/

/-- Each arm of the dispatch runs its own command's meaning at `Config.hw`. -/
theorem exec_eq_runWith (i : Instr) (s : State) : exec i s = .next (runWith Config.hw i s) := by
  cases i <;> rfl

/-- Settles O9, by the arms of the dispatch. -/
theorem execIsRunWithOpenConfiguration : Obligations.ExecIsRunWithOpenConfiguration :=
  exec_eq_runWith

/-! ### A host write -/

theorem hostWriteEvent_of_inside {c : Config} {a : Nat} {bytes : List Byte} (s : State)
    (h : bytes = [] ∨ a + bytes.length ≤ c.dmemSize) :
    hostWriteEvent c a bytes s = .next (s.setDmem (Memory.writeBytes c s.dmem a bytes)) :=
  if_pos h

theorem hostWriteEvent_of_outside {c : Config} {a : Nat} {bytes : List Byte} (s : State)
    (hne : bytes ≠ []) (h : c.dmemSize < a + bytes.length) :
    hostWriteEvent c a bytes s = .fault .hostWriteOutsideDmem :=
  if_neg (not_or.2 ⟨hne, Nat.not_le.2 h⟩)

theorem step_of_hostWrite {s : State} {a : Nat} {bytes : List Byte} {rest : List HostEvent}
    (he : s.events = .hostWrite a bytes :: rest) :
    step s = hostWriteEvent Config.hw a bytes (s.setEvents rest) := by
  simp only [step, he]

/-- Settles O13: the two branches of the range test; inside DMEM the bytes are those of `Memory.writeBytes`. -/
theorem hostWriteChangesItsBytesOnly : Obligations.HostWriteChangesItsBytesOnly := by
  intro s a bytes rest he
  rw [step_of_hostWrite he]
  refine ⟨hostWriteEvent_of_outside _, fun hin hwf => ⟨_, hostWriteEvent_of_inside _ hin, rfl, ?_, ?_⟩⟩
  · intro j hj
    have hfit : a + bytes.length ≤ Config.hw.dmemSize :=
      hin.resolve_left (List.ne_nil_of_length_pos (Nat.zero_lt_of_lt hj))
    exact Memory.read_writeBytes_inside hwf a bytes hfit j hj
  · exact fun x hx => Memory.read_writeBytes_outside _ a x bytes hx

end Sys2Proof.Machine

/-! PROOFS. The machine's state (10_state.md): what reset leaves, the invariant every step keeps, and that no
register value the spec leaves unspecified ever shows. -/

namespace Sys2Proof.Machine

variable {c : Config} {s t : State}

/-! ### One step, event by event -/

theorem step_of_idle (he : s.events = []) : step s = .next s := by
  simp only [step, he]

theorem step_of_illegalPacket {p : Packet} {rest : List HostEvent} (he : s.events = .command p :: rest)
    (hd : ∀ i, decode p.toList ≠ .ok i) :
    step s = .next (raise .illegalCommand (s.setEvents rest)) := by
  cases hp : decode p.toList with
  | ok i => exact absurd hp (hd i)
  | error e => simp only [step, he, fetchCommand, hp]

theorem step_of_reset {rest : List HostEvent} (he : s.events = .reset :: rest) :
    step s = .next (resetEvent Config.hw (s.setEvents rest)) := by
  simp only [step, he]

theorem step_of_resetDuring {p : Packet} {rest : List HostEvent} (he : s.events = .resetDuring p :: rest) :
    step s = .next (abandonEvent Config.hw p (s.setEvents rest)) := by
  simp only [step, he]

/-- Settles O11: at power-up and at a later reset the control registers are written out, and the later reset
leaves DMEM alone. -/
theorem resetLeavesControlStateClear : Obligations.ResetLeavesControlStateClear :=
  ⟨⟨rfl, rfl, rfl, rfl⟩, fun _ _ he => ⟨_, step_of_reset he, rfl, rfl, rfl, rfl, rfl, rfl⟩⟩

/-! ### What a passed prologue says (R108) -/

theorem eq_configure_of_isConfigure {i : Instr} (h : isConfigure i = true) : ∃ r m, i = .configure r m := by
  cases i with
  | configure r m => exact ⟨r, m, rfl⟩
  | _ => cases h

/-- Every command but `configure` passes only in a configured core and an allowed phase. -/
theorem configured_and_allowed_of_prologue {i : Instr} (h : prologue c i s = none)
    (hi : isConfigure i = false) : s.cfgv = true ∧ allowedIn i s.macst = true := by
  obtain hconf | ⟨hcfgv, hallowed, -, -⟩ := prologue_eq_none.1 h
  · simp [hi] at hconf
  · exact ⟨hcfgv, hallowed⟩

theorem bufferIn_of_prologue {i : Instr} {a n : Word} (h : prologue c i s = none)
    (hb : bufferOf i = some (a, n)) : BufferIn c a n := by
  obtain hconf | ⟨-, -, -, hrange⟩ := prologue_eq_none.1 h
  · obtain ⟨r, m, rfl⟩ := eq_configure_of_isConfigure hconf
    cases hb
  · simpa [bufferInRange, hb] using hrange

theorem sessionOpen_of_isOpen (hc : s.cfgv = true) (h : s.macst.sessionOpen = true) : SessionOpen s := by
  refine ⟨hc, ?_⟩
  cases hm : s.macst <;> simp [hm, MacPhase.sessionOpen] at h ⊢

/-! ### `FeedbackRun` and the MAC bodies: what they leave alone (R131, R153 to R157) -/

/-- FeedbackRun neither reads nor writes the Derived Key Pair (R28, R131). -/
theorem feedbackRun_setDerived (mode : Mode) (dir : CipherDir) (a n : Word) (discard : Bool) (s : State)
    (d : Key × Key) : feedbackRun c mode dir a n discard (s.setDerived d) =
      (feedbackRun c mode dir a n discard s).setDerived d := rfl

/-- `MacUpdateBody` writes R, POS, REM and MACST, and leaves REM = 0 (R155). -/
theorem macUpdateBody_frame (c : Config) (a n : Word) (s : State) :
    ∃ r pos, macUpdateBody c a n s = { s with r := r, pos := pos, rem := 0, macst := .accumulating } := by
  obtain ⟨r, pos, m, hrun⟩ := feedbackRun_frame .cfb .enc true c a n s
  have hm : m = s.dmem := by
    have hdmem := feedbackRun_dmem_discard .cfb .enc c a n s
    rwa [hrun] at hdmem
  subst hm
  exact ⟨r, pos, by rw [macUpdateBody, hrun, State.setMacst]⟩

theorem macUpdateBody_setDerived (a n : Word) (s : State) (d : Key × Key) :
    macUpdateBody c a n (s.setDerived d) = (macUpdateBody c a n s).setDerived d := by
  rw [macUpdateBody, feedbackRun_setDerived]
  rfl

theorem macFinishBody_setDerived (s : State) (d : Key × Key) :
    macFinishBody c (s.setDerived d) = (macFinishBody c s).setDerived d := rfl

theorem macInitBody_sessionOpen (k : Key) (hc : s.cfgv = true) : SessionOpen (macInitBody c k s) :=
  ⟨hc, .inl rfl⟩

theorem macUpdateBody_cfgv (a n : Word) (s : State) : (macUpdateBody c a n s).cfgv = s.cfgv := by
  obtain ⟨r, pos, hbody⟩ := macUpdateBody_frame c a n s
  rw [hbody]

/-! ### The invariant, operation by operation -/

/-- In Uninitialized the invariant asks only for DMEM, REM and the response. -/
theorem inv_of_uninitialized (hm : s.macst = .uninitialized) (hwf : Memory.wf c s.dmem) (hrem : s.rem = 0)
    (hq : ∀ q, s.response = some q →
      (q.status ≠ .ok → q.bool = false ∧ q.tag = zeroBlock) ∧ (q.bool = true → q.tag = zeroBlock)) :
    Inv c s where
  dmem_wf := hwf
  rem_zero := hrem
  configured h := absurd hm h
  ready_start h := by simp [hm] at h
  finished_pos h := by simp [hm] at h
  session_schedule h := by simp [hm] at h
  response_form := hq

theorem inv_resetEvent (h : Memory.wf c s.dmem) : Inv c (resetEvent c s) :=
  inv_of_uninitialized rfl h rfl fun _ hq => by cases hq

namespace Inv

theorem setEvents (h : Inv c s) (es : List HostEvent) : Inv c (s.setEvents es) :=
  { h with }

theorem setDmem (h : Inv c s) {m : Memory} (hm : Memory.wf c m) : Inv c (s.setDmem m) :=
  { h with dmem_wf := hm }

theorem setRoundConfig (h : Inv c s) (r m : Byte) : Inv c (s.setRoundConfig r m) :=
  { h with configured := fun _ => rfl }

theorem raise (h : Inv c s) (e : Cause) : Inv c (raise e s) :=
  { h with response_form := by rintro q ⟨⟩; simp }

/-- An OK response is legal when it has not both BOOL = 1 and a tag (R80). -/
theorem respondOk (h : Inv c s) {v : Bool} {tag : Block} (hv : v = true → tag = zeroBlock) :
    Inv c (respondOk v tag s) :=
  { h with response_form := by rintro q ⟨⟩; simpa using hv }

/-- Outside a session no clause speaks of KS. -/
theorem setKs (h : Inv c s) (hclosed : s.macst.sessionOpen = false) (ks : Sched) : Inv c (s.setKs ks) :=
  { h with session_schedule := by rintro (hm | hm) <;> simp_all [MacPhase.sessionOpen] }

theorem ecbBody (h : Inv c s) (hclosed : s.macst.sessionOpen = false) {a n : Word} (hb : BufferIn c a n)
    (dir : Direction) (k : Key) : Inv c (ecbBody c dir k a n s) := by
  have hfit : n.toNat / 8 = 0 ∨ a.toNat + 8 * (n.toNat / 8) ≤ c.dmemSize := by
    rcases hb with rfl | hb
    · exact .inl rfl
    · exact .inr (by omega)
  exact ((h.setKs hclosed _).setDmem (ecbRun_wf dir _ _ h.dmem_wf hfit)).respondOk fun _ => rfl

theorem feedbackBody (h : Inv c s) {a n : Word} (hb : BufferIn c a n) (mode : Mode) (dir : CipherDir)
    (k : Key) (iv : Block) : Inv c (feedbackBody c mode dir k iv a n s) := by
  obtain ⟨r, pos, m, hrun⟩ := feedbackRun_frame mode dir false c a n (feedbackSeed c k iv s)
  have hwf := feedbackRun_wf mode dir false c a n (s := feedbackSeed c k iv s) h.dmem_wf hb
  rw [hrun] at hwf
  rw [Machine.feedbackBody, hrun]
  exact (inv_of_uninitialized rfl hwf rfl h.response_form).respondOk fun _ => rfl

theorem macInitBody (h : Inv c s) (hc : s.cfgv = true) (k : Key) : Inv c (macInitBody c k s) where
  dmem_wf := h.dmem_wf
  rem_zero := h.rem_zero
  configured _ := hc
  ready_start _ := ⟨rfl, rfl⟩
  finished_pos _ := rfl
  session_schedule _ := ⟨s.macRounds, rfl⟩
  response_form := h.response_form

theorem macUpdateBody (h : Inv c s) (ho : SessionOpen s) (a n : Word) : Inv c (macUpdateBody c a n s) := by
  obtain ⟨r, pos, hbody⟩ := macUpdateBody_frame c a n s
  rw [hbody]
  exact {
    dmem_wf := h.dmem_wf
    rem_zero := rfl
    configured := fun _ => ho.1
    ready_start := fun hm => by cases hm
    finished_pos := fun hm => by cases hm
    session_schedule := fun _ => h.session_schedule ho.2
    response_form := h.response_form }

theorem macFinishBody (h : Inv c s) (hc : s.cfgv = true) : Inv c (macFinishBody c s) where
  dmem_wf := h.dmem_wf
  rem_zero := h.rem_zero
  configured _ := hc
  ready_start hm := by cases hm
  finished_pos _ := rfl
  session_schedule hm := by rcases hm with hm | hm <;> cases hm
  response_form := h.response_form

theorem macWholeBody (h : Inv c s) (hc : s.cfgv = true) (k : Key) (a n : Word) :
    Inv c (macWholeBody c k a n s) := by
  have ho : SessionOpen (Machine.macInitBody c k s) := macInitBody_sessionOpen k hc
  have hu := (h.macInitBody hc k).macUpdateBody ho a n
  exact hu.macFinishBody ((macUpdateBody_cfgv a n _).trans ho.1)

theorem respondTag (h : Inv c s) : Inv c (respondTag s) :=
  h.respondOk fun hv => by cases hv

theorem respondComparison (h : Inv c s) (tag : Block) : Inv c (respondComparison tag s) :=
  h.respondOk fun _ => rfl

/-- The body of a command that passed its prologue keeps the invariant. -/
theorem bodyOf (h : Inv c s) {i : Instr} (hp : prologue c i s = none) : Inv c (bodyOf c i s) := by
  have hbuf {a n : Word} (hb : bufferOf i = some (a, n)) := bufferIn_of_prologue hp hb
  cases hi : isConfigure i with
  | true =>
    obtain ⟨r, m, rfl⟩ := eq_configure_of_isConfigure hi
    exact (h.setRoundConfig r m).respondOk fun _ => rfl
  | false =>
    obtain ⟨hc, ha⟩ := configured_and_allowed_of_prologue hp hi
    cases i with
    | configure r m => cases hi
    | ecbEncrypt k a n => exact h.ecbBody (by simpa [allowedIn] using ha) (hbuf rfl) .forward k
    | ecbDecrypt k a n => exact h.ecbBody (by simpa [allowedIn] using ha) (hbuf rfl) .inverse k
    | cfbEncrypt k v a n => exact h.feedbackBody (hbuf rfl) .cfb .enc k v
    | cfbDecrypt k v a n => exact h.feedbackBody (hbuf rfl) .cfb .dec k v
    | ofbEncrypt k v a n => exact h.feedbackBody (hbuf rfl) .ofb .enc k v
    | ofbDecrypt k v a n => exact h.feedbackBody (hbuf rfl) .ofb .dec k v
    | macInit k => exact (h.macInitBody hc k).respondOk fun _ => rfl
    | macUpdate a n => exact (h.macUpdateBody (sessionOpen_of_isOpen hc ha) a n).respondOk fun _ => rfl
    | macFinish => exact (h.macFinishBody hc).respondOk fun _ => rfl
    | macGet => exact h.respondTag
    | macCmp tag => exact h.respondComparison tag
    | macCompute k a n => exact (h.macWholeBody hc k a n).respondTag
    | macVerify k tag a n => exact (h.macWholeBody hc k a n).respondComparison tag

theorem runWith (h : Inv c s) (i : Instr) : Inv c (runWith c i s) := by
  obtain ⟨e, -, hr⟩ | ⟨hp, hr⟩ := runWith_cases c i s
  · exact hr ▸ h.raise e
  · exact hr ▸ h.bodyOf hp

end Inv

theorem abandonedDmem_wf (n : Nat) (p : Packet) (h : Memory.wf c s.dmem) :
    Memory.wf c (abandonedDmem c n p s) := by
  unfold abandonedDmem
  split
  · exact h
  · split
    next i _ _ _ a len hp hb =>
      refine tornBuffer_wf n _ _ _ h ?_
      rcases bufferIn_of_prologue hp hb with rfl | hfit
      · exact .inl rfl
      · exact .inr hfit
    next => exact h

/-- Settles O59, by the five things a step can do. -/
theorem everyStepKeepsTheInvariant : Obligations.EveryStepKeepsTheInvariant := by
  intro s t h hstep
  obtain ⟨-, rfl⟩ | ⟨rest, hcases⟩ := step_cases hstep
  · exact h
  have hrest := h.setEvents rest
  obtain ⟨p, i, -, -, hexec⟩ | ⟨p, -, -, rfl⟩ | ⟨a, bytes, -, hfit, rfl⟩ | ⟨-, rfl⟩ | ⟨p, -, rfl⟩ := hcases
  · rw [exec_eq_runWith, Host.Outcome.next.injEq] at hexec
    exact hexec ▸ hrest.runWith i
  · exact hrest.raise .illegalCommand
  · exact hrest.setDmem (Memory.wf_writeBytes h.dmem_wf a bytes hfit)
  · exact inv_resetEvent hrest.dmem_wf
  · exact inv_resetEvent (abandonedDmem_wf _ p hrest.dmem_wf)

/-- Settles O60: after power-up the phase is Uninitialized, DMEM lists nothing and nothing was answered. -/
theorem resetHoldsTheInvariant : Obligations.ResetHoldsTheInvariant :=
  inv_of_uninitialized rfl Memory.wf_nil rfl fun _ hq => by cases hq

/-! ### States no host can tell apart, operation by operation

The engines never read the Derived Key Pair, so what a command computes from states that agree elsewhere is the
same up to `State.setDerived`. -/

namespace SameToHost

theorem refl (s : State) : SameToHost s s :=
  ⟨rfl, rfl, rfl, rfl, rfl, rfl, rfl, fun _ => ⟨rfl, rfl⟩, fun _ => ⟨rfl, rfl, rfl⟩, fun _ => rfl⟩

/-- The Derived Key Pair never shows (R28). -/
theorem setDerived_right (s : State) (d : Key × Key) : SameToHost s (s.setDerived d) :=
  { refl s with }

theorem setEvents (h : SameToHost s t) (es : List HostEvent) : SameToHost (s.setEvents es) (t.setEvents es) :=
  { h with events := rfl }

theorem setDmem (h : SameToHost s t) (m : Memory) : SameToHost (s.setDmem m) (t.setDmem m) :=
  { h with dmem := rfl }

theorem setRoundConfig (h : SameToHost s t) (r m : Byte) :
    SameToHost (s.setRoundConfig r m) (t.setRoundConfig r m) :=
  { h with cfgv := rfl, rounds := fun _ => ⟨rfl, rfl⟩ }

theorem setKs (h : SameToHost s t) (ks : Sched) : SameToHost (s.setKs ks) (t.setKs ks) :=
  { h with session := fun hm => ⟨rfl, (h.session hm).2⟩ }

theorem raise (h : SameToHost s t) (e : Cause) : SameToHost (raise e s) (raise e t) :=
  { h with response := rfl }

theorem respondOk (h : SameToHost s t) (v : Bool) (tag : Block) :
    SameToHost (respondOk v tag s) (respondOk v tag t) :=
  { h with response := rfl }

theorem prologue_eq (h : SameToHost s t) (i : Instr) : prologue c i s = prologue c i t := by
  simp only [prologue, h.cfgv, h.macst]

/-- In a configured core the states differ at most in KS, the Derived Key Pair, R and POS. -/
theorem eq_of_configured (h : SameToHost s t) (hc : s.cfgv = true) :
    t = (((s.setKs t.ks).setDerived (t.dke, t.dkm)).setR t.r).setPos t.pos := by
  obtain ⟨hcfgv, hmacst, hrem, hdmem, hevents, hresponse, hresets, hrounds, -, -⟩ := h
  obtain ⟨hr, hm⟩ := hrounds hc
  cases s
  cases t
  simp_all [State.setKs, State.setDerived, State.setR, State.setPos]

/-- In an open session the states differ at most in the Derived Key Pair. -/
theorem eq_setDerived_of_sessionOpen (h : SameToHost s t) (ho : SessionOpen s) :
    t = s.setDerived (t.dke, t.dkm) := by
  obtain ⟨hks, hr, hpos⟩ := h.session ho.2
  have ht := h.eq_of_configured ho.1
  rwa [← hks, ← hr, ← hpos] at ht

theorem ecbBody (h : SameToHost s t) (hc : s.cfgv = true) (dir : Direction) (k : Key) (a n : Word) :
    SameToHost (ecbBody c dir k a n s) (ecbBody c dir k a n t) := by
  simp only [Machine.ecbBody, ← (h.rounds hc).1, ← h.dmem]
  exact ((h.setKs _).setDmem _).respondOk _ _

/-- `FeedbackCipher` seeds KS, R, POS and the phase itself (R134). -/
theorem feedbackSeed_eq (h : SameToHost s t) (hc : s.cfgv = true) (k : Key) (iv : Block) :
    feedbackSeed c k iv t = (feedbackSeed c k iv s).setDerived (t.dke, t.dkm) := by
  rw [h.eq_of_configured hc]
  rfl

theorem feedbackBody (h : SameToHost s t) (hc : s.cfgv = true) (mode : Mode) (dir : CipherDir) (k : Key)
    (iv : Block) (a n : Word) :
    SameToHost (feedbackBody c mode dir k iv a n s) (feedbackBody c mode dir k iv a n t) := by
  rw [Machine.feedbackBody, Machine.feedbackBody, h.feedbackSeed_eq hc, feedbackRun_setDerived]
  exact (setDerived_right _ _).respondOk _ _

/-- `MacInitBody` writes every register in which the states may differ (R153). -/
theorem macInitBody_eq (h : SameToHost s t) (hc : s.cfgv = true) (k : Key) :
    macInitBody c k s = macInitBody c k t := by
  rw [h.eq_of_configured hc]
  rfl

theorem macWholeBody_eq (h : SameToHost s t) (hc : s.cfgv = true) (k : Key) (a n : Word) :
    macWholeBody c k a n s = macWholeBody c k a n t := by
  rw [macWholeBody, h.macInitBody_eq hc, macWholeBody]

theorem macUpdateBody (h : SameToHost s t) (ho : SessionOpen s) (a n : Word) :
    SameToHost (macUpdateBody c a n s) (macUpdateBody c a n t) := by
  rw [h.eq_setDerived_of_sessionOpen ho, macUpdateBody_setDerived]
  exact setDerived_right _ _

theorem macFinishBody (h : SameToHost s t) (ho : SessionOpen s) :
    SameToHost (macFinishBody c s) (macFinishBody c t) := by
  rw [h.eq_setDerived_of_sessionOpen ho, macFinishBody_setDerived]
  exact setDerived_right _ _

/-- The body of a command that passed its prologue answers and leaves the same to the host. -/
theorem bodyOf (h : SameToHost s t) {i : Instr} (hp : prologue c i s = none) :
    SameToHost (bodyOf c i s) (bodyOf c i t) := by
  cases hi : isConfigure i with
  | true =>
    obtain ⟨r, m, rfl⟩ := eq_configure_of_isConfigure hi
    exact (h.setRoundConfig r m).respondOk _ _
  | false =>
    obtain ⟨hc, ha⟩ := configured_and_allowed_of_prologue hp hi
    have htag (hm : (s.macst == .finished) = true) : s.r = t.r := h.tag (by simpa using hm)
    cases i with
    | configure r m => cases hi
    | ecbEncrypt k a n => exact h.ecbBody hc .forward k a n
    | ecbDecrypt k a n => exact h.ecbBody hc .inverse k a n
    | cfbEncrypt k v a n => exact h.feedbackBody hc .cfb .enc k v a n
    | cfbDecrypt k v a n => exact h.feedbackBody hc .cfb .dec k v a n
    | ofbEncrypt k v a n => exact h.feedbackBody hc .ofb .enc k v a n
    | ofbDecrypt k v a n => exact h.feedbackBody hc .ofb .dec k v a n
    | macInit k => simp only [Machine.bodyOf, h.macInitBody_eq hc, refl]
    | macUpdate a n => exact (h.macUpdateBody (sessionOpen_of_isOpen hc ha) a n).respondOk _ _
    | macFinish => exact (h.macFinishBody (sessionOpen_of_isOpen hc ha)).respondOk _ _
    | macGet =>
      simp only [Machine.bodyOf, respondTag, htag ha]
      exact h.respondOk _ _
    | macCmp tag =>
      simp only [Machine.bodyOf, respondComparison, htag ha]
      exact h.respondOk _ _
    | macCompute k a n => simp only [Machine.bodyOf, h.macWholeBody_eq hc, refl]
    | macVerify k tag a n => simp only [Machine.bodyOf, h.macWholeBody_eq hc, refl]

theorem runWith (h : SameToHost s t) (i : Instr) : SameToHost (runWith c i s) (runWith c i t) := by
  cases hp : prologue c i s with
  | some e =>
    rw [runWith_of_some hp, runWith_of_some ((h.prologue_eq i).symm.trans hp)]
    exact h.raise e
  | none =>
    rw [runWith_of_none hp, runWith_of_none ((h.prologue_eq i).symm.trans hp)]
    exact h.bodyOf hp

/-- A reset leaves nothing in which the states may differ: its draws depend on its number only (R40). -/
theorem resetEvent_eq (h : SameToHost s t) : resetEvent c s = resetEvent c t := by
  simp only [resetEvent, h.resets, h.dmem, h.events]

theorem abandonedDmem_eq (h : SameToHost s t) (n : Nat) (p : Packet) :
    abandonedDmem c n p s = abandonedDmem c n p t := by
  simp only [abandonedDmem, h.prologue_eq, h.dmem, (h.runWith _).dmem]

theorem abandonEvent_eq (h : SameToHost s t) (p : Packet) : abandonEvent c p s = abandonEvent c p t := by
  rw [abandonEvent, h.resets, h.abandonedDmem_eq]
  exact (h.setDmem _).resetEvent_eq

end SameToHost

/-- Settles O58: the two states take the same event, and each of the five answers leaves them the same to the
host. -/
theorem unspecifiedValuesNeverShow : Obligations.UnspecifiedValuesNeverShow := by
  intro s t s' h hstep
  obtain ⟨he, rfl⟩ | ⟨rest, hcases⟩ := step_cases hstep
  · exact ⟨t, step_of_idle (h.events ▸ he), h⟩
  have hrest := h.setEvents rest
  rw [h.events] at hcases
  obtain ⟨p, i, he, hd, hexec⟩ | ⟨p, he, hd, rfl⟩ | ⟨a, bytes, he, hfit, rfl⟩ | ⟨he, rfl⟩ | ⟨p, he, rfl⟩ :=
    hcases
  · rw [exec_eq_runWith, Host.Outcome.next.injEq] at hexec
    refine ⟨_, (step_of_command he hd).trans (exec_eq_runWith i _), ?_⟩
    exact hexec ▸ hrest.runWith i
  · exact ⟨_, step_of_illegalPacket he hd, hrest.raise _⟩
  · refine ⟨_, (step_of_hostWrite he).trans (hostWriteEvent_of_inside _ hfit), ?_⟩
    rw [h.dmem]
    exact hrest.setDmem _
  · exact ⟨_, step_of_reset he, hrest.resetEvent_eq ▸ .refl _⟩
  · exact ⟨_, step_of_resetDuring he, hrest.abandonEvent_eq p ▸ .refl _⟩

end Sys2Proof.Machine

/-! PROOFS. The packets (30_encoding.md): the opcode map, the two round trips of the decoder and the encoder, the
illegal packets, and the response. -/

namespace Sys2Proof

/-! ### The rows of the opcode map (R75)

What the proofs need of the fourteen rows is read off the table once, here; after that a row is known by its
opcode. -/

theorem opcodeRows_map_op : opcodeRows.map Row.op = assignedOpcodes := rfl

theorem opcodeRows_map_op_nodup : (opcodeRows.map Row.op).Nodup := by decide

/-- A row leaves RND and MRND free, as the row of `configure` does, or fixes the whole header word. -/
theorem mask_and_match_of_mem : ∀ r ∈ opcodeRows,
    (r.op = 0x01 ∧ r.mask = 0xFF0000FF ∧ r.matchWord = 0x00000001) ∨
      (r.op ≠ 0x01 ∧ r.mask = 0xFFFFFFFF ∧ r.matchWord = le32 r.op 0 0 0) := by decide

/-- R74's table by formats and R77's by opcodes agree. -/
theorem format_uses_of_mem : ∀ r ∈ opcodeRows,
    r.format.usesBuffer = bufferOpcodes.contains r.op ∧ r.format.usesKey = keyOpcodes.contains r.op ∧
      r.format.usesAux = auxOpcodes.contains r.op := by decide

theorem row_eq_of_op_eq {r r' : Row} (hr : r ∈ opcodeRows) (hr' : r' ∈ opcodeRows) (h : r.op = r'.op) :
    r = r' :=
  List.inj_on_of_nodup_map opcodeRows_map_op_nodup hr hr' h

theorem mem_assignedOpcodes {op : Byte} : op ∈ assignedOpcodes ↔ ∃ r ∈ opcodeRows, r.op = op := by
  rw [← opcodeRows_map_op, List.mem_map]

/-- The header words a row selects, by bytes (R75). -/
theorem selects_header_iff {r : Row} (hr : r ∈ opcodeRows) (f : Fields) : r.selects f.header = true ↔
    f.op = r.op ∧ f.rsv = 0 ∧ (r.op = 0x01 ∨ (f.rnd = 0 ∧ f.mrnd = 0)) := by
  rw [Row.selects]
  obtain ⟨hop, hmask, hmatch⟩ | ⟨hop, hmask, hmatch⟩ := mask_and_match_of_mem r hr
  · rw [hmask, hmatch, Fields.header_configure, hop]
    tauto
  · obtain ⟨h0, h1, h2, h3⟩ := leByte_le32 r.op 0 0 0
    rw [hmask, hmatch, Fields.header_full, h0, h1, h2, h3]
    tauto

theorem format_unusedZero_eq {r : Row} (hr : r ∈ opcodeRows) {f : Fields} (h : f.op = r.op) :
    r.format.unusedZero f = f.unusedZero := by
  obtain ⟨hbuffer, hkey, haux⟩ := format_uses_of_mem r hr
  rw [Format.unusedZero, Fields.unusedZero, hbuffer, hkey, haux, h]

/-! ### Exclusive rows (R75) -/

/-- The four bytes of a header word as fields, the others zero. -/
def headerFields (h : Word) : Fields :=
  { Fields.ofOpcode (leByte h 0) with rnd := leByte h 1, mrnd := leByte h 2, rsv := leByte h 3 }

theorem header_headerFields (h : Word) : (headerFields h).header = h := le32_leByte h

/-- A row selects only header words with its own opcode. -/
theorem op_of_selects {r : Row} (hr : r ∈ opcodeRows) {h : Word} (hs : r.selects h = true) :
    r.op = leByte h 0 := by
  rw [← header_headerFields h] at hs
  exact ((selects_header_iff hr _).1 hs).1.symm

theorem row_eq_of_selects {r r' : Row} (hr : r ∈ opcodeRows) (hr' : r' ∈ opcodeRows) {h : Word}
    (hs : r.selects h = true) (hs' : r'.selects h = true) : r = r' :=
  row_eq_of_op_eq hr hr' ((op_of_selects hr hs).trans (op_of_selects hr' hs').symm)

theorem opcodeRows_nodup : opcodeRows.Nodup :=
  .of_map Row.op opcodeRows_map_op_nodup

/-- Settles O4: two rows that select one header word have its low byte as their opcode, and the opcodes are
distinct. -/
theorem opcodeRowsExclusive : Obligations.OpcodeRowsExclusive := by
  refine ⟨rfl, fun h i j hi hj => Fin.ext ?_⟩
  have hlen : opcodeRows.length = 14 := rfl
  rw [List.getElem?_eq_getElem (by omega), Option.any_some] at hi hj
  exact opcodeRows_nodup.getElem_inj_iff.1
    (row_eq_of_selects (List.getElem_mem _) (List.getElem_mem _) hi hj)

/-! ### What decodes (R76) -/

/-- The search for a row finds every row that selects the header word. -/
theorem find?_selects {r : Row} (hr : r ∈ opcodeRows) {h : Word} (hs : r.selects h = true) :
    opcodeRows.find? (fun r => r.selects h) = some r := by
  have hsome : (opcodeRows.find? (fun r => r.selects h)).isSome = true := List.find?_isSome.2 ⟨r, hr, hs⟩
  obtain ⟨r', hfind⟩ := Option.isSome_iff_exists.1 hsome
  have hs' := List.find?_some (p := fun r : Row => r.selects h) hfind
  rw [hfind, row_eq_of_selects (List.mem_of_find?_eq_some hfind) hr hs' hs]

/-- R76 steps (3) and (4), once a row selects the header word. -/
theorem decodeFields_of_selects {r : Row} (hr : r ∈ opcodeRows) {f : Fields}
    (hs : r.selects f.header = true) : decodeFields f =
      if r.format.unusedZero f then .ok (r.build f) else .error .unusedFieldNotZero := by
  rw [decodeFields, find?_selects hr hs]

/-- R76's procedure, row by row. -/
theorem decodeFields_eq_ok_iff {f : Fields} {i : Instr} : decodeFields f = .ok i ↔
    ∃ r ∈ opcodeRows, r.selects f.header = true ∧ r.format.unusedZero f = true ∧ r.build f = i := by
  constructor
  · intro h
    cases hfind : opcodeRows.find? (fun r => r.selects f.header) with
    | none =>
      rw [decodeFields, hfind] at h
      cases h
    | some r =>
      have hr := List.mem_of_find?_eq_some hfind
      have hs := List.find?_some (p := fun r : Row => r.selects f.header) hfind
      rw [decodeFields_of_selects hr hs] at h
      split at h
      next hz =>
        injection h with h
        exact ⟨r, hr, hs, hz, h⟩
      next => cases h
  · rintro ⟨r, hr, hs, hz, rfl⟩
    rw [decodeFields_of_selects hr hs, if_pos hz]

theorem wellFormed_iff (f : Fields) : f.wellFormed = true ↔
    f.op ∈ assignedOpcodes ∧ f.rsv = 0 ∧ (f.op = 0x01 ∨ (f.rnd = 0 ∧ f.mrnd = 0)) ∧
      f.unusedZero = true := by
  simp [Fields.wellFormed, Fields.opcodeAssigned, Fields.reservedZero, Fields.roundsUnused, and_assoc]

/-- The decoder's procedure (R76) accepts exactly what R77's clauses leave legal. -/
theorem decodeFields_ok_iff_wellFormed (f : Fields) :
    (∃ i, decodeFields f = .ok i) ↔ f.wellFormed = true := by
  rw [wellFormed_iff]
  constructor
  · rintro ⟨i, h⟩
    obtain ⟨r, hr, hs, hz, -⟩ := decodeFields_eq_ok_iff.1 h
    obtain ⟨hop, hrsv, hrounds⟩ := (selects_header_iff hr f).1 hs
    exact ⟨mem_assignedOpcodes.2 ⟨r, hr, hop.symm⟩, hrsv, hop ▸ hrounds, format_unusedZero_eq hr hop ▸ hz⟩
  · rintro ⟨hassigned, hrsv, hrounds, hz⟩
    obtain ⟨r, hr, hop⟩ := mem_assignedOpcodes.1 hassigned
    have hs := (selects_header_iff hr f).2 ⟨hop.symm, hrsv, hop ▸ hrounds⟩
    exact ⟨r.build f, decodeFields_eq_ok_iff.2 ⟨r, hr, hs, format_unusedZero_eq hr hop.symm ▸ hz, rfl⟩⟩

/-! ### The round trips (R76) -/

/-- Every command encodes to its row, by the lemma of each constructor. -/
theorem encodesToItsRow (i : Instr) : Laws.EncodesToItsRow.Statement i := by
  cases i with
  | configure r m => exact Laws.EncodesToItsRow.configure r m
  | ecbEncrypt k a n => exact Laws.EncodesToItsRow.ecbEncrypt k a n
  | ecbDecrypt k a n => exact Laws.EncodesToItsRow.ecbDecrypt k a n
  | cfbEncrypt k v a n => exact Laws.EncodesToItsRow.cfbEncrypt k v a n
  | cfbDecrypt k v a n => exact Laws.EncodesToItsRow.cfbDecrypt k v a n
  | ofbEncrypt k v a n => exact Laws.EncodesToItsRow.ofbEncrypt k v a n
  | ofbDecrypt k v a n => exact Laws.EncodesToItsRow.ofbDecrypt k v a n
  | macInit k => exact Laws.EncodesToItsRow.macInit k
  | macUpdate a n => exact Laws.EncodesToItsRow.macUpdate a n
  | macFinish => exact Laws.EncodesToItsRow.macFinish
  | macGet => exact Laws.EncodesToItsRow.macGet
  | macCmp t => exact Laws.EncodesToItsRow.macCmp t
  | macCompute k a n => exact Laws.EncodesToItsRow.macCompute k a n
  | macVerify k t a n => exact Laws.EncodesToItsRow.macVerify k t a n

theorem decodeFields_fields (i : Instr) : decodeFields i.fields = .ok i :=
  decodeFields_eq_ok_iff.2 (encodesToItsRow i)

theorem decode_encode (i : Instr) : decode (encode i).toList = .ok i := by
  rw [decode_toList, decodePacket, encode, assemble_packet, decodeFields_fields]

/-- Settles O1: a command's fields decode to it by its row, and what decodes is well formed. -/
theorem decodeInvertsEncode : Obligations.DecodeInvertsEncode := fun i =>
  ⟨(decodeFields_ok_iff_wellFormed i.fields).1 ⟨i, decodeFields_fields i⟩, decode_encode i⟩

/-- The fields a row's format uses, taken from `f`; its opcode; every other field zero (R74). -/
def Row.usedFields (r : Row) (f : Fields) : Fields where
  op := r.op
  rnd := if r.op = 0x01 then f.rnd else 0
  mrnd := if r.op = 0x01 then f.mrnd else 0
  rsv := 0
  addr := if r.format.usesBuffer then f.addr else 0
  len := if r.format.usesBuffer then f.len else 0
  key := if r.format.usesKey then f.key else zeroKey
  aux := if r.format.usesAux then f.aux else zeroBlock

/-- The command a row builds has exactly the row's used fields as its operands. -/
theorem fields_build (f : Fields) : ∀ r ∈ opcodeRows, (r.build f).fields = r.usedFields f := by
  simp only [opcodeRows, cipherRows, macRows, List.cons_append, List.nil_append, List.forall_mem_cons]
  exact ⟨rfl, rfl, rfl, rfl, rfl, rfl, rfl, rfl, rfl, rfl, rfl, rfl, rfl, rfl, List.forall_mem_nil _⟩

theorem format_unusedZero_iff (fm : Format) (f : Fields) : fm.unusedZero f = true ↔
    (fm.usesBuffer = true ∨ (f.addr = 0 ∧ f.len = 0)) ∧ (fm.usesKey = true ∨ f.key = zeroKey) ∧
      (fm.usesAux = true ∨ f.aux = zeroBlock) := by
  simp [Format.unusedZero, and_assoc]

/-- Fields that a row accepts have nothing but what the row uses: no bit is dropped. -/
theorem usedFields_eq_self {r : Row} (hr : r ∈ opcodeRows) {f : Fields} (hs : r.selects f.header = true)
    (hz : r.format.unusedZero f = true) : r.usedFields f = f := by
  obtain ⟨hop, hrsv, hrounds⟩ := (selects_header_iff hr f).1 hs
  obtain ⟨hbuffer, hkey, haux⟩ := (format_unusedZero_iff _ f).1 hz
  cases f
  simp only [Row.usedFields, Fields.mk.injEq, ite_eq_left_iff]
  exact ⟨hop.symm, fun h => (hrounds.resolve_left h).1.symm, fun h => (hrounds.resolve_left h).2.symm, hrsv.symm,
    fun h => (hbuffer.resolve_left h).1.symm, fun h => (hbuffer.resolve_left h).2.symm,
    fun h => (hkey.resolve_left h).symm, fun h => (haux.resolve_left h).symm⟩

theorem fields_of_decodeFields {f : Fields} {i : Instr} (h : decodeFields f = .ok i) : i.fields = f := by
  obtain ⟨r, hr, hs, hz, rfl⟩ := decodeFields_eq_ok_iff.1 h
  rw [fields_build f r hr, usedFields_eq_self hr hs hz]

/-- Settles O2: the decoded command's fields are the packet's, and a packet is its fields laid out. -/
theorem encodeInvertsDecode : Obligations.EncodeInvertsDecode := by
  intro p i h
  rw [decode_toList, decodePacket] at h
  rw [encode, fields_of_decodeFields h, packet_assemble]

/-! ### Illegal packets (R77, R202) -/

theorem le32_eq_zero_iff {a b c d : Byte} : le32 a b c d = 0 ↔ a = 0 ∧ b = 0 ∧ c = 0 ∧ d = 0 :=
  le32_eq_iff

/-- ADDR and LEN are zero when bytes 4 to 11 are (R71). -/
theorem assemble_buffer_eq_zero (p : Packet) : ((assemble p).addr = 0 ∧ (assemble p).len = 0) ↔
    ∀ j : Fin 36, 4 ≤ j.val → j.val < 12 → p[j] = 0 := by
  simp only [assemble, le32_eq_zero_iff]
  constructor
  · rintro ⟨⟨h4, h5, h6, h7⟩, h8, h9, h10, h11⟩ ⟨j, hj⟩ hlo hhi
    simp only at hlo hhi
    interval_cases j <;> assumption
  · intro h
    exact ⟨⟨h 4 (by decide) (by decide), h 5 (by decide) (by decide), h 6 (by decide) (by decide),
      h 7 (by decide) (by decide)⟩, h 8 (by decide) (by decide), h 9 (by decide) (by decide),
      h 10 (by decide) (by decide), h 11 (by decide) (by decide)⟩

/-- A byte sequence cut from a packet is zero when each of its bytes is. -/
theorem slice_eq_zero_iff (p : Packet) {a n : Nat} (h : a + n ≤ 36) :
    (Vector.ofFn fun i : Fin n => p[a + i.val]) = Vector.replicate n 0 ↔
      ∀ j : Fin 36, a ≤ j.val → j.val < a + n → p[j] = 0 := by
  rw [Vector.ext_iff]
  simp only [Vector.getElem_ofFn, Vector.getElem_replicate]
  constructor
  · intro hz j hlo hhi
    simpa [Nat.add_sub_cancel' hlo] using hz (j.val - a) (by omega)
  · intro hz i hi
    exact hz ⟨a + i, by omega⟩ (by simp) (by simpa using hi)

theorem assemble_key_eq_zero (p : Packet) : (assemble p).key = zeroKey ↔
    ∀ j : Fin 36, 12 ≤ j.val → j.val < 28 → p[j] = 0 :=
  slice_eq_zero_iff p (a := 12) (n := 16) (by decide)

theorem assemble_aux_eq_zero (p : Packet) : (assemble p).aux = zeroBlock ↔
    ∀ j : Fin 36, 28 ≤ j.val → p[j] = 0 :=
  (slice_eq_zero_iff p (a := 28) (n := 8) (by decide)).trans
    (forall_congr' fun j => by simp [j.isLt])

theorem fields_unusedZero_iff (f : Fields) : f.unusedZero = true ↔
    (f.op ∈ bufferOpcodes ∨ (f.addr = 0 ∧ f.len = 0)) ∧ (f.op ∈ keyOpcodes ∨ f.key = zeroKey) ∧
      (f.op ∈ auxOpcodes ∨ f.aux = zeroBlock) := by
  simp [Fields.unusedZero, and_assoc]

theorem decodes_iff_wellFormed (p : Packet) :
    (∃ i, decode p.toList = .ok i) ↔ (assemble p).wellFormed = true := by
  simp only [decode_toList, decodePacket, decodeFields_ok_iff_wellFormed]

/-- What is legal by R77, by byte positions. -/
theorem wellFormed_assemble_iff (p : Packet) : (assemble p).wellFormed = true ↔
    p[0] ∈ assignedOpcodes ∧ p[3] = 0 ∧ (p[0] = 0x01 ∨ (p[1] = 0 ∧ p[2] = 0)) ∧
      (p[0] ∈ bufferOpcodes ∨ ∀ j : Fin 36, 4 ≤ j.val → j.val < 12 → p[j] = 0) ∧
      (p[0] ∈ keyOpcodes ∨ ∀ j : Fin 36, 12 ≤ j.val → j.val < 28 → p[j] = 0) ∧
      (p[0] ∈ auxOpcodes ∨ ∀ j : Fin 36, 28 ≤ j.val → p[j] = 0) := by
  rw [wellFormed_iff, fields_unusedZero_iff, assemble_buffer_eq_zero, assemble_key_eq_zero,
    assemble_aux_eq_zero]
  rfl

/-- R77's clauses (a) to (d), (d) once for each field: the negation of what is legal. -/
theorem illegal_iff (p : Packet) : (∀ i, decode p.toList ≠ .ok i) ↔
    (p[0] ∉ assignedOpcodes ∨ p[3] ≠ 0 ∨ (p[0] ≠ 0x01 ∧ (p[1] ≠ 0 ∨ p[2] ≠ 0)) ∨
      (p[0] ∉ bufferOpcodes ∧ ∃ j : Fin 36, 4 ≤ j.val ∧ j.val < 12 ∧ p[j] ≠ 0) ∨
      (p[0] ∉ keyOpcodes ∧ ∃ j : Fin 36, 12 ≤ j.val ∧ j.val < 28 ∧ p[j] ≠ 0) ∨
      (p[0] ∉ auxOpcodes ∧ ∃ j : Fin 36, 28 ≤ j.val ∧ p[j] ≠ 0)) := by
  rw [← not_exists, decodes_iff_wellFormed, wellFormed_assemble_iff]
  simp only [not_and_or, not_or, not_forall, exists_prop, ne_eq]

/-- Settles O3: R77's clauses decide the packet, byte 0 rules the all-zero packet out, and an illegal packet only
raises IllegalCommand. -/
theorem illegalPacketsRefusedUnchanged : Obligations.IllegalPacketsRefusedUnchanged :=
  ⟨illegal_iff, (illegal_iff _).2 (.inl (by decide)), fun _ _ _ he hd => Machine.step_of_illegalPacket he hd⟩

/-- Settles O5: the decoder and the response layout, run on the worked bytes. -/
theorem workedPacketsDecode : Obligations.WorkedPacketsDecode :=
  ⟨rfl, rfl, rfl, rfl, rfl, rfl, rfl, rfl⟩

end Sys2Proof

namespace Sys2Proof.Machine

/-! ### The response packet (R80) -/

theorem Status.code_lt (st : Status) : st.code < 6 := by
  cases st with
  | ok => decide
  | error e => cases e <;> decide

theorem Response.statusWord_toNat (q : Response) :
    q.statusWord.toNat = q.status.code + 256 * q.bool.toNat := by
  have hcode := q.status.code_lt
  cases hb : q.bool <;> simp [Response.statusWord, hb] <;> omega

theorem Response.bytes_status (q : Response) (j : Fin 4) :
    q.bytes[j.val] = q.statusWord.extractLsb' (8 * j.val) 8 := by
  simp [Response.bytes]

theorem Response.bytes_tag (q : Response) (j : Fin 8) : q.bytes[4 + j.val] = q.tag[j.val] := by
  simp [Response.bytes]

/-- Settles O6: the status word is the number `STATUS + 256 * BOOL` with STATUS below 6. -/
theorem responsePacketLayout : Obligations.ResponsePacketLayout := by
  refine ⟨fun q => ?_, rfl, rfl, rfl, rfl, rfl, rfl⟩
  have hcode := q.status.code_lt
  have hword := q.statusWord_toNat
  have hbool := q.bool.toNat_le
  refine ⟨?_, BitVec.eq_of_toNat_eq ?_, ?_, BitVec.eq_of_toNat_eq ?_, q.bytes_status, q.bytes_tag⟩
  · simp only [BitVec.extractLsb'_toNat, hword, Nat.shiftRight_zero]
    omega
  · simp only [BitVec.extractLsb'_toNat, hword, Nat.shiftRight_eq_div_pow, BitVec.ofNat_eq_ofNat,
      BitVec.toNat_ofNat]
    omega
  · rw [BitVec.getLsbD, hword, Nat.testBit_eq_decide_div_mod_eq]
    cases q.bool <;> simp <;> omega
  · simp only [BitVec.extractLsb'_toNat, hword, Nat.shiftRight_eq_div_pow, BitVec.ofNat_eq_ofNat,
      BitVec.toNat_ofNat]
    omega

/-! ### BOOL and TAG (R80 to R82) -/

/-- Comparing all eight bytes is comparing the tags (R159). -/
theorem tagsEqual_eq_decide (t r : Block) : tagsEqual t r = decide (t = r) := by
  rw [Bool.eq_iff_iff, decide_eq_true_iff, Vector.ext_iff]
  simp only [tagsEqual, Bool.and_eq_true, beq_iff_eq]
  constructor
  · rintro ⟨⟨⟨⟨⟨⟨⟨h0, h1⟩, h2⟩, h3⟩, h4⟩, h5⟩, h6⟩, h7⟩ i hi
    interval_cases i <;> assumption
  · intro h
    simp [h]

/-- Settles O7: a raised error answers BOOL 0 and TAG zeros; past the prologue each body says what it answers. -/
theorem boolAndTagOfEveryResponse : Obligations.BoolAndTagOfEveryResponse := by
  intro c i s
  obtain ⟨e, -, hrun⟩ | ⟨-, hrun⟩ := runWith_cases c i s
  · exact ⟨_, hrun ▸ raise_response s e, rfl, rfl⟩
  · rw [hrun]
    cases i
    case macCmp t => exact ⟨_, rfl, tagsEqual_eq_decide _ _, rfl⟩
    case macVerify k t a n => exact ⟨_, rfl, tagsEqual_eq_decide _ _, rfl⟩
    all_goals exact ⟨_, rfl, rfl, rfl⟩

end Sys2Proof.Machine


/-! PROOFS. The Block Primitive and `configure` (40_primitive_and_config.md): what P-INV gives for every schedule,
and the whole next state of `configure`. -/

namespace Sys2Proof

/-! ### Consequences of P-INV (R103) -/

/-- There are finitely many blocks: a block is determined by its eight byte values. -/
theorem finite_block : Finite Block :=
  Finite.of_injective (fun (b : Block) (j : Fin 8) => b[j].toFin) fun _ _ h =>
    Vector.ext fun j hj => BitVec.toFin_inj.1 (congrFun h ⟨j, hj⟩)

namespace Config

variable {c : Config}

/-- P-INV (R102) in the library's words. -/
theorem PInv.leftInverse (h : c.PInv) (ks : Sched) :
    Function.LeftInverse (c.permute ks .inverse) (c.permute ks .forward) := h ks

/-- R103(a). -/
theorem PInv.forward_injective (h : c.PInv) (ks : Sched) : Function.Injective (c.permute ks .forward) :=
  (h.leftInverse ks).injective

/-- R103(b): an injective map of the finite set of blocks to itself is onto. -/
theorem PInv.forward_surjective (h : c.PInv) (ks : Sched) : Function.Surjective (c.permute ks .forward) :=
  have := finite_block
  Finite.surjective_of_injective (h.forward_injective ks)

/-- R103(c): since `forward` is onto, its left inverse is a right inverse too. -/
theorem PInv.forward_inverse (h : c.PInv) (ks : Sched) (b : Block) :
    c.permute ks .forward (c.permute ks .inverse b) = b :=
  (h.leftInverse ks).rightInverse_of_surjective (h.forward_surjective ks) b

end Config

/-- Settles O38: the three consequences of P-INV, of which the second turns on there being finitely many blocks. -/
theorem permutationInvertsBothWays : Obligations.PermutationInvertsBothWays :=
  fun _ h ks => ⟨h.forward_injective ks, h.forward_surjective ks, h.forward_inverse ks⟩

end Sys2Proof

namespace Sys2Proof.Machine

/-! ### `configure` (R110) -/

/-- `configure` makes none of the prologue's checks (R108). -/
@[simp] theorem prologue_configure (c : Config) (r m : Byte) (s : State) :
    prologue c (.configure r m) s = none :=
  prologue_eq_none.2 (.inl rfl)

/-- In every state `configure` runs its body. -/
@[simp] theorem runWith_configure (c : Config) (r m : Byte) (s : State) :
    runWith c (.configure r m) s = configureBody r m s :=
  runWith_of_none (prologue_configure c r m s)

/-- Settles O20: the prologue passes in every state, and the body writes ROUNDS, MACROUNDS, CFGV and the response. -/
theorem configureSetsRoundCounts : Obligations.ConfigureSetsRoundCounts := by
  intro s r m
  rw [exec_eq_runWith, runWith_configure]
  rfl

end Sys2Proof.Machine

/-! PROOFS. The ECB Executor (41_ecb.md): what the two ECB commands do to a buffer and what they leave alone, and that
a buffer may be split between two blocks. The two commands differ in the direction of the permutation only (R123), so
everything is proved once for either direction. -/

namespace Sys2Proof.Machine

variable {c : Config} {s : State} {dir : Direction} {k : Key} {a n : Word}

/-! ### The two ECB commands as one (R122, R123) -/

/-- The ECB command that permutes in the given direction. -/
def ecbCommand : Direction → Key → Word → Word → Instr
  | .forward => .ecbEncrypt
  | .inverse => .ecbDecrypt

@[simp] theorem allowedIn_ecbCommand (p : MacPhase) : allowedIn (ecbCommand dir k a n) p = !p.sessionOpen := by
  cases dir <;> rfl

@[simp] theorem lengthOk_ecbCommand : lengthOk (ecbCommand dir k a n) = (n.toNat % 8 == 0) := by
  cases dir <;> rfl

@[simp] theorem bufferInRange_ecbCommand : bufferInRange c (ecbCommand dir k a n) = inRange c a n := by
  cases dir <;> rfl

@[simp] theorem bodyOf_ecbCommand : bodyOf c (ecbCommand dir k a n) s = ecbBody c dir k a n s := by
  cases dir <;> rfl

/-- The prologue passes: R108's four checks hold. -/
theorem runWith_ecbCommand (h : Ready s) (hlen : n.toNat % 8 = 0) (hb : BufferIn c a n) :
    runWith c (ecbCommand dir k a n) s = ecbBody c dir k a n s := by
  have hp : prologue c (ecbCommand dir k a n) s = none :=
    h.prologue_eq_none (by simp) (by simpa using hlen) (by simpa using hb)
  rw [runWith_of_none hp, bodyOf_ecbCommand]

/-! ### The buffer and its frame (R121) -/

/-- The blocks of a buffer are inside DMEM, if it has any. -/
theorem BufferIn.blocks_fit (hb : BufferIn c a n) :
    n.toNat / 8 = 0 ∨ a.toNat + 8 * (n.toNat / 8) ≤ c.dmemSize := by
  rcases hb with rfl | hb
  · exact .inl rfl
  · exact .inr (by omega)

theorem ecbBody_readBlock (hb : BufferIn c a n) (hwf : Memory.wf c s.dmem) {j : Nat} (hj : j < n.toNat / 8) :
    Memory.readBlock c (ecbBody c dir k a n s).dmem (a.toNat + 8 * j) =
      c.permute (c.initSchedule k s.rounds) dir (Memory.readBlock c s.dmem (a.toNat + 8 * j)) :=
  ecbRun_readBlock _ _ _ _ hwf hb.blocks_fit hj

theorem ecbBody_read_outside {x : Nat} (hx : x < a.toNat ∨ a.toNat + n.toNat ≤ x) :
    Memory.read c (ecbBody c dir k a n s).dmem x = Memory.read c s.dmem x :=
  ecbRun_read_outside _ _ _ _ (by omega)

/-- From a ready state an ECB command answers the state of its body (R122, R123). -/
theorem exec_ecbCommand_mapsBlocks (dir : Direction) (s : State) (k : Key) (a n : Word) (h : Ready s)
    (hlen : n.toNat % 8 = 0) (hb : BufferIn Config.hw a n) (hwf : Memory.wf Config.hw s.dmem) :
    ∃ t, exec (ecbCommand dir k a n) s = .next t ∧
      t = { s with ks := Config.hw.initSchedule k s.rounds, dmem := t.dmem,
                   response := some ⟨.ok, true, zeroBlock⟩ } ∧
      (∀ j, j < n.toNat / 8 → Memory.readBlock Config.hw t.dmem (a.toNat + 8 * j) =
        Config.hw.permute (Config.hw.initSchedule k s.rounds) dir
          (Memory.readBlock Config.hw s.dmem (a.toNat + 8 * j))) ∧
      (∀ x, (x < a.toNat ∨ a.toNat + n.toNat ≤ x) →
        Memory.read Config.hw t.dmem x = Memory.read Config.hw s.dmem x) := by
  refine ⟨ecbBody Config.hw dir k a n s, ?_, rfl, ?_, ?_⟩
  · rw [exec_eq_runWith, runWith_ecbCommand h hlen hb]
  · exact fun _ hj => ecbBody_readBlock hb hwf hj
  · exact fun _ hx => ecbBody_read_outside hx

/-- Settles O21: the ECB command of the direction `forward`. -/
theorem ecbEncryptMapsBlocksForward : Obligations.EcbEncryptMapsBlocksForward :=
  exec_ecbCommand_mapsBlocks .forward

/-- Settles O22: the ECB command of the direction `inverse`. -/
theorem ecbDecryptMapsBlocksInverse : Obligations.EcbDecryptMapsBlocksInverse :=
  exec_ecbCommand_mapsBlocks .inverse

/-! ### Splitting a buffer between blocks (R126) -/

/-- A run of `i` blocks and one of the `j` blocks after them are one run. A run of no block may stand at any
address. -/
theorem ecbRun_add (ks : Sched) {i j p q : Nat} (m : Memory) (hq : j = 0 ∨ q = p + 8 * i) :
    ecbRun c ks dir j q (ecbRun c ks dir i p m) = ecbRun c ks dir (i + j) p m := by
  induction i generalizing p m with
  | zero =>
    rcases hq with rfl | rfl
    · rfl
    · rw [ecbRun_zero, Nat.zero_add]
  | succ i ih =>
    rw [ecbRun_succ, ih _ (by omega), Nat.succ_add, ecbRun_succ]

/-- An ECB command leaves CFGV and MACST alone (R122). -/
theorem ecbBody_ready (h : Ready s) : Ready (ecbBody c dir k a n s) := h

/-- The second body finds ROUNDS unchanged, so it runs with the same schedule. -/
theorem ecbBody_ecbBody {b n' l : Word} (hl : l.toNat / 8 = n.toNat / 8 + n'.toNat / 8)
    (hb : n'.toNat / 8 = 0 ∨ b.toNat = a.toNat + 8 * (n.toNat / 8)) :
    ecbBody c dir k b n' (ecbBody c dir k a n s) = ecbBody c dir k a l s := by
  have hrun := ecbRun_add (c := c) (dir := dir) (c.initSchedule k s.rounds) s.dmem hb
  rw [← hl] at hrun
  exact congrArg (fun m => respondOk true zeroBlock ((s.setKs (c.initSchedule k s.rounds)).setDmem m)) hrun

/-- The address `a + n1` wraps to 0 only where the second buffer is empty: there DMEM ends at 2^32. -/
theorem runAll_ecbCommand_split (dir : Direction) {n1 n2 : Word} (h : Ready s) (h1 : n1.toNat % 8 = 0)
    (h2 : n2.toNat % 8 = 0) (hn : n1.toNat + n2.toNat < 2 ^ 32)
    (hfit : a.toNat + n1.toNat + n2.toNat ≤ c.dmemSize) :
    runAll c [ecbCommand dir k a n1, ecbCommand dir k (a + n1) n2] s =
      runWith c (ecbCommand dir k a (n1 + n2)) s := by
  have hsize : c.dmemSize ≤ 2 ^ 32 := c.dmemTop.isLt
  have hsum : (n1 + n2).toNat = n1.toNat + n2.toNat := BitVec.toNat_add_of_lt hn
  have haddr : n2 = 0 ∨ (a + n1).toNat = a.toNat + n1.toNat := by
    rcases eq_or_ne n2 0 with h0 | h0
    · exact .inl h0
    · have hpos : n2.toNat ≠ 0 := fun hz => h0 (BitVec.eq_of_toNat_eq hz)
      exact .inr (BitVec.toNat_add_of_lt (by omega))
  have hin1 : BufferIn c a n1 := .inr (by omega)
  have hin2 : BufferIn c (a + n1) n2 := haddr.imp_right fun h => by omega
  have hin : BufferIn c a (n1 + n2) := .inr (by omega)
  rw [runAll, runAll, runAll, runWith_ecbCommand h h1 hin1, runWith_ecbCommand (ecbBody_ready h) h2 hin2,
    runWith_ecbCommand h (by omega) hin]
  refine ecbBody_ecbBody (by omega) ?_
  rcases haddr with rfl | haddr
  · exact .inl rfl
  · exact .inr (by omega)

/-- Settles O36, by direction. -/
theorem ecbSplitsAtBlocks : Obligations.EcbSplitsAtBlocks := by
  intro c s k a n1 n2 enc h h1 h2 hn hfit
  cases enc with
  | true => exact runAll_ecbCommand_split .forward h h1 h2 hn hfit
  | false => exact runAll_ecbCommand_split .inverse h h1 h2 hn hfit

end Sys2Proof.Machine

/-! PROOFS. The Feedback Engine (42_feedback.md): the chunk loop of R131 is the byte loop of R143, which makes the
splitting law immediate (R144). -/

namespace Sys2Proof.Machine

variable {c : Config} {s : State} {mode : Mode} {dir : CipherDir} {discard : Bool}

/-! ### One byte (R143) -/

/-- The keystream block that the next byte of the state uses: a new one iff `POS == 0` (R143). -/
def State.keystream (c : Config) (s : State) : Block :=
  if s.pos = 0 then c.permute s.ks .forward s.r else s.r

/-- A byte is XORed and fed back as a chunk of one byte is (R143). -/
theorem byteStep_eq (p : Nat) : byteStep c mode dir discard p s =
    let x := Memory.read c s.dmem p
    let y := x ^^^ (s.keystream c)[s.pos.val]
    { s with
      r := feedBack mode dir (s.keystream c) s.pos.val [x] [y]
      pos := s.pos + 1
      dmem := if discard then s.dmem else Memory.write c s.dmem p y } := by
  cases mode with
  | ofb => rfl
  | cfb => cases dir <;> simp only [feedBack, overwrite_cons _ s.pos.isLt, overwrite_nil] <;> rfl

theorem byteStep_r (p : Nat) : (byteStep c mode dir discard p s).r =
    feedBack mode dir (s.keystream c) s.pos.val [Memory.read c s.dmem p]
      [Memory.read c s.dmem p ^^^ (s.keystream c)[s.pos.val]] := by
  rw [byteStep_eq]

theorem byteStep_dmem (p : Nat) : (byteStep c mode dir discard p s).dmem =
    if discard then s.dmem
    else Memory.write c s.dmem p (Memory.read c s.dmem p ^^^ (s.keystream c)[s.pos.val]) := rfl

theorem byteStep_pos_of_lt (p : Nat) (h : s.pos.val + 1 < 8) :
    (byteStep c mode dir discard p s).pos.val = s.pos.val + 1 :=
  Fin.val_add_one_of_lt' h

/-- Short of a block boundary the next byte takes its keystream from R as this byte leaves it. -/
theorem keystream_byteStep (p : Nat) (h : s.pos.val + 1 < 8) :
    (byteStep c mode dir discard p s).keystream c = (byteStep c mode dir discard p s).r := by
  have hpos : (byteStep c mode dir discard p s).pos ≠ 0 := fun h0 => by
    have := byteStep_pos_of_lt (c := c) (mode := mode) (dir := dir) (discard := discard) p h
    simp [h0] at this
  rw [State.keystream, if_neg hpos]

theorem byteStep_readBytes_above (p m : Nat) :
    Memory.readBytes c (byteStep c mode dir discard p s).dmem (p + 1) m = Memory.readBytes c s.dmem (p + 1) m := by
  cases discard with
  | true => rfl
  | false => exact Memory.readBytes_write_below _ _ _ (Nat.lt_succ_self p)

/-! ### The chunk loop and the byte loop (R131, R143) -/

/-- Feeding a chunk back is feeding back its first byte, then the rest one place on. -/
theorem feedBack_cons (r : Block) {p : Nat} (hp : p < 8) (x y : Byte) (xs ys : List Byte) :
    feedBack mode dir r p (x :: xs) (y :: ys) =
      feedBack mode dir (feedBack mode dir r p [x] [y]) (p + 1) xs ys := by
  cases mode with
  | ofb => rfl
  | cfb => cases dir <;> simp only [feedBack, overwrite_cons _ hp, overwrite_nil]

/-- Feeding a byte back leaves the keystream bytes after it. -/
theorem drop_feedBack_succ (r : Block) {p : Nat} (hp : p < 8) (x y : Byte) :
    (feedBack mode dir r p [x] [y]).toList.drop (p + 1) = r.toList.drop (p + 1) := by
  cases mode with
  | ofb => rfl
  | cfb => cases dir <;> simp only [feedBack, overwrite_cons _ hp, overwrite_nil, drop_set_succ]

/-- One chunk of `m` bytes at address `p`, as a step of the state (R131). -/
def chunkStep (c : Config) (mode : Mode) (dir : CipherDir) (discard : Bool) (m p : Nat) (s : State) : State :=
  let inp := Memory.readBytes c s.dmem p m
  let out := xorBytes inp ((s.keystream c).toList.drop s.pos.val)
  { s with
    r := feedBack mode dir (s.keystream c) s.pos.val inp out
    pos := Fin.ofNat 8 (s.pos.val + m)
    dmem := if discard then s.dmem else Memory.writeBytes c s.dmem p out }

/-- A chunk of one byte is a step of the byte loop. -/
theorem chunkStep_one (p : Nat) : chunkStep c mode dir discard 1 p s = byteStep c mode dir discard p s := by
  have hpos : Fin.ofNat 8 (s.pos.val + 1) = s.pos + 1 := by
    ext
    simp [Fin.val_add]
  simp only [chunkStep, byteStep_eq, Memory.readBytes, xorBytes_cons_drop _ s.pos.isLt, hpos]
  rfl

/-- A chunk that stays inside its block is its first byte, then the rest of it. -/
theorem chunkStep_succ {m : Nat} (hm : 0 < m) (p : Nat) (h : s.pos.val + m < 8) :
    chunkStep c mode dir discard (m + 1) p s =
      chunkStep c mode dir discard m (p + 1) (byteStep c mode dir discard p s) := by
  have h8 : s.pos.val < 8 := s.pos.isLt
  have h1 : s.pos.val + 1 < 8 := by omega
  conv_rhs => rw [chunkStep]
  simp only [keystream_byteStep _ h1, byteStep_r, byteStep_readBytes_above, byteStep_pos_of_lt _ h1,
    drop_feedBack_succ _ h8, ← feedBack_cons _ h8, ← xorBytes_cons_drop _ h8]
  simp only [chunkStep, Memory.readBytes, byteStep_dmem, Nat.add_assoc, Nat.add_comm 1 m, xorBytes_cons_drop _ h8]
  cases discard <;> rfl

/-- A chunk that stays inside its block is its bytes one after another (R143). -/
theorem byteRun_eq_chunkStep {m : Nat} (hm : 0 < m) (p : Nat) (h : s.pos.val + m ≤ 8) :
    byteRun c mode dir discard m p s = chunkStep c mode dir discard m p s := by
  induction m, hm using Nat.le_induction generalizing p s with
  | base => exact (chunkStep_one p).symm
  | succ m hm ih =>
    have hpos := byteStep_pos_of_lt (c := c) (mode := mode) (dir := dir) (discard := discard) (s := s) p (by omega)
    rw [byteRun, ih _ (by omega), chunkStep_succ hm p (by omega)]

/-- The state with the engine's R, POS and DMEM. -/
def Engine.into (e : Engine) (s : State) : State := { s with r := e.r, pos := e.pos, dmem := e.dmem }

/-- The chunk of the engine's loop is the chunk of the state. -/
theorem feedbackChunk_into (e : Engine) (s : State) :
    (feedbackChunk c s.ks mode dir discard e).into s =
      chunkStep c mode dir discard (chunkLength e) e.ptr (e.into s) := rfl

/-- The engine's loop is the byte loop over what is left of the buffer, as each of its chunks is (R143). -/
theorem feedbackLoop_into (fuel : Nat) (e : Engine) (s : State) (h : e.rem.toNat ≤ fuel) :
    (feedbackLoop c s.ks mode dir discard fuel e).into s =
      byteRun c mode dir discard e.rem.toNat e.ptr (e.into s) := by
  induction fuel generalizing e with
  | zero => rw [Nat.le_zero.1 h]; rfl
  | succ fuel ih =>
    rw [feedbackLoop]
    split_ifs with h0
    · rw [h0]; rfl
    · have hpos := chunkLength_pos h0
      have hrem := chunkLength_le_rem e
      have hblock : e.pos.val + chunkLength e ≤ 8 := by
        have := chunkLength_le_pos e
        omega
      rw [ih _ (by rw [feedbackChunk_rem]; omega), feedbackChunk_into, feedbackChunk_rem, feedbackChunk_ptr,
        ← byteRun_eq_chunkStep hpos _ hblock, ← byteRun_add, Nat.add_sub_cancel' hrem]

/-- Settles O33: the loop entered at the start of the buffer, with the REM it ends with. -/
theorem feedbackRunEqualsByteRun : Obligations.FeedbackRunEqualsByteRun := by
  intro c mode dir a n discard s
  have hrem : (feedbackEngine c mode dir a n discard s).rem = 0 := feedbackLoop_rem _ _ le_rfl
  have hinto : (feedbackEngine c mode dir a n discard s).into s = byteRun c mode dir discard n.toNat a.toNat s :=
    feedbackLoop_into _ (engineStart a n s) s le_rfl
  rw [← hinto, ← hrem]
  rfl

/-! ### Splitting a run (R144) -/

/-- The byte loop neither reads nor writes REM (R143). -/
theorem byteRun_setRem (m p : Nat) (s : State) (v : Word) :
    byteRun c mode dir discard m p (s.setRem v) = (byteRun c mode dir discard m p s).setRem v := by
  induction m generalizing p s with
  | zero => rfl
  | succ m ih => exact ih (p + 1) (byteStep c mode dir discard p s)

/-- The address where the second part of a buffer begins wraps only if that part is empty, when the buffer ends with
the address space. -/
theorem eq_zero_or_toNat_add_of_inside {a n1 n2 : Word} (h : a.toNat + n1.toNat + n2.toNat ≤ 2 ^ 32) :
    n2 = 0 ∨ (a + n1).toNat = a.toNat + n1.toNat := by
  refine or_iff_not_imp_left.2 fun hne => BitVec.toNat_add_of_lt ?_
  have hpos : n2.toNat ≠ 0 := fun h0 => hne (BitVec.eq_of_toNat_eq h0)
  omega

/-- Settles O34: the byte loop over `n1 + n2` bytes is the loop over `n1`, then the loop over `n2`. -/
theorem feedbackRunSplits : Obligations.FeedbackRunSplits := by
  intro c mode dir a n1 n2 discard s haddr hlen
  have hrun : ∀ a n s, feedbackRun c mode dir a n discard s =
      (byteRun c mode dir discard n.toNat a.toNat s).setRem 0 := fun a n =>
    feedbackRunEqualsByteRun c mode dir a n discard
  rw [hrun, hrun, hrun, byteRun_setRem, BitVec.toNat_add_of_lt hlen, byteRun_add]
  rcases eq_zero_or_toNat_add_of_inside haddr with rfl | hwrap
  · rfl
  · rw [hwrap]
    rfl

end Sys2Proof.Machine

/-! PROOFS. The four stream commands (R132 to R139), read off the byte loop entered at a block boundary with the IV in
R. A command is its mode and its direction (R134), so what the commands share is proved once. -/

namespace Sys2Proof.Machine

variable {c : Config} {s : State} {mode : Mode} {dir : CipherDir} {discard : Bool} {k : Key} {iv : Block} {a n : Word}

/-! ### Keystream and output bytes of a run -/

/-- A run entered at a block boundary begins a new keystream block at every multiple of 8 bytes (R132). -/
theorem keystream_byteRun (j p : Nat) (h0 : s.pos = 0) :
    (byteRun c mode dir discard j p s).keystream c =
      if j % 8 = 0 then c.permute s.ks .forward (byteRun c mode dir discard j p s).r
      else (byteRun c mode dir discard j p s).r := by
  have hpos := byteRun_pos (c := c) mode dir discard j p h0
  simp only [State.keystream, Fin.ext_iff, hpos, byteRun_ks, Fin.val_zero]

/-- The byte at offset `j` leaves the run XORed with its byte of the keystream in force when the run reaches it. -/
theorem byteRun_read {m p j : Nat} (hwf : Memory.wf c s.dmem) (hfit : p + m ≤ c.dmemSize) (h0 : s.pos = 0)
    (hj : j < m) :
    Memory.read c (byteRun c mode dir false m p s).dmem (p + j) =
      Memory.read c s.dmem (p + j) ^^^ ((byteRun c mode dir false j p s).keystream c)[j % 8] := by
  have hpos := byteRun_pos (c := c) mode dir false j p h0
  obtain ⟨l, rfl⟩ := Nat.exists_eq_add_of_le (show j + 1 ≤ m from hj)
  rw [byteRun_add, byteRun_read_outside _ _ _ _ _ (.inl (by omega)), byteRun_succ, byteStep_dmem]
  simp only [Bool.false_eq_true, if_false, hpos]
  rw [Memory.read_write_same (byteRun_wf _ _ _ _ hwf (by omega)), byteRun_read_outside _ _ _ _ _ (.inr (by omega))]

/-! ### The register of an OFB run (R132, R137) -/

/-- In OFB the register is the last keystream block, whatever the data. -/
theorem byteRun_ofb_r (j p : Nat) (h0 : s.pos = 0) :
    (byteRun c .ofb dir discard j p s).r = ofbBlock c s.ks s.r ((j + 7) / 8) := by
  induction j with
  | zero => rfl
  | succ j ih =>
    rw [byteRun_succ, byteStep_r, feedBack, keystream_byteRun j p h0, ih]
    split_ifs with hj
    · rw [show (j + 1 + 7) / 8 = (j + 7) / 8 + 1 by omega, ofbBlock]
    · rw [show (j + 1 + 7) / 8 = (j + 7) / 8 by omega]

theorem keystream_byteRun_ofb (j p : Nat) (h0 : s.pos = 0) :
    (byteRun c .ofb dir discard j p s).keystream c = ofbBlock c s.ks s.r (j / 8 + 1) := by
  have hnext := byteRun_ofb_r (c := c) (dir := dir) (discard := discard) (j + 1) p h0
  rwa [byteRun_succ, byteStep_r, feedBack, show (j + 1 + 7) / 8 = j / 8 + 1 by omega] at hnext

/-! ### The register of a CFB run (R132, R135, R136, R141) -/

/-- The memory that holds a buffer's ciphertext: the one after encrypting, the one before decrypting (R133). -/
def ciphertextOf : CipherDir → (before after : Memory) → Memory
  | .enc, _, after => after
  | .dec, before, _ => before

/-- The keystream block in force after `j` bytes of a CFB run from address `p`: `E` of the ciphertext block before it,
under the ciphertext bytes of its own block so far (R132, R141). -/
def cfbKeystream (c : Config) (ks : Sched) (cipher : Memory) (iv : Block) (p j : Nat) : Block :=
  Vector.ofFn fun i : Fin 8 =>
    if i.val < j % 8 then Memory.read c cipher (p + 8 * (j / 8) + i.val)
    else (c.permute ks .forward (cfbChain c cipher iv p (j / 8)))[i.val]

theorem cfbKeystream_getElem {ks : Sched} {cipher : Memory} {p j i : Nat} (hi : i < 8) :
    (cfbKeystream c ks cipher iv p j)[i] =
      if i < j % 8 then Memory.read c cipher (p + 8 * (j / 8) + i)
      else (c.permute ks .forward (cfbChain c cipher iv p (j / 8)))[i] := by
  simp [cfbKeystream]

/-- The byte that byte `j` of the data is XORed with has not been overwritten by ciphertext. -/
theorem cfbKeystream_getElem_mod (ks : Sched) (cipher : Memory) (p j : Nat) :
    (cfbKeystream c ks cipher iv p j)[j % 8] = (c.permute ks .forward (cfbChain c cipher iv p (j / 8)))[j % 8] := by
  rw [cfbKeystream_getElem, if_neg (lt_irrefl _)]

theorem cfbKeystream_of_whole (ks : Sched) (cipher : Memory) (p : Nat) {j : Nat} (hj : j % 8 = 0) :
    cfbKeystream c ks cipher iv p j = c.permute ks .forward (cfbChain c cipher iv p (j / 8)) :=
  Vector.ext fun i hi => by simp [cfbKeystream_getElem, hj]

/-- The ciphertext byte that ends a block leaves the ciphertext block, the next to be permuted. -/
theorem cfbKeystream_set_of_whole (ks : Sched) (cipher : Memory) (p : Nat) {j : Nat} (hj : (j + 1) % 8 = 0) :
    (cfbKeystream c ks cipher iv p j).set (j % 8) (Memory.read c cipher (p + j)) =
      cfbChain c cipher iv p ((j + 1) / 8) := by
  refine Vector.ext fun i hi => ?_
  rw [cfbChain, if_neg (by omega), Memory.readBlock_getElem _ _ _ hi, Vector.getElem_set, cfbKeystream_getElem hi]
  split_ifs with h1 h2
  · congr 1; omega
  · congr 1; omega
  · omega

/-- The ciphertext byte takes its place under the keystream bytes not yet used (R141). -/
theorem cfbKeystream_set_of_tail (ks : Sched) (cipher : Memory) (p : Nat) {j : Nat} (hj : (j + 1) % 8 ≠ 0) :
    (cfbKeystream c ks cipher iv p j).set (j % 8) (Memory.read c cipher (p + j)) =
      cfbKeystream c ks cipher iv p (j + 1) := by
  refine Vector.ext fun i hi => ?_
  have hq : (j + 1) / 8 = j / 8 := by omega
  rw [Vector.getElem_set, cfbKeystream_getElem hi, cfbKeystream_getElem hi, hq]
  rcases lt_trichotomy i (j % 8) with hlt | heq | hgt
  · rw [if_neg (by omega), if_pos hlt, if_pos (by omega)]
  · rw [if_pos heq.symm, if_pos (by omega)]
    congr 1; omega
  · rw [if_neg (by omega), if_neg (by omega), if_neg (by omega)]

/-- In the run over `m` bytes from `p` the memory `cipher` holds the bytes fed back to the register. -/
def FeedsBack (c : Config) (dir : CipherDir) (cipher : Memory) (m p : Nat) (s : State) : Prop :=
  ∀ j, j < m → (byteRun c .cfb dir false (j + 1) p s).r =
    ((byteRun c .cfb dir false j p s).keystream c).set (j % 8) (Memory.read c cipher (p + j))

/-- "In CFB the register always receives ciphertext" (R133). -/
theorem feedsBack_ciphertext {m p : Nat} (hwf : Memory.wf c s.dmem) (hfit : m = 0 ∨ p + m ≤ c.dmemSize)
    (h0 : s.pos = 0) :
    FeedsBack c dir (ciphertextOf dir s.dmem (byteRun c .cfb dir false m p s).dmem) m p s := by
  intro j hj
  have hpos := byteRun_pos (c := c) .cfb dir false j p h0
  have hin : Memory.read c (byteRun c .cfb dir false j p s).dmem (p + j) = Memory.read c s.dmem (p + j) :=
    byteRun_read_outside _ _ _ _ _ (.inr le_rfl)
  rw [byteRun_succ, byteStep_r, hin]
  cases dir with
  | enc =>
    simp only [ciphertextOf, byteRun_read hwf (hfit.resolve_left (by omega)) h0 hj, feedBack, hpos,
      overwrite_cons _ (Nat.mod_lt j (by decide)), overwrite_nil]
  | dec =>
    simp only [ciphertextOf, feedBack, hpos, overwrite_cons _ (Nat.mod_lt j (by decide)), overwrite_nil]

/-- What the register of a CFB run holds after `j` bytes: after whole blocks the last ciphertext block, after a partial
one its bytes under the keystream not yet used (R132, R141). -/
def cfbRegister (c : Config) (ks : Sched) (cipher : Memory) (iv : Block) (p j : Nat) : Block :=
  if j % 8 = 0 then cfbChain c cipher iv p (j / 8) else cfbKeystream c ks cipher iv p j

theorem keystream_of_cfbRegister {cipher : Memory} {p j : Nat} (h0 : s.pos = 0)
    (hr : (byteRun c .cfb dir false j p s).r = cfbRegister c s.ks cipher s.r p j) :
    (byteRun c .cfb dir false j p s).keystream c = cfbKeystream c s.ks cipher s.r p j := by
  rw [keystream_byteRun j p h0, hr, cfbRegister]
  split_ifs with h
  · exact (cfbKeystream_of_whole _ _ _ h).symm
  · rfl

theorem byteRun_cfb_r {cipher : Memory} {m p j : Nat} (hfed : FeedsBack c dir cipher m p s) (h0 : s.pos = 0)
    (hj : j ≤ m) : (byteRun c .cfb dir false j p s).r = cfbRegister c s.ks cipher s.r p j := by
  induction j with
  | zero => rfl
  | succ j ih =>
    rw [hfed j hj, keystream_of_cfbRegister h0 (ih (by omega)), cfbRegister]
    split_ifs with h
    · exact cfbKeystream_set_of_whole _ _ _ h
    · exact cfbKeystream_set_of_tail _ _ _ h

/-- The keystream byte that byte `j` of a CFB run is XORed with (R132). -/
theorem keystream_byteRun_cfb {cipher : Memory} {m p j : Nat} (hfed : FeedsBack c dir cipher m p s) (h0 : s.pos = 0)
    (hj : j ≤ m) : ((byteRun c .cfb dir false j p s).keystream c)[j % 8] =
      (c.permute s.ks .forward (cfbChain c cipher s.r p (j / 8)))[j % 8] := by
  rw [keystream_of_cfbRegister h0 (byteRun_cfb_r hfed h0 hj), cfbKeystream_getElem_mod]

/-! ### The four stream commands as one (R134 to R138) -/

/-- The stream command of a mode and a direction. -/
def feedbackCommand : Mode → CipherDir → Key → Block → Word → Word → Instr
  | .cfb, .enc => .cfbEncrypt
  | .cfb, .dec => .cfbDecrypt
  | .ofb, .enc => .ofbEncrypt
  | .ofb, .dec => .ofbDecrypt

@[simp] theorem allowedIn_feedbackCommand (p : MacPhase) :
    allowedIn (feedbackCommand mode dir k iv a n) p = !p.sessionOpen := by
  cases mode <;> cases dir <;> rfl

@[simp] theorem lengthOk_feedbackCommand : lengthOk (feedbackCommand mode dir k iv a n) = true := by
  cases mode <;> cases dir <;> rfl

@[simp] theorem bufferInRange_feedbackCommand :
    bufferInRange c (feedbackCommand mode dir k iv a n) = inRange c a n := by
  cases mode <;> cases dir <;> rfl

@[simp] theorem bodyOf_feedbackCommand :
    bodyOf c (feedbackCommand mode dir k iv a n) s = feedbackBody c mode dir k iv a n s := by
  cases mode <;> cases dir <;> rfl

theorem prologue_feedbackCommand (h : Ready s) (hb : BufferIn c a n) :
    prologue c (feedbackCommand mode dir k iv a n) s = none :=
  h.prologue_eq_none (by simp) (by simp) (by simpa using hb)

theorem exec_feedbackCommand (h : Ready s) (hb : BufferIn Config.hw a n) :
    exec (feedbackCommand mode dir k iv a n) s = .next (feedbackBody Config.hw mode dir k iv a n s) := by
  rw [exec_eq_runWith, runWith_of_none (prologue_feedbackCommand h hb), bodyOf_feedbackCommand]

theorem callsOf_feedbackCommand (hp : prologue c (feedbackCommand mode dir k iv a n) s = none) :
    callsOf c (feedbackCommand mode dir k iv a n) s = feedbackCalls c mode dir k iv a n s := by
  unfold callsOf
  rw [hp]
  cases mode <;> cases dir <;> rfl

/-! ### A run of no byte (R139) -/

theorem feedbackBody_zero : feedbackBody c mode dir k iv a 0 s =
    { s with ks := c.initSchedule k s.rounds, r := iv, pos := 0, rem := 0, macst := .uninitialized,
             response := some ⟨.ok, false, zeroBlock⟩ } := rfl

theorem feedbackCalls_zero_permutes : (feedbackCalls c mode dir k iv a 0 s).permutes = 0 := rfl

/-- Settles O26: an empty buffer is in range at every address, and the loop is not entered. -/
theorem feedbackLengthZeroSeedsOnly : Obligations.FeedbackLengthZeroSeedsOnly := by
  intro s k iv a i hi h
  obtain ⟨mode, dir, rfl⟩ : ∃ mode dir, i = feedbackCommand mode dir k iv a 0 := by
    rcases hi with rfl | rfl | rfl | rfl
    exacts [⟨.cfb, .enc, rfl⟩, ⟨.cfb, .dec, rfl⟩, ⟨.ofb, .enc, rfl⟩, ⟨.ofb, .dec, rfl⟩]
  have hb : BufferIn Config.hw a 0 := .inl rfl
  refine ⟨?_, ?_⟩
  · rw [exec_feedbackCommand h hb, feedbackBody_zero]
  · rw [callsOf_feedbackCommand (prologue_feedbackCommand h hb), feedbackCalls_zero_permutes]

/-! ### What a stream command leaves (R132, R134) -/

/-- The byte loop of a stream command over its first `j` bytes, entered in the state that seeding leaves (R134). -/
def streamRun (c : Config) (mode : Mode) (dir : CipherDir) (k : Key) (iv : Block) (a : Word) (j : Nat) (s : State) :
    State :=
  byteRun c mode dir false j a.toNat (feedbackSeed c k iv s)

/-- A stream command writes KS, R, POS, REM, MACST, DMEM and the response (R134). -/
theorem feedbackBody_eq : feedbackBody c mode dir k iv a n s =
    { s with ks := c.initSchedule k s.rounds, r := (streamRun c mode dir k iv a n.toNat s).r,
             pos := Fin.ofNat 8 n.toNat, rem := 0, macst := .uninitialized,
             dmem := (streamRun c mode dir k iv a n.toNat s).dmem, response := some ⟨.ok, false, zeroBlock⟩ } := by
  have hpos : (streamRun c mode dir k iv a n.toNat s).pos = Fin.ofNat 8 n.toNat :=
    Fin.ext (byteRun_pos mode dir false n.toNat a.toNat rfl)
  obtain ⟨r, pos, m, hrun⟩ := byteRun_frame (c := c) mode dir false n.toNat a.toNat (feedbackSeed c k iv s)
  rw [feedbackBody, feedbackRunEqualsByteRun, ← hpos, streamRun, hrun]
  rfl

theorem feedbackBody_r :
    (feedbackBody c mode dir k iv a n s).r = (streamRun c mode dir k iv a n.toNat s).r := by
  rw [feedbackBody_eq]

theorem feedbackBody_dmem :
    (feedbackBody c mode dir k iv a n s).dmem = (streamRun c mode dir k iv a n.toNat s).dmem := by
  rw [feedbackBody_eq]

/-- The fields but R and DMEM, written out. -/
theorem feedbackBody_frame : feedbackBody c mode dir k iv a n s =
    { s with ks := c.initSchedule k s.rounds, r := (feedbackBody c mode dir k iv a n s).r,
             pos := Fin.ofNat 8 n.toNat, rem := 0, macst := .uninitialized,
             dmem := (feedbackBody c mode dir k iv a n s).dmem, response := some ⟨.ok, false, zeroBlock⟩ } := by
  rw [feedbackBody_r, feedbackBody_dmem, feedbackBody_eq]

theorem feedbackBody_read_outside {x : Nat} (hx : x < a.toNat ∨ a.toNat + n.toNat ≤ x) :
    Memory.read c (feedbackBody c mode dir k iv a n s).dmem x = Memory.read c s.dmem x :=
  feedbackRun_read_outside mode dir false c a n (feedbackSeed c k iv s) hx

theorem BufferIn.eq_zero_or_fits (hb : BufferIn c a n) : n.toNat = 0 ∨ a.toNat + n.toNat ≤ c.dmemSize :=
  hb.imp_left (congrArg BitVec.toNat)

theorem feedbackBody_read_inside (hb : BufferIn c a n) (hwf : Memory.wf c s.dmem) {i : Nat} (hi : i < n.toNat) :
    Memory.read c (feedbackBody c mode dir k iv a n s).dmem (a.toNat + i) =
      Memory.read c s.dmem (a.toNat + i) ^^^ ((streamRun c mode dir k iv a i s).keystream c)[i % 8] := by
  rw [feedbackBody_dmem]
  exact byteRun_read (s := feedbackSeed c k iv s) hwf (hb.eq_zero_or_fits.resolve_left (by omega)) rfl hi

/-! ### The OFB commands (R137, R138) -/

/-- Settles O25: the register of an OFB run never meets the data, whichever the direction. -/
theorem ofbXorsDataFreeKeystream : Obligations.OfbXorsDataFreeKeystream := by
  intro s k iv a n i hi h hb hwf
  obtain ⟨dir, rfl⟩ : ∃ dir, i = feedbackCommand .ofb dir k iv a n := by
    rcases hi with rfl | rfl
    exacts [⟨.enc, rfl⟩, ⟨.dec, rfl⟩]
  refine ⟨_, exec_feedbackCommand h hb, ?_, ?_, fun x hx => feedbackBody_read_outside hx⟩
  · have hr : (feedbackBody Config.hw .ofb dir k iv a n s).r =
        ofbBlock Config.hw (Config.hw.initSchedule k s.rounds) iv ((n.toNat + 7) / 8) := by
      rw [feedbackBody_r]
      exact byteRun_ofb_r n.toNat a.toNat rfl
    rw [← hr]
    exact feedbackBody_frame
  · intro j hj
    have hks : (streamRun Config.hw .ofb dir k iv a j s).keystream Config.hw =
        ofbBlock Config.hw (Config.hw.initSchedule k s.rounds) iv (j / 8 + 1) :=
      keystream_byteRun_ofb j a.toNat rfl
    rw [feedbackBody_read_inside hb hwf hj, hks, feedbackBody_eq]

/-! ### The CFB commands (R135, R136) -/

/-- The ciphertext of a CFB command's buffer, in the memory that holds it. -/
abbrev cfbCiphertext (c : Config) (dir : CipherDir) (k : Key) (iv : Block) (a n : Word) (s : State) : Memory :=
  ciphertextOf dir s.dmem (feedbackBody c .cfb dir k iv a n s).dmem

theorem feedsBack_cfbCiphertext (hb : BufferIn c a n) (hwf : Memory.wf c s.dmem) :
    FeedsBack c dir (cfbCiphertext c dir k iv a n s) n.toNat a.toNat (feedbackSeed c k iv s) := by
  rw [cfbCiphertext, feedbackBody_dmem]
  exact feedsBack_ciphertext hwf hb.eq_zero_or_fits rfl

theorem feedbackBody_cfb_read (hb : BufferIn c a n) (hwf : Memory.wf c s.dmem) {i : Nat} (hi : i < n.toNat) :
    Memory.read c (feedbackBody c .cfb dir k iv a n s).dmem (a.toNat + i) = Memory.read c s.dmem (a.toNat + i) ^^^
      (c.permute (feedbackBody c .cfb dir k iv a n s).ks .forward
        (cfbChain c (cfbCiphertext c dir k iv a n s) iv a.toNat (i / 8)))[i % 8] := by
  have hks := keystream_byteRun_cfb (feedsBack_cfbCiphertext (dir := dir) (k := k) (iv := iv) hb hwf) rfl hi.le
  rw [feedbackBody_read_inside hb hwf hi]
  exact congrArg _ hks

theorem feedbackBody_cfb_r (hb : BufferIn c a n) (hwf : Memory.wf c s.dmem) :
    (feedbackBody c .cfb dir k iv a n s).r =
      cfbRegister c (feedbackBody c .cfb dir k iv a n s).ks (cfbCiphertext c dir k iv a n s) iv a.toNat n.toNat :=
  feedbackBody_r.trans (byteRun_cfb_r (feedsBack_cfbCiphertext hb hwf) rfl le_rfl)

theorem feedbackBody_cfb_r_of_whole (hb : BufferIn c a n) (hwf : Memory.wf c s.dmem) (hn : n.toNat % 8 = 0) :
    (feedbackBody c .cfb dir k iv a n s).r =
      cfbChain c (cfbCiphertext c dir k iv a n s) iv a.toNat (n.toNat / 8) :=
  (feedbackBody_cfb_r hb hwf).trans (if_pos hn)

theorem feedbackBody_cfb_r_getElem_of_tail (hb : BufferIn c a n) (hwf : Memory.wf c s.dmem) (hn : n.toNat % 8 ≠ 0)
    (j : Fin 8) : (feedbackBody c .cfb dir k iv a n s).r[j.val] =
      if j.val < n.toNat % 8 then
        Memory.read c (cfbCiphertext c dir k iv a n s) (a.toNat + 8 * (n.toNat / 8) + j.val)
      else (c.permute (feedbackBody c .cfb dir k iv a n s).ks .forward
        (cfbChain c (cfbCiphertext c dir k iv a n s) iv a.toNat (n.toNat / 8)))[j.val] := by
  rw [← cfbKeystream_getElem j.isLt]
  exact congrArg (·[j.val]) ((feedbackBody_cfb_r hb hwf).trans (if_neg hn))

/-- Settles O23: the chain is in the buffer after the command. -/
theorem cfbEncryptChainsCiphertext : Obligations.CfbEncryptChainsCiphertext :=
  fun _ _ _ _ _ h hb hwf => ⟨_, exec_feedbackCommand (mode := .cfb) (dir := .enc) h hb, feedbackBody_frame,
    fun _ hi => feedbackBody_cfb_read hb hwf hi, fun _ hx => feedbackBody_read_outside hx,
    feedbackBody_cfb_r_of_whole hb hwf, feedbackBody_cfb_r_getElem_of_tail hb hwf⟩

/-- Settles O24: the chain is in the buffer before the command. -/
theorem cfbDecryptChainsCiphertextRead : Obligations.CfbDecryptChainsCiphertextRead :=
  fun _ _ _ _ _ h hb hwf => ⟨_, exec_feedbackCommand (mode := .cfb) (dir := .dec) h hb, feedbackBody_frame,
    fun _ hi => feedbackBody_cfb_read hb hwf hi, fun _ hx => feedbackBody_read_outside hx,
    feedbackBody_cfb_r_of_whole hb hwf, feedbackBody_cfb_r_getElem_of_tail hb hwf⟩

end Sys2Proof.Machine

/-! PROOFS. The MAC Engine (43_mac.md). Absorbing message bytes is the byte loop of R143, and after a message the
accumulator holds the last block of R164's chain, the message being read with zeros beyond its end: the closed form of
the tag and the trailing zeros of R165 both rest on that. -/

namespace Sys2Proof.Machine

variable {c : Config} {s : State} {i : Instr} {k : Key} {tag : Block} {a n : Word}

/-! ### Which MAC commands pass the prologue (R108, R150) -/

theorem ready_iff : Ready s ↔ s.cfgv = true ∧ s.macst.sessionOpen = false := by
  refine ⟨fun h => ⟨h.1, h.not_open⟩, fun ⟨hc, ho⟩ => ⟨hc, ?_⟩⟩
  cases hm : s.macst <;> simp [hm, MacPhase.sessionOpen] at ho ⊢

theorem sessionOpen_iff : SessionOpen s ↔ s.cfgv = true ∧ s.macst.sessionOpen = true :=
  ⟨fun h => ⟨h.1, h.is_open⟩, fun ⟨hc, ho⟩ => sessionOpen_of_isOpen hc ho⟩

theorem prologue_macInit_eq_none : prologue c (.macInit k) s = none ↔ Ready s := by
  simp [prologue_eq_none, ready_iff, isConfigure, allowedIn, lengthOk, bufferInRange, bufferOf]

theorem prologue_macUpdate_eq_none :
    prologue c (.macUpdate a n) s = none ↔ SessionOpen s ∧ BufferIn c a n := by
  simp [prologue_eq_none, sessionOpen_iff, isConfigure, allowedIn, lengthOk, bufferInRange, bufferOf, and_assoc]

theorem prologue_macFinish_eq_none : prologue c .macFinish s = none ↔ SessionOpen s := by
  simp [prologue_eq_none, sessionOpen_iff, isConfigure, allowedIn, lengthOk, bufferInRange, bufferOf]

theorem prologue_macGet_eq_none : prologue c .macGet s = none ↔ TagReady s := by
  simp [prologue_eq_none, TagReady, isConfigure, allowedIn, lengthOk, bufferInRange, bufferOf]

theorem prologue_macCmp_eq_none : prologue c (.macCmp tag) s = none ↔ TagReady s := by
  simp [prologue_eq_none, TagReady, isConfigure, allowedIn, lengthOk, bufferInRange, bufferOf]

theorem prologue_macCompute_eq_none :
    prologue c (.macCompute k a n) s = none ↔ Ready s ∧ BufferIn c a n := by
  simp [prologue_eq_none, ready_iff, isConfigure, allowedIn, lengthOk, bufferInRange, bufferOf, and_assoc]

theorem prologue_macVerify_eq_none :
    prologue c (.macVerify k tag a n) s = none ↔ Ready s ∧ BufferIn c a n := by
  simp [prologue_eq_none, ready_iff, isConfigure, allowedIn, lengthOk, bufferInRange, bufferOf, and_assoc]

theorem runWith_macInit (h : Ready s) :
    runWith c (.macInit k) s = respondOk false zeroBlock (macInitBody c k s) :=
  runWith_of_none (prologue_macInit_eq_none.2 h)

theorem runWith_macUpdate (h : SessionOpen s) (hb : BufferIn c a n) :
    runWith c (.macUpdate a n) s = respondOk false zeroBlock (macUpdateBody c a n s) :=
  runWith_of_none (prologue_macUpdate_eq_none.2 ⟨h, hb⟩)

theorem runWith_macFinish (h : SessionOpen s) :
    runWith c .macFinish s = respondOk false zeroBlock (macFinishBody c s) :=
  runWith_of_none (prologue_macFinish_eq_none.2 h)

theorem runWith_macGet (h : TagReady s) : runWith c .macGet s = respondTag s :=
  runWith_of_none (prologue_macGet_eq_none.2 h)

theorem runWith_macCmp (h : TagReady s) : runWith c (.macCmp tag) s = respondComparison tag s :=
  runWith_of_none (prologue_macCmp_eq_none.2 h)

theorem runWith_macCompute (h : Ready s) (hb : BufferIn c a n) :
    runWith c (.macCompute k a n) s = respondTag (macWholeBody c k a n s) :=
  runWith_of_none (prologue_macCompute_eq_none.2 ⟨h, hb⟩)

theorem runWith_macVerify (h : Ready s) (hb : BufferIn c a n) :
    runWith c (.macVerify k tag a n) s = respondComparison tag (macWholeBody c k a n s) :=
  runWith_of_none (prologue_macVerify_eq_none.2 ⟨h, hb⟩)

/-- A command answers OK exactly when its prologue passes (R201). -/
theorem answeredOk_runWith_iff : AnsweredOk (runWith c i s) ↔ prologue c i s = none := by
  obtain ⟨e, hp, hrun⟩ | ⟨hp, hrun⟩ := runWith_cases c i s
  · simp [AnsweredOk, hrun, hp]
  · obtain ⟨v, tag, hq⟩ := bodyOf_response c i s
    simp [AnsweredOk, hrun, hp, hq]

/-! ### The phase table (R150, R204) -/

/-- A cell `IS` raises InvalidState; `configure` has none, so its prologue is not asked. -/
theorem prologue_of_phaseTable_none (hc : s.cfgv = true) (h : phaseTable i s.macst = none) :
    prologue c i s = some .invalidState := by
  have ha : allowedIn i s.macst = false := by rw [allowedIn_eq_phaseTable, h]; rfl
  have hi : isConfigure i = false := by
    cases i with
    | configure r m => cases h
    | _ => rfl
  simp [prologue, hi, hc, ha]

theorem prologue_ne_invalidState {ph : MacPhase} (h : phaseTable i s.macst = some ph) :
    prologue c i s ≠ some .invalidState := by
  have ha : allowedIn i s.macst = true := by rw [allowedIn_eq_phaseTable, h]; rfl
  simp only [prologue, ha]
  split_ifs <;> simp_all

/-- In every cell with a phase the body leaves that phase: the one it found, or the one it writes. -/
theorem bodyOf_macst {ph : MacPhase} (h : phaseTable i s.macst = some ph) : (bodyOf c i s).macst = ph := by
  cases i
  case configure | ecbEncrypt | ecbDecrypt | macGet | macCmp =>
    cases hm : s.macst <;> rw [hm] at h <;> cases h <;> exact hm
  all_goals cases hm : s.macst <;> rw [hm] at h <;> cases h <;> rfl

/-- An unconfigured core runs `configure` only (R203). -/
theorem runWith_macst_of_unconfigured (hc : s.cfgv = false) : (runWith c i s).macst = s.macst := by
  obtain ⟨e, -, hrun⟩ | ⟨hp, hrun⟩ := runWith_cases c i s
  · rw [hrun, raise_macst]
  · obtain hi | ⟨hc', -⟩ := prologue_eq_none.1 hp
    · obtain ⟨r, m, rfl⟩ := eq_configure_of_isConfigure hi
      rw [hrun]
      rfl
    · simp [hc] at hc'

/-- Settles O17: a cell `IS` makes the prologue raise InvalidState; in any other cell the prologue raises another
cause or the body leaves the cell's phase. -/
theorem phaseTableGovernsEveryCommand : Obligations.PhaseTableGovernsEveryCommand := by
  intro i s
  refine ⟨_, exec_eq_runWith i s, runWith_macst_of_unconfigured, fun hc => ?_⟩
  split
  next h => exact runWith_of_some (prologue_of_phaseTable_none hc h)
  next ph h =>
    rw [answeredOk_runWith_iff]
    obtain ⟨e, hp, hrun⟩ | ⟨hp, hrun⟩ := runWith_cases Config.hw i s
    · have he : e ≠ .invalidState := fun he => prologue_ne_invalidState h (he ▸ hp)
      simp [hrun, hp, Response.ofCause, he]
    · obtain ⟨v, tag, hq⟩ := bodyOf_response Config.hw i s
      simp [hrun, hp, hq, bodyOf_macst h]

/-! ### Absorbing message bytes (R143, R155) -/

/-- The byte loop of `macUpdate` absorbs the bytes it reads. -/
theorem byteRun_absorb (m p : Nat) (s : State) : byteRun c .cfb .enc true m p s =
    { s with r := (absorb c s.ks (s.r, s.pos) (Memory.readBytes c s.dmem p m)).1,
             pos := (absorb c s.ks (s.r, s.pos) (Memory.readBytes c s.dmem p m)).2 } := by
  induction m generalizing p s with
  | zero => rfl
  | succ m ih => rw [byteRun, ih]; rfl

theorem feedbackRun_absorb (a n : Word) (s : State) : feedbackRun c .cfb .enc a n true s =
    { s with r := (absorb c s.ks (s.r, s.pos) (buf c s.dmem a n)).1,
             pos := (absorb c s.ks (s.r, s.pos) (buf c s.dmem a n)).2, rem := 0 } := by
  rw [feedbackRunEqualsByteRun, byteRun_absorb]
  rfl

theorem macUpdateBody_absorb (a n : Word) (s : State) : macUpdateBody c a n s =
    { s with r := (absorb c s.ks (s.r, s.pos) (buf c s.dmem a n)).1,
             pos := (absorb c s.ks (s.r, s.pos) (buf c s.dmem a n)).2, rem := 0, macst := .accumulating } := by
  rw [macUpdateBody, feedbackRun_absorb]
  rfl

/-! ### The closed form of the tag (R164) -/

/-- Beyond the message's end the chain has the bytes of `E` alone. -/
theorem macChain_succ_getElem_of_beyond (ks : Sched) {msg : List Byte} {j i : Nat} (hi : i < 8)
    (h : msg.length ≤ 8 * j + i) :
    (macChain c ks msg (j + 1))[i] = (c.permute ks .forward (macChain c ks msg j))[i] := by
  rw [macChain_succ_getElem _ _ _ hi, List.getD_eq_default _ _ h, BitVec.ofNat_eq_ofNat, BitVec.zero_xor]

/-- Beyond the message's end a block leaves `E` of the block before. -/
theorem macChain_succ_of_beyond (ks : Sched) {msg : List Byte} {j : Nat} (h : msg.length ≤ 8 * j) :
    macChain c ks msg (j + 1) = c.permute ks .forward (macChain c ks msg j) :=
  Vector.ext fun _ hi => macChain_succ_getElem_of_beyond ks hi (by omega)

/-- The last block of R164 is a block of the chain, the message being read with zeros beyond its end. -/
theorem macLast_eq_macChain (ks : Sched) (msg : List Byte) :
    macLast c ks msg = macChain c ks msg ((msg.length + 7) / 8) := by
  by_cases h : msg.length % 8 = 0
  · rw [macLast_of_whole ks h, show (msg.length + 7) / 8 = msg.length / 8 by omega]
  · rw [show (msg.length + 7) / 8 = msg.length / 8 + 1 by omega]
    refine Vector.ext fun i hi => ?_
    rw [macLast_getElem_of_tail ks h hi]
    split_ifs with hlt
    · rw [macChain_succ_getElem _ _ _ hi]
    · rw [macChain_succ_getElem_of_beyond ks hi (by omega)]

/-- Zeros after the message are what the chain reads there anyway. -/
theorem macChain_append_zeros (ks : Sched) (msg : List Byte) (z j : Nat) :
    macChain c ks (msg ++ List.replicate z 0) j = macChain c ks msg j :=
  macChain_congr ks j fun i _ => by
    rcases lt_or_ge i msg.length with hi | hi
    · exact List.getD_append _ _ _ _ hi
    · rw [List.getD_append_right _ _ _ _ hi, List.getD_eq_default msg _ hi, List.getD_eq_getElem?_getD,
        List.getElem?_getD_replicate_default_eq]

/-- The block of the chain that the next message byte goes into, before that byte: a new keystream block iff the
message fills its blocks (R143). -/
theorem keystream_macChain (ks : Sched) (msg : List Byte) :
    (if msg.length % 8 = 0 then c.permute ks .forward (macChain c ks msg ((msg.length + 7) / 8))
      else macChain c ks msg ((msg.length + 7) / 8)) = macChain c ks msg (msg.length / 8 + 1) := by
  split_ifs with h
  · rw [show (msg.length + 7) / 8 = msg.length / 8 by omega]
    exact (macChain_succ_of_beyond ks (by omega)).symm
  · rw [show (msg.length + 7) / 8 = msg.length / 8 + 1 by omega]

/-- A further byte is XORed into its place in the chain, where a zero stood. -/
theorem macChain_snoc (ks : Sched) (msg : List Byte) (x : Byte) :
    macChain c ks (msg ++ [x]) (msg.length / 8 + 1) =
      (macChain c ks msg (msg.length / 8 + 1)).set (msg.length % 8)
        (x ^^^ (macChain c ks msg (msg.length / 8 + 1))[msg.length % 8]) := by
  have hchain : macChain c ks (msg ++ [x]) (msg.length / 8) = macChain c ks msg (msg.length / 8) :=
    macChain_congr ks _ fun i hi => List.getD_append _ _ _ _ (by omega)
  refine Vector.ext fun i hi => ?_
  rw [Vector.getElem_set, macChain_succ_getElem _ _ _ hi, hchain]
  rcases lt_trichotomy (msg.length % 8) i with hlt | heq | hgt
  · rw [if_neg (by omega), macChain_succ_getElem_of_beyond ks hi (by omega),
      List.getD_eq_default _ _ (by simp; omega), BitVec.ofNat_eq_ofNat, BitVec.zero_xor]
  · subst heq
    rw [if_pos rfl, macChain_succ_getElem_of_beyond ks hi (by omega), Nat.div_add_mod,
      List.getD_append_right _ _ _ _ le_rfl, Nat.sub_self, List.getD_cons_zero]
  · rw [if_neg (by omega), macChain_succ_getElem _ _ _ hi, List.getD_append _ _ _ _ (by omega)]

/-- The accumulator of a session after the message bytes: the last block of R164 and the bytes counted modulo 8. -/
theorem absorb_eq_macLast (ks : Sched) (msg : List Byte) :
    absorb c ks (zeroBlock, 0) msg = (macLast c ks msg, Fin.ofNat 8 msg.length) := by
  induction msg using List.reverseRecOn with
  | nil => rfl
  | append_singleton msg x ih =>
    have hlast : macLast c ks (msg ++ [x]) = macChain c ks (msg ++ [x]) (msg.length / 8 + 1) := by
      rw [macLast_eq_macChain, List.length_append, List.length_singleton]
      congr 1
      omega
    rw [absorb_snoc, ih, absorbByte, hlast, macChain_snoc, ← keystream_macChain, macLast_eq_macChain]
    simp [Fin.ext_iff, Fin.val_add]

/-- MacInitBody, MacUpdateBody and MacFinishBody leave the tag of R164 in R (R161). -/
theorem macWholeBody_eq (k : Key) (a n : Word) (s : State) : macWholeBody c k a n s =
    { s with dke := (c.derive k).1, dkm := (c.derive k).2, ks := macSched c k s.macRounds,
             r := macTag c k s.macRounds (buf c s.dmem a n), pos := 0, rem := 0, macst := .finished } := by
  have hr : (absorb c (macSched c k s.macRounds) (zeroBlock, 0) (buf c s.dmem a n)).1 =
      macLast c (macSched c k s.macRounds) (buf c s.dmem a n) := by rw [absorb_eq_macLast]
  rw [macWholeBody, macUpdateBody_absorb, macTag, ← hr]
  rfl

/-! ### The MAC commands, whole (R153 to R162) -/

/-- Settles O27: the body writes the registers out. -/
theorem macInitSeedsTheSession : Obligations.MacInitSeedsTheSession := by
  intro s k h
  rw [exec_eq_runWith, runWith_macInit h]
  rfl

/-- Settles O28: the body absorbs the bytes of the buffer. -/
theorem macUpdateAbsorbsTheBuffer : Obligations.MacUpdateAbsorbsTheBuffer := by
  intro s a n h hb
  rw [exec_eq_runWith, runWith_macUpdate h hb, macUpdateBody_absorb]
  rfl

/-- Settles O29: the body is one call of `permute`. -/
theorem macFinishPermutesOnce : Obligations.MacFinishPermutesOnce := by
  intro s h
  rw [exec_eq_runWith, runWith_macFinish h]
  rfl

/-- Settles O30: both bodies only respond, and comparing all eight bytes is comparing the tags. -/
theorem macGetAndCmpReportTheTag : Obligations.MacGetAndCmpReportTheTag := by
  refine fun s h => ⟨?_, fun t => ?_⟩
  · rw [exec_eq_runWith, runWith_macGet h]
    rfl
  · have heq : tagsEqual t s.r = decide (∀ j : Fin 8, t[j.val] = s.r[j.val]) := by
      rw [tagsEqual_eq_decide, decide_eq_decide, Vector.ext_iff, Fin.forall_iff]
    rw [exec_eq_runWith, runWith_macCmp h, ← heq]
    rfl

/-- Settles O31: the whole body leaves the tag in R, and the response reads R. -/
theorem macComputeAnswersTheTag : Obligations.MacComputeAnswersTheTag := by
  intro s k a n h hb
  rw [exec_eq_runWith, runWith_macCompute h hb, macWholeBody_eq]
  rfl

/-- Settles O32: the whole body leaves the tag in R, and the response compares R. -/
theorem macVerifyComparesTheTag : Obligations.MacVerifyComparesTheTag := by
  intro s k tag a n h hb
  rw [exec_eq_runWith, runWith_macVerify h hb, macWholeBody_eq, ← tagsEqual_eq_decide]
  rfl

/-! ### The final transform (R157) -/

/-- A zero byte leaves the keystream block as it is (R157). -/
theorem absorbByte_zero (ks : Sched) (acc : Block × Fin 8) :
    absorbByte c ks acc 0 = (if acc.2 = 0 then c.permute ks .forward acc.1 else acc.1, acc.2 + 1) := by
  simp [absorbByte]

/-- Inside a block zero bytes move POS only. -/
theorem absorb_zeros_of_tail (ks : Sched) (r : Block) {p : Fin 8} {m : Nat} (hp : 0 < p.val) (h : p.val + m ≤ 8) :
    absorb c ks (r, p) (List.replicate m 0) = (r, Fin.ofNat 8 (p.val + m)) := by
  induction m with
  | zero => simp [absorb]
  | succ m ih =>
    have hne : Fin.ofNat 8 (p.val + m) ≠ 0 := by
      rw [Ne, Fin.ext_iff, Fin.val_ofNat, Fin.val_zero]
      omega
    rw [List.replicate_succ', absorb_snoc, ih (by omega), absorbByte_zero, if_neg hne]
    simp [Fin.ext_iff, Fin.val_add, Nat.add_assoc]

/-- Eight zero bytes at a block boundary permute R once. -/
theorem absorb_zero_block (ks : Sched) (r : Block) :
    absorb c ks (r, 0) (List.replicate 8 0) = (c.permute ks .forward r, 0) := by
  have hfirst : absorb c ks (r, 0) [0] = (c.permute ks .forward r, 1) := absorbByte_zero ks (r, 0)
  rw [show List.replicate 8 (0 : Byte) = [0] ++ List.replicate 7 0 from rfl, absorb_append, hfirst,
    absorb_zeros_of_tail ks _ (by decide) (by decide)]
  rfl

/-- Zero bytes to the end of the block and eight more are FINAL (R157). -/
theorem absorb_final_zeros (ks : Sched) (r : Block) (p : Fin 8) :
    absorb c ks (r, p) (List.replicate ((8 - p.val) % 8 + 8) 0) = (c.permute ks .forward r, 0) := by
  have hfill : absorb c ks (r, p) (List.replicate ((8 - p.val) % 8) 0) = (r, 0) := by
    rcases Nat.eq_zero_or_pos p.val with h0 | hp
    · obtain rfl : p = 0 := Fin.ext h0
      rfl
    · rw [absorb_zeros_of_tail ks r hp (by omega), show p.val + (8 - p.val) % 8 = 8 by omega]
      rfl
  rw [List.replicate_add, absorb_append, hfill, absorb_zero_block]

theorem Memory.readBytes_add_zeros (m : Memory) (b l z : Nat)
    (h : ∀ j, l ≤ j → j < l + z → Memory.read c m (b + j) = 0) :
    Memory.readBytes c m b (l + z) = Memory.readBytes c m b l ++ List.replicate z 0 := by
  induction z with
  | zero => simp
  | succ z ih =>
    rw [← Nat.add_assoc, Memory.readBytes_succ, ih fun j h1 h2 => h j h1 (by omega), h _ (by omega) (by omega),
      List.append_assoc, ← List.replicate_succ']

/-- Settles O37: a buffer of zeros is absorbed as zero bytes. -/
theorem finishIsCfbOverZeroBytes : Obligations.FinishIsCfbOverZeroBytes := by
  intro c s a z hz h0
  have hbuf : buf c s.dmem a z = List.replicate z.toNat 0 := by
    simpa [Memory.readBytes, buf] using
      Memory.readBytes_add_zeros s.dmem a.toNat 0 z.toNat fun j _ hj => h0 j (by omega)
  rw [feedbackRun_absorb, hbuf, hz, absorb_final_zeros]
  exact ⟨rfl, rfl⟩

/-! ### One-shot commands and the protocol (R163) -/

theorem sessionOpen_runWith_macInit (h : Ready s) : SessionOpen (runWith c (.macInit k) s) := by
  rw [runWith_macInit h]
  exact macInitBody_sessionOpen (c := c) k h.1

theorem sessionOpen_runWith_macUpdate (h : SessionOpen s) (hb : BufferIn c a n) :
    SessionOpen (runWith c (.macUpdate a n) s) := by
  rw [runWith_macUpdate h hb, macUpdateBody_absorb]
  exact ⟨h.1, .inr rfl⟩

theorem tagReady_runWith_macFinish (h : SessionOpen s) : TagReady (runWith c .macFinish s) := by
  rw [runWith_macFinish h]
  exact ⟨h.1, rfl⟩

/-! No body reads the last response, and a later response takes its place (R80). -/

theorem macUpdateBody_respondOk (v : Bool) (a n : Word) (s : State) :
    macUpdateBody c a n (respondOk v tag s) = respondOk v tag (macUpdateBody c a n s) := rfl

theorem macFinishBody_respondOk (v : Bool) (s : State) :
    macFinishBody c (respondOk v tag s) = respondOk v tag (macFinishBody c s) := rfl

theorem respondOk_respondOk (v v' : Bool) (tag' : Block) (s : State) :
    respondOk v tag (respondOk v' tag' s) = respondOk v tag s := rfl

theorem respondTag_respondOk (v : Bool) (s : State) : respondTag (respondOk v tag s) = respondTag s := rfl

theorem respondComparison_respondOk (v : Bool) (tag' : Block) (s : State) :
    respondComparison tag (respondOk v tag' s) = respondComparison tag s := rfl

/-- `macInit` and `macUpdate` both answer OK exactly where the one-shot commands do. -/
theorem allAnswerOk_macInit_macUpdate_iff :
    AllAnswerOk c [.macInit k, .macUpdate a n] s ↔ Ready s ∧ BufferIn c a n := by
  simp only [AllAnswerOk, answeredOk_runWith_iff, prologue_macInit_eq_none, prologue_macUpdate_eq_none, and_true]
  exact ⟨fun ⟨h, _, hb⟩ => ⟨h, hb⟩, fun ⟨h, hb⟩ => ⟨h, sessionOpen_runWith_macInit h, hb⟩⟩

/-- A refused `macUpdate` leaves the phase in which `macInit` left it. -/
theorem runAll_macInit_macUpdate_macst (h : Ready s) (hb : ¬ BufferIn c a n) :
    (runAll c [.macInit k, .macUpdate a n] s).macst = .ready := by
  obtain ⟨e, -, hrun⟩ | ⟨hp, -⟩ := runWith_cases c (.macUpdate a n) (runWith c (.macInit k) s)
  · rw [runAll, runAll, runAll, hrun, raise_macst, runWith_macInit h]
    rfl
  · exact absurd (prologue_macUpdate_eq_none.1 hp).2 hb

section Protocol

variable (h : Ready s) (hb : BufferIn c a n)
include h hb

theorem sessionOpen_runAll_macInit_macUpdate : SessionOpen (runAll c [.macInit k, .macUpdate a n] s) :=
  sessionOpen_runWith_macUpdate (sessionOpen_runWith_macInit h) hb

theorem allAnswerOk_macProtocol : AllAnswerOk c [.macInit k, .macUpdate a n, .macFinish] s := by
  refine (allAnswerOk_append [.macInit k, .macUpdate a n] [.macFinish] s).2
    ⟨allAnswerOk_macInit_macUpdate_iff.2 ⟨h, hb⟩, answeredOk_runWith_iff.2 ?_, trivial⟩
  exact prologue_macFinish_eq_none.2 (sessionOpen_runAll_macInit_macUpdate h hb)

theorem tagReady_runAll_macProtocol : TagReady (runAll c [.macInit k, .macUpdate a n, .macFinish] s) :=
  tagReady_runWith_macFinish (sessionOpen_runAll_macInit_macUpdate h hb)

/-- The first three commands of the protocol leave the state of their bodies, answered by `macFinish` (R161). -/
theorem runAll_macProtocol : runAll c [.macInit k, .macUpdate a n, .macFinish] s =
    respondOk false zeroBlock (macWholeBody c k a n s) := by
  have h1 : SessionOpen (runWith c (.macInit k) s) := sessionOpen_runWith_macInit h
  rw [runAll, runAll, runAll, runAll, runWith_macFinish (sessionOpen_runWith_macUpdate h1 hb),
    runWith_macUpdate h1 hb, runWith_macInit h, macUpdateBody_respondOk, respondOk_respondOk,
    macFinishBody_respondOk, respondOk_respondOk, macWholeBody]

theorem runAll_macProtocol_macGet :
    runAll c [.macInit k, .macUpdate a n, .macFinish, .macGet] s = runWith c (.macCompute k a n) s :=
  calc
    _ = runWith c .macGet (runAll c [.macInit k, .macUpdate a n, .macFinish] s) :=
      runAll_append [.macInit k, .macUpdate a n, .macFinish] [.macGet] s
    _ = respondTag (runAll c [.macInit k, .macUpdate a n, .macFinish] s) :=
      runWith_macGet (tagReady_runAll_macProtocol h hb)
    _ = runWith c (.macCompute k a n) s := by
      rw [runAll_macProtocol h hb, respondTag_respondOk, runWith_macCompute h hb]

theorem runAll_macProtocol_macCmp : runAll c [.macInit k, .macUpdate a n, .macFinish, .macCmp tag] s =
    runWith c (.macVerify k tag a n) s :=
  calc
    _ = runWith c (.macCmp tag) (runAll c [.macInit k, .macUpdate a n, .macFinish] s) :=
      runAll_append [.macInit k, .macUpdate a n, .macFinish] [.macCmp tag] s
    _ = respondComparison tag (runAll c [.macInit k, .macUpdate a n, .macFinish] s) :=
      runWith_macCmp (tagReady_runAll_macProtocol h hb)
    _ = runWith c (.macVerify k tag a n) s := by
      rw [runAll_macProtocol h hb, respondComparison_respondOk, runWith_macVerify h hb]

end Protocol

/-- Settles O41: a command answers OK exactly when its prologue passes, and the one-shot bodies are the protocol's
bodies one after another. -/
theorem macOneShotEqualsProtocol : Obligations.MacOneShotEqualsProtocol := by
  constructor
  · intro c s k tag a n hnot
    rw [answeredOk_runWith_iff, answeredOk_runWith_iff, prologue_macCompute_eq_none, prologue_macVerify_eq_none,
      allAnswerOk_macInit_macUpdate_iff]
    exact ⟨hnot, hnot, hnot, fun h => runAll_macInit_macUpdate_macst h fun hb => hnot ⟨h, hb⟩⟩
  · intro c s k tag a n h hb
    exact ⟨allAnswerOk_macProtocol h hb, runAll_macProtocol_macGet h hb, runAll_macProtocol_macCmp h hb⟩

/-! ### Trailing zero bytes and the empty message (R165, R166) -/

theorem macTag_eq_macChain (k : Key) (m : Byte) (msg : List Byte) : macTag c k m msg =
    c.permute (macSched c k m) .forward (macChain c (macSched c k m) msg ((msg.length + 7) / 8)) := by
  rw [macTag, macLast_eq_macChain]

theorem macTag_nil (k : Key) (m : Byte) :
    macTag c k m [] = c.permute (macSched c k m) .forward zeroBlock := macTag_eq_macChain k m []

/-- Zeros that fit into the last block begin no further block of the chain. -/
theorem macTag_append_zeros_of_tail (k : Key) (m : Byte) {msg : List Byte} {z : Nat} (hm : 0 < msg.length % 8)
    (hz : msg.length % 8 + z ≤ 8) : macTag c k m (msg ++ List.replicate z 0) = macTag c k m msg := by
  have hblocks : ((msg ++ List.replicate z (0 : Byte)).length + 7) / 8 = (msg.length + 7) / 8 := by
    rw [List.length_append, List.length_replicate]
    omega
  rw [macTag_eq_macChain, macTag_eq_macChain, hblocks, macChain_append_zeros]

/-- After whole blocks one zero byte is a further block of zeros, which leaves `E` of the block before. -/
theorem macTag_append_zero_of_whole (k : Key) (m : Byte) {msg : List Byte} (hm : msg.length % 8 = 0) :
    macTag c k m (msg ++ [0]) = c.permute (macSched c k m) .forward (macTag c k m msg) := by
  have hblocks : ((msg ++ List.replicate 1 (0 : Byte)).length + 7) / 8 = (msg.length + 7) / 8 + 1 := by
    rw [List.length_append, List.length_replicate]
    omega
  rw [← List.replicate_one, macTag_eq_macChain, hblocks, macChain_append_zeros,
    macChain_succ_of_beyond _ (by omega), ← macTag_eq_macChain]

theorem runWith_macCompute_response (h : Ready s) (hb : BufferIn c a n) :
    (runWith c (.macCompute k a n) s).response =
      some ⟨.ok, false, macTag c k s.macRounds (buf c s.dmem a n)⟩ := by
  rw [runWith_macCompute h hb, macWholeBody_eq]
  rfl

/-- A buffer inside a longer one at its address is in range too. -/
theorem BufferIn.of_le {n' : Word} (hb : BufferIn c a n') (hle : n.toNat ≤ n'.toNat) : BufferIn c a n := by
  rcases hb with rfl | hb
  · exact .inl (BitVec.eq_of_toNat_eq (Nat.le_zero.1 hle))
  · exact .inr (by omega)

/-- The longer buffer holds the shorter one's bytes, then zeros. -/
theorem buf_append_zeros {n' : Word} (m : Memory) (hle : n.toNat ≤ n'.toNat)
    (h0 : ∀ j, n.toNat ≤ j → j < n'.toNat → Memory.read c m (a.toNat + j) = 0) :
    buf c m a n' = buf c m a n ++ List.replicate (n'.toNat - n.toNat) 0 := by
  have hadd := Nat.add_sub_cancel' hle
  rw [buf, ← hadd, Memory.readBytes_add_zeros _ _ _ _ fun j h1 h2 => h0 j h1 (by omega), buf, hadd]

/-- Settles O45: the chain of R164 reads zeros beyond the message's end. -/
theorem trailingZerosKeepTheTag : Obligations.TrailingZerosKeepTheTag := by
  refine ⟨fun c k m msg => macTag_append_zero_of_whole k m, fun c k m msg z => macTag_append_zeros_of_tail k m, ?_⟩
  intro c s k a n n' h hb hle h0
  have hlen : (buf c s.dmem a n).length = n.toNat := Memory.readBytes_length _ _ _
  refine ⟨_, runWith_macCompute_response h (hb.of_le hle), fun hm hz => ?_, fun hm hn => ?_⟩
  all_goals rw [runWith_macCompute_response h hb, buf_append_zeros s.dmem hle h0]
  · rw [macTag_append_zeros_of_tail _ _ (by rwa [hlen]) (by rwa [hlen])]
  · rw [hn, Nat.add_sub_cancel_left, List.replicate_one, macTag_append_zero_of_whole _ _ (by rwa [hlen])]

/-- Settles O46: with no byte absorbed FINAL permutes MAC_IV. -/
theorem emptyMessageTag : Obligations.EmptyMessageTag := by
  intro c s k a h
  have hopen : SessionOpen (runWith c (.macInit k) s) := sessionOpen_runWith_macInit h
  constructor
  · rw [runAll, runAll, runAll, runAll, runWith_macGet (tagReady_runWith_macFinish hopen), runWith_macFinish hopen,
      runWith_macInit h]
    rfl
  · rw [runWith_macCompute_response h (.inl rfl), ← macTag_nil]
    rfl

end Sys2Proof.Machine

/-! PROOFS. The laws across commands (44_properties.md), first those the prologue settles (R184 to R186), the round
counts (R194) and the frame (R192). -/

namespace Sys2Proof.Machine

variable {c : Config} {s : State} {i : Instr} {dir : Direction} {k : Key} {a n : Word}

/-! ### Errors (R184, R185) -/

/-- Every body answers OK, so another STATUS comes from `raise` (R201). -/
theorem runWith_of_status_ne_ok {q : Response} (hq : (runWith c i s).response = some q) (hne : q.status ≠ .ok) :
    ∃ e, q.status = .error e ∧ prologue c i s = some e ∧ runWith c i s = raise e s := by
  obtain ⟨e, hp, hrun⟩ | ⟨-, hrun⟩ := runWith_cases c i s
  · rw [hrun] at hq
    cases hq
    exact ⟨e, rfl, hp, hrun⟩
  · obtain ⟨v, tag, hv⟩ := bodyOf_response c i s
    rw [hrun, hv] at hq
    cases hq
    exact absurd rfl hne

/-- Settles O14: an illegal packet and a command that answers another STATUS than OK both end in `raise`. -/
theorem errorsChangeNothing : Obligations.ErrorsChangeNothing := by
  intro s t p rest q he hstep hq hne
  obtain ⟨e, rfl⟩ : ∃ e, t = raise e (s.setEvents rest) := by
    cases hd : decode p.toList with
    | error _ =>
      rw [step_of_illegalPacket he (by simp [hd]), Host.Outcome.next.injEq] at hstep
      exact ⟨_, hstep.symm⟩
    | ok i =>
      rw [step_of_command he hd, exec_eq_runWith, Host.Outcome.next.injEq] at hstep
      subst hstep
      obtain ⟨e, -, -, hrun⟩ := runWith_of_status_ne_ok hq hne
      exact ⟨e, hrun⟩
  cases hq
  rfl

/-- The only length rule is the one for ECB (R205). -/
theorem lengthOk_eq_false_iff : lengthOk i = false ↔ ∃ n, ecbLength i = some n ∧ n % 8 ≠ 0 := by
  cases i <;> simp [lengthOk, ecbLength]

theorem lengthOk_of_prologue_invalidLength (h : prologue c i s = some .invalidLength) : lengthOk i = false := by
  unfold prologue at h
  split_ifs at h <;> simp_all

@[simp] theorem isConfigure_ecbCommand : isConfigure (ecbCommand dir k a n) = false := by
  cases dir <;> rfl

/-- The cause by which a session-free command of a wrong length is refused: the first that holds, in the order of
R207. -/
def causeOfWrongLength (s : State) : Cause :=
  if s.cfgv = false then .notConfigured else if s.macst.sessionOpen = true then .invalidState else .invalidLength

theorem causeOfWrongLength_cases (s : State) : causeOfWrongLength s = .notConfigured ∨
    causeOfWrongLength s = .invalidState ∨ causeOfWrongLength s = .invalidLength := by
  unfold causeOfWrongLength
  split_ifs <;> simp

theorem causeOfWrongLength_of_ready (h : Ready s) : causeOfWrongLength s = .invalidLength := by
  simp [causeOfWrongLength, h.1, h.not_open]

theorem prologue_ecbCommand_of_wrongLength (hn : n.toNat % 8 ≠ 0) :
    prologue c (ecbCommand dir k a n) s = some (causeOfWrongLength s) := by
  have hl : (n.toNat % 8 == 0) = false := by simpa using hn
  cases hc : s.cfgv <;> cases ho : s.macst.sessionOpen <;> simp [prologue, causeOfWrongLength, hc, ho, hl]

/-- Settles O18: the length check stands third, and only ECB has one. -/
theorem ecbLengthMustBeWholeBlocks : Obligations.EcbLengthMustBeWholeBlocks := by
  refine ⟨fun s k a n i hi hn => ?_, fun c i s q hq hst => ?_⟩
  · obtain ⟨dir, rfl⟩ : ∃ dir, i = ecbCommand dir k a n := by
      rcases hi with rfl | rfl
      exacts [⟨.forward, rfl⟩, ⟨.inverse, rfl⟩]
    refine ⟨_, causeOfWrongLength_cases s, causeOfWrongLength_of_ready, ?_⟩
    rw [exec_eq_runWith, runWith_of_some (prologue_ecbCommand_of_wrongLength hn)]
    rfl
  · obtain ⟨e, he, hp, -⟩ := runWith_of_status_ne_ok hq (by simp [hst])
    rw [hst, Status.error.injEq] at he
    exact lengthOk_eq_false_iff.1 (lengthOk_of_prologue_invalidLength (he ▸ hp))

/-! ### Totality (R186) -/

theorem answeredOk_feedbackCommand {iv : Block} (mode : Mode) (dir : CipherDir) (h : Ready s) (hb : BufferIn c a n) :
    AnsweredOk (runWith c (feedbackCommand mode dir k iv a n) s) :=
  answeredOk_runWith_iff.2 (prologue_feedbackCommand h hb)

theorem answeredOk_macUpdate (h : SessionOpen s) (hb : BufferIn c a n) :
    AnsweredOk (runWith c (.macUpdate a n) s) :=
  answeredOk_runWith_iff.2 (prologue_macUpdate_eq_none.2 ⟨h, hb⟩)

theorem answeredOk_macFinish (h : SessionOpen s) : AnsweredOk (runWith c .macFinish s) :=
  answeredOk_runWith_iff.2 (prologue_macFinish_eq_none.2 h)

/-- Settles O52: a command answers OK when its prologue passes. -/
theorem streamingCommandsAreTotal : Obligations.StreamingCommandsAreTotal := by
  refine fun c s => ⟨fun h k iv a n hb => ⟨?_, ?_, ?_, ?_⟩, fun h => ⟨answeredOk_macFinish h, ?_⟩⟩
  · exact answeredOk_feedbackCommand .cfb .enc h hb
  · exact answeredOk_feedbackCommand .cfb .dec h hb
  · exact answeredOk_feedbackCommand .ofb .enc h hb
  · exact answeredOk_feedbackCommand .ofb .dec h hb
  · exact fun a n hb => answeredOk_macUpdate h hb

/-! ### Round counts (R194) -/

/-- The cipher commands are the two ECB commands and the four stream commands. -/
theorem eq_command_of_isCipher (hi : isCipher i = true) : ∃ k a n,
    (∃ dir, i = ecbCommand dir k a n) ∨ ∃ mode dir iv, i = feedbackCommand mode dir k iv a n := by
  cases i
  case ecbEncrypt k a n => exact ⟨k, a, n, .inl ⟨.forward, rfl⟩⟩
  case ecbDecrypt k a n => exact ⟨k, a, n, .inl ⟨.inverse, rfl⟩⟩
  case cfbEncrypt k iv a n => exact ⟨k, a, n, .inr ⟨.cfb, .enc, iv, rfl⟩⟩
  case cfbDecrypt k iv a n => exact ⟨k, a, n, .inr ⟨.cfb, .dec, iv, rfl⟩⟩
  case ofbEncrypt k iv a n => exact ⟨k, a, n, .inr ⟨.ofb, .enc, iv, rfl⟩⟩
  case ofbDecrypt k iv a n => exact ⟨k, a, n, .inr ⟨.ofb, .dec, iv, rfl⟩⟩
  all_goals cases hi

/-- No cipher body reads MACROUNDS (R24). -/
theorem bodyOf_macRounds (x : Byte) (hi : isCipher i = true) :
    bodyOf c i { s with macRounds := x } = { bodyOf c i s with macRounds := x } := by
  obtain ⟨k, a, n, ⟨dir, rfl⟩ | ⟨mode, dir, iv, rfl⟩⟩ := eq_command_of_isCipher hi
  · rw [bodyOf_ecbCommand, bodyOf_ecbCommand]
    rfl
  · rw [bodyOf_feedbackCommand, bodyOf_feedbackCommand]
    rfl

/-- No body but a cipher body and that of `configure` reads ROUNDS (R23). -/
theorem bodyOf_rounds (x : Byte) (hconf : ∀ r m, i ≠ .configure r m) (hi : isCipher i = false) :
    bodyOf c i { s with rounds := x } = { bodyOf c i s with rounds := x } := by
  cases i
  case configure r m => exact absurd rfl (hconf r m)
  case macInit | macUpdate | macFinish | macGet | macCmp | macCompute | macVerify => rfl
  all_goals cases hi

/-- Settles O51: the prologue reads neither count, so the command raises the same error or runs the same body. -/
theorem roundCountsAreIndependent : Obligations.RoundCountsAreIndependent := by
  intro c i s x hconf
  have hmac : prologue c i { s with macRounds := x } = prologue c i s := rfl
  have hrounds : prologue c i { s with rounds := x } = prologue c i s := rfl
  simp only [runWith_eq, hmac, hrounds]
  cases prologue c i s with
  | some e => exact ⟨fun _ => rfl, fun _ => rfl⟩
  | none => exact ⟨bodyOf_macRounds x, bodyOf_rounds x hconf⟩

/-! ### The frame (R192) -/

theorem bodyOf_dmem_of_not_cipher (hi : isCipher i = false) : (bodyOf c i s).dmem = s.dmem := by
  cases i
  case macUpdate a n => exact feedbackRun_dmem_discard .cfb .enc c a n s
  case macCompute k a n => rw [bodyOf, macWholeBody_eq]; rfl
  case macVerify k t a n => rw [bodyOf, macWholeBody_eq]; rfl
  case configure | macInit | macFinish | macGet | macCmp => rfl
  all_goals cases hi

@[simp] theorem bufferOf_ecbCommand : bufferOf (ecbCommand dir k a n) = some (a, n) := by
  cases dir <;> rfl

@[simp] theorem bufferOf_feedbackCommand {mode : Mode} {dir : CipherDir} {iv : Block} :
    bufferOf (feedbackCommand mode dir k iv a n) = some (a, n) := by
  cases mode <;> cases dir <;> rfl

theorem bodyOf_read_outside {x : Nat}
    (hx : ∀ a n, bufferOf i = some (a, n) → x < a.toNat ∨ a.toNat + n.toNat ≤ x) :
    Memory.read c (bodyOf c i s).dmem x = Memory.read c s.dmem x := by
  cases hi : isCipher i with
  | false => rw [bodyOf_dmem_of_not_cipher hi]
  | true =>
    obtain ⟨k, a, n, ⟨dir, rfl⟩ | ⟨mode, dir, iv, rfl⟩⟩ := eq_command_of_isCipher hi
    · rw [bodyOf_ecbCommand, ecbBody_read_outside (hx a n bufferOf_ecbCommand)]
    · rw [bodyOf_feedbackCommand, feedbackBody_read_outside (hx a n bufferOf_feedbackCommand)]

/-- Settles O49: an error changes no byte, a cipher body none outside its buffer, another body none at all. -/
theorem onlyCipherBuffersChange : Obligations.OnlyCipherBuffersChange := by
  intro c i s
  obtain ⟨e, -, hrun⟩ | ⟨-, hrun⟩ := runWith_cases c i s
  · rw [hrun]
    exact ⟨fun _ _ => rfl, fun _ => rfl⟩
  · rw [hrun]
    exact ⟨fun _ hx => bodyOf_read_outside hx, bodyOf_dmem_of_not_cipher⟩

end Sys2Proof.Machine

/-! PROOFS. The cipher commands as functions of the bytes in their buffer (44_properties.md): round trips (R181, R182),
the OFB directions (R183), position independence (R191) and the first output bytes (R193). -/

namespace Sys2Proof.Machine

variable {c : Config} {s : State} {mode : Mode} {dir dir' : CipherDir} {k : Key} {iv : Block} {a b n : Word}

/-! ### A buffer's bytes -/

theorem Memory.readBytes_eq_iff {m m' : Memory} {p q l : Nat} :
    Memory.readBytes c m p l = Memory.readBytes c m' q l ↔
      ∀ j, j < l → Memory.read c m (p + j) = Memory.read c m' (q + j) := by
  simp [List.ext_getElem_iff, Memory.readBytes_getElem]

theorem buf_eq_iff {m m' : Memory} : buf c m a n = buf c m' b n ↔
    ∀ j, j < n.toNat → Memory.read c m (a.toNat + j) = Memory.read c m' (b.toNat + j) :=
  Memory.readBytes_eq_iff

@[simp] theorem buf_length (m : Memory) : (buf c m a n).length = n.toNat := Memory.readBytes_length _ _ _

theorem buf_take {n1 : Word} (m : Memory) (hle : n1.toNat ≤ n.toNat) :
    (buf c m a n).take n1.toNat = buf c m a n1 := by
  simp [List.ext_getElem_iff, buf, Memory.readBytes_getElem, hle]

/-- Canonical memories with the same bytes in a buffer and outside it are the same. -/
theorem Memory.eq_of_buf_eq {m m' : Memory} (hwf : Memory.wf c m) (hwf' : Memory.wf c m')
    (hbuf : buf c m a n = buf c m' a n)
    (hout : ∀ x, x < a.toNat ∨ a.toNat + n.toNat ≤ x → Memory.read c m x = Memory.read c m' x) : m = m' := by
  refine Memory.wf_ext hwf hwf' fun x => ?_
  by_cases hx : x < a.toNat ∨ a.toNat + n.toNat ≤ x
  · exact hout x hx
  · obtain ⟨j, rfl⟩ := Nat.exists_eq_add_of_le (show a.toNat ≤ x by omega)
    exact buf_eq_iff.1 hbuf j (by omega)

/-! ### ECB: the buffer block by block (R121) -/

theorem Memory.read_eq_readBlock (m : Memory) (p j : Nat) :
    Memory.read c m (p + j) = (Memory.readBlock c m (p + 8 * (j / 8)))[j % 8] := by
  rw [Memory.readBlock_getElem _ _ _ (Nat.mod_lt j (by decide))]
  congr 1
  omega

/-- Two buffers of whole blocks hold the same bytes exactly when they hold the same blocks. -/
theorem buf_eq_iff_readBlock {m m' : Memory} (hn : n.toNat % 8 = 0) : buf c m a n = buf c m' b n ↔
    ∀ j, j < n.toNat / 8 →
      Memory.readBlock c m (a.toNat + 8 * j) = Memory.readBlock c m' (b.toNat + 8 * j) := by
  rw [buf_eq_iff]
  refine ⟨fun h j hj => Vector.ext fun i hi => ?_, fun h j hj => ?_⟩
  · rw [Memory.readBlock_getElem _ _ _ hi, Memory.readBlock_getElem _ _ _ hi, Nat.add_assoc, Nat.add_assoc,
      h _ (by omega)]
  · simp only [Memory.read_eq_readBlock _ _ j, h (j / 8) (by omega)]

theorem ecbBody_wf {dir : Direction} (hb : BufferIn c a n) (hwf : Memory.wf c s.dmem) :
    Memory.wf c (ecbBody c dir k a n s).dmem :=
  ecbRun_wf _ _ _ hwf hb.blocks_fit

/-- The ECB command of one direction, after that of another which its permutation undoes, restores DMEM. -/
theorem ecbBody_ecbBody_dmem {d d' : Direction} (hn : n.toNat % 8 = 0) (hb : BufferIn c a n)
    (hwf : Memory.wf c s.dmem) (hundo : ∀ ks blk, c.permute ks d' (c.permute ks d blk) = blk) :
    (ecbBody c d' k a n (ecbBody c d k a n s)).dmem = s.dmem := by
  have hwf1 : Memory.wf c (ecbBody c d k a n s).dmem := ecbBody_wf hb hwf
  refine Memory.eq_of_buf_eq (a := a) (n := n) (ecbBody_wf hb hwf1) hwf ?_ fun x hx => ?_
  · refine (buf_eq_iff_readBlock hn).2 fun j hj => ?_
    rw [ecbBody_readBlock hb hwf1 hj, ecbBody_readBlock hb hwf hj]
    exact hundo _ _
  · rw [ecbBody_read_outside hx, ecbBody_read_outside hx]

theorem ecbCommand_roundTrip {d d' : Direction} (h : Ready s) (hn : n.toNat % 8 = 0) (hb : BufferIn c a n)
    (hwf : Memory.wf c s.dmem) (hundo : ∀ ks blk, c.permute ks d' (c.permute ks d blk) = blk) :
    (runWith c (ecbCommand d k a n) s).response = some ⟨.ok, true, zeroBlock⟩ ∧
    (runAll c [ecbCommand d k a n, ecbCommand d' k a n] s).response = some ⟨.ok, true, zeroBlock⟩ ∧
    (runAll c [ecbCommand d k a n, ecbCommand d' k a n] s).dmem = s.dmem := by
  rw [runAll, runAll, runAll, runWith_ecbCommand h hn hb, runWith_ecbCommand (ecbBody_ready h) hn hb]
  exact ⟨rfl, rfl, ecbBody_ecbBody_dmem hn hb hwf hundo⟩

/-- Settles O39: by P-INV each direction of `permute` undoes the other. -/
theorem ecbRoundTripRestoresMemory : Obligations.EcbRoundTripRestoresMemory := by
  intro c s k a n first second hinv h hn hb hwf hi
  obtain ⟨rfl, rfl⟩ | ⟨rfl, rfl⟩ := hi
  · exact ecbCommand_roundTrip (d := .forward) (d' := .inverse) h hn hb hwf hinv
  · exact ecbCommand_roundTrip (d := .inverse) (d' := .forward) h hn hb hwf hinv.forward_inverse

/-! ### A stream run as a function of its input bytes (R131, R143) -/

/-- The keystream block in force when the registers R and POS are `acc` (R143). -/
def keyBlock (c : Config) (ks : Sched) (acc : Block × Fin 8) : Block :=
  if acc.2 = 0 then c.permute ks .forward acc.1 else acc.1

/-- The output byte for the input byte `x` (R143). -/
def streamByte (c : Config) (ks : Sched) (acc : Block × Fin 8) (x : Byte) : Byte :=
  x ^^^ (keyBlock c ks acc)[acc.2.val]

/-- R and POS after the input byte `x` (R143). -/
def feedByte (c : Config) (ks : Sched) (mode : Mode) (dir : CipherDir) (acc : Block × Fin 8) (x : Byte) :
    Block × Fin 8 :=
  (feedBack mode dir (keyBlock c ks acc) acc.2.val [x] [streamByte c ks acc x], acc.2 + 1)

/-- The output bytes of a run over input bytes (R143). -/
def streamBytes (c : Config) (ks : Sched) (mode : Mode) (dir : CipherDir) : Block × Fin 8 → List Byte → List Byte
  | _, [] => []
  | acc, x :: xs => streamByte c ks acc x :: streamBytes c ks mode dir (feedByte c ks mode dir acc x) xs

/-- R and POS after a run over input bytes (R143). -/
def feedBytes (c : Config) (ks : Sched) (mode : Mode) (dir : CipherDir) (acc : Block × Fin 8) (xs : List Byte) :
    Block × Fin 8 :=
  xs.foldl (feedByte c ks mode dir) acc

/-- The first output bytes are those of the first input bytes (R193). -/
theorem streamBytes_take (ks : Sched) (acc : Block × Fin 8) (xs : List Byte) (j : Nat) :
    (streamBytes c ks mode dir acc xs).take j = streamBytes c ks mode dir acc (xs.take j) := by
  induction xs generalizing acc j with
  | nil => simp [streamBytes]
  | cons x xs ih =>
    cases j with
    | zero => rfl
    | succ j => simp [streamBytes, ih]

theorem streamByte_streamByte (ks : Sched) (acc : Block × Fin 8) (x : Byte) :
    streamByte c ks acc (streamByte c ks acc x) = x := by
  simp [streamByte]

/-- "In CFB the register always receives ciphertext" (R133): so the opposite direction feeds the same byte back. In OFB
the register receives no data. -/
theorem feedByte_streamByte (hdir : mode = .ofb ∨ dir ≠ dir') (ks : Sched) (acc : Block × Fin 8) (x : Byte) :
    feedByte c ks mode dir' acc (streamByte c ks acc x) = feedByte c ks mode dir acc x := by
  cases mode with
  | ofb => rfl
  | cfb =>
    cases dir with
    | enc =>
      cases dir' with
      | enc => simp at hdir
      | dec => rfl
    | dec =>
      cases dir' with
      | enc => rw [feedByte, streamByte_streamByte]; rfl
      | dec => simp at hdir

/-- The opposite direction undoes a run (R182). -/
theorem streamBytes_streamBytes (hdir : mode = .ofb ∨ dir ≠ dir') (ks : Sched) (acc : Block × Fin 8)
    (xs : List Byte) :
    streamBytes c ks mode dir' acc (streamBytes c ks mode dir acc xs) = xs := by
  induction xs generalizing acc with
  | nil => rfl
  | cons x xs ih => rw [streamBytes, streamBytes, streamByte_streamByte, feedByte_streamByte hdir, ih]

/-! ### The byte loop computes it -/

theorem byteStep_feed {discard : Bool} (p : Nat) : let t := byteStep c mode dir discard p s
    (t.r, t.pos) = feedByte c s.ks mode dir (s.r, s.pos) (Memory.read c s.dmem p) := by
  rw [byteStep_eq]
  rfl

theorem byteRun_feed {discard : Bool} (m p : Nat) : let t := byteRun c mode dir discard m p s
    (t.r, t.pos) = feedBytes c s.ks mode dir (s.r, s.pos) (Memory.readBytes c s.dmem p m) := by
  induction m generalizing p s with
  | zero => rfl
  | succ m ih =>
    have hstep := byteStep_feed (c := c) (s := s) (mode := mode) (dir := dir) (discard := discard) p
    have hrun := ih (s := byteStep c mode dir discard p s) (p + 1)
    rw [hstep, byteStep_readBytes_above] at hrun
    exact hrun

theorem byteRun_readBytes {m p : Nat} (hwf : Memory.wf c s.dmem) (hfit : m = 0 ∨ p + m ≤ c.dmemSize) :
    Memory.readBytes c (byteRun c mode dir false m p s).dmem p m =
      streamBytes c s.ks mode dir (s.r, s.pos) (Memory.readBytes c s.dmem p m) := by
  induction m generalizing p s with
  | zero => rfl
  | succ m ih =>
    have hstep := byteStep_feed (c := c) (s := s) (mode := mode) (dir := dir) (discard := false) p
    have hp : p < c.dmemSize := by omega
    have hrest := ih (s := byteStep c mode dir false p s) (p := p + 1) (Memory.wf_write hwf _ hp) (by omega)
    rw [hstep, byteStep_readBytes_above] at hrest
    have hfirst : Memory.read c (byteRun c mode dir false m (p + 1) (byteStep c mode dir false p s)).dmem p =
        streamByte c s.ks (s.r, s.pos) (Memory.read c s.dmem p) := by
      rw [byteRun_read_outside _ _ _ _ _ (.inl (Nat.lt_succ_self p))]
      exact Memory.read_write_same hwf p _
    rw [byteRun, Memory.readBytes, Memory.readBytes, streamBytes, hfirst, hrest]
    rfl

/-! ### The stream commands (R134) -/

theorem runWith_feedbackCommand (h : Ready s) (hb : BufferIn c a n) :
    runWith c (feedbackCommand mode dir k iv a n) s = feedbackBody c mode dir k iv a n s := by
  rw [runWith_of_none (prologue_feedbackCommand h hb), bodyOf_feedbackCommand]

theorem feedbackBody_ready (h : Ready s) : Ready (feedbackBody c mode dir k iv a n s) := by
  rw [feedbackBody_frame]
  exact ⟨h.1, .inl rfl⟩

theorem feedbackBody_rounds : (feedbackBody c mode dir k iv a n s).rounds = s.rounds := by
  rw [feedbackBody_frame]

theorem feedbackBody_wf (hb : BufferIn c a n) (hwf : Memory.wf c s.dmem) :
    Memory.wf c (feedbackBody c mode dir k iv a n s).dmem :=
  feedbackRun_wf mode dir false c a n (s := feedbackSeed c k iv s) hwf hb

theorem feedbackBody_r_feed : (feedbackBody c mode dir k iv a n s).r =
    (feedBytes c (c.initSchedule k s.rounds) mode dir (iv, 0) (buf c s.dmem a n)).1 :=
  feedbackBody_r.trans (congrArg Prod.fst
    (byteRun_feed (s := feedbackSeed c k iv s) (discard := false) n.toNat a.toNat))

/-- What a stream command leaves in its buffer is a function of what it found there, the key, the IV and ROUNDS. -/
theorem feedbackBody_buf (hb : BufferIn c a n) (hwf : Memory.wf c s.dmem) :
    buf c (feedbackBody c mode dir k iv a n s).dmem a n =
      streamBytes c (c.initSchedule k s.rounds) mode dir (iv, 0) (buf c s.dmem a n) := by
  rw [feedbackBody_dmem]
  exact byteRun_readBytes (s := feedbackSeed c k iv s) hwf hb.eq_zero_or_fits

/-! ### Round trips and the OFB directions (R182, R183) -/

theorem feedbackBody_feedbackBody_dmem (hdir : mode = .ofb ∨ dir ≠ dir') (hb : BufferIn c a n)
    (hwf : Memory.wf c s.dmem) :
    (feedbackBody c mode dir' k iv a n (feedbackBody c mode dir k iv a n s)).dmem = s.dmem := by
  have hwf1 : Memory.wf c (feedbackBody c mode dir k iv a n s).dmem := feedbackBody_wf hb hwf
  refine Memory.eq_of_buf_eq (a := a) (n := n) (feedbackBody_wf hb hwf1) hwf ?_ fun x hx => ?_
  · rw [feedbackBody_buf hb hwf1, feedbackBody_buf hb hwf, feedbackBody_rounds, streamBytes_streamBytes hdir]
  · rw [feedbackBody_read_outside hx, feedbackBody_read_outside hx]

theorem feedbackCommand_roundTrip (hdir : mode = .ofb ∨ dir ≠ dir') (h : Ready s) (hb : BufferIn c a n)
    (hwf : Memory.wf c s.dmem) :
    let cmds := [feedbackCommand mode dir k iv a n, feedbackCommand mode dir' k iv a n]
    AllAnswerOk c cmds s ∧ (runAll c cmds s).dmem = s.dmem := by
  have hrun := runWith_feedbackCommand (mode := mode) (dir := dir) (k := k) (iv := iv) h hb
  have h1 : Ready (runWith c (feedbackCommand mode dir k iv a n) s) := hrun ▸ feedbackBody_ready h
  refine ⟨⟨answeredOk_feedbackCommand mode dir h hb, answeredOk_feedbackCommand mode dir' h1 hb, trivial⟩, ?_⟩
  rw [runAll, runAll, runAll, runWith_feedbackCommand h1 hb, hrun, feedbackBody_feedbackBody_dmem hdir hb hwf]

/-- Settles O40: in each of the four pairs the second command undoes the first byte by byte. -/
theorem feedbackRoundTripRestoresMemory : Obligations.FeedbackRoundTripRestoresMemory := by
  intro c s k iv a n first second h hb hwf hi
  obtain ⟨rfl, rfl⟩ | ⟨rfl, rfl⟩ | ⟨rfl, rfl⟩ | ⟨rfl, rfl⟩ := hi
  · exact feedbackCommand_roundTrip (mode := .cfb) (dir := .enc) (dir' := .dec) (.inr (by decide)) h hb hwf
  · exact feedbackCommand_roundTrip (mode := .cfb) (dir := .dec) (dir' := .enc) (.inr (by decide)) h hb hwf
  · exact feedbackCommand_roundTrip (mode := .ofb) (dir := .enc) (dir' := .dec) (.inl rfl) h hb hwf
  · exact feedbackCommand_roundTrip (mode := .ofb) (dir := .enc) (dir' := .enc) (.inl rfl) h hb hwf

/-- The byte loop in OFB does not look at the direction (R138). -/
theorem byteRun_ofb_dec {discard : Bool} (m p : Nat) (s : State) :
    byteRun c .ofb .dec discard m p s = byteRun c .ofb .enc discard m p s := by
  induction m generalizing p s with
  | zero => rfl
  | succ m ih => exact ih (p + 1) (byteStep c .ofb .enc discard p s)

/-- Settles O35: the prologues are the same, and so are the byte loops of the two bodies. -/
theorem ofbDirectionsCoincide : Obligations.OfbDirectionsCoincide := by
  intro c k iv a n s
  have hp : prologue c (.ofbDecrypt k iv a n) s = prologue c (.ofbEncrypt k iv a n) s := rfl
  have hbody : feedbackBody c .ofb .dec k iv a n s = feedbackBody c .ofb .enc k iv a n s := by
    rw [feedbackBody_eq, feedbackBody_eq, streamRun, streamRun, byteRun_ofb_dec]
  rw [runWith_eq, runWith_eq, hp, bodyOf, bodyOf, hbody]

/-! ### The first output bytes (R193) -/

theorem feedbackBody_buf_of_le {s1 s2 : State} {n1 : Word} (hr : s1.rounds = s2.rounds) (hle : n1.toNat ≤ n.toNat)
    (hb : BufferIn c a n) (hwf1 : Memory.wf c s1.dmem) (hwf2 : Memory.wf c s2.dmem)
    (hbuf : buf c s1.dmem a n1 = buf c s2.dmem a n1) :
    buf c (feedbackBody c mode dir k iv a n s1).dmem a n1 =
      buf c (feedbackBody c mode dir k iv a n1 s2).dmem a n1 := by
  rw [← buf_take _ hle, feedbackBody_buf hb hwf1, feedbackBody_buf (hb.of_le hle) hwf2, streamBytes_take,
    buf_take _ hle, hr, hbuf]

/-- Settles O50: the first output bytes are a function of the first input bytes. -/
theorem streamOutputHasPrefixProperty : Obligations.StreamOutputHasPrefixProperty := by
  intro c s1 s2 k iv a n1 n cmd hcmd h1 h2 hr hle hb hwf1 hwf2 hbuf
  obtain ⟨mode, dir, rfl⟩ : ∃ mode dir, cmd = feedbackCommand mode dir := by
    rcases hcmd with rfl | rfl | rfl | rfl
    exacts [⟨.cfb, .enc, rfl⟩, ⟨.cfb, .dec, rfl⟩, ⟨.ofb, .enc, rfl⟩, ⟨.ofb, .dec, rfl⟩]
  rw [runWith_feedbackCommand h1 hb, runWith_feedbackCommand h2 (hb.of_le hle)]
  exact feedbackBody_buf_of_le hr hle hb hwf1 hwf2 hbuf

end Sys2Proof.Machine

/-! PROOFS. Moving a buffer and ADDR together (R191 of 44_properties.md): what a command answers and leaves in its
buffer is a function of the bytes it finds there. -/

namespace Sys2Proof.Machine

variable {c : Config} {s : State} {i : Instr} {m : Memory} {k : Key} {a b n : Word}

/-- The states differ in DMEM only, and there hold the same bytes in the buffers (a, n) and (b, n). -/
def MovedBuffer (c : Config) (a b n : Word) (t u : State) : Prop :=
  { u with dmem := t.dmem } = t ∧ buf c u.dmem b n = buf c t.dmem a n

/-! ### R207's checks do not look at ADDR, but for the range check -/

@[simp] theorem isConfigure_relocate : isConfigure (relocate b i) = isConfigure i := by
  cases i <;> rfl

@[simp] theorem allowedIn_relocate (p : MacPhase) : allowedIn (relocate b i) p = allowedIn i p := by
  cases i <;> rfl

@[simp] theorem lengthOk_relocate : lengthOk (relocate b i) = lengthOk i := by
  cases i <;> rfl

theorem bufferOf_relocate (hi : bufferOf i = some (a, n)) : bufferOf (relocate b i) = some (b, n) := by
  cases i <;> cases hi <;> rfl

theorem prologue_relocate (hi : bufferOf i = some (a, n)) (ha : BufferIn c a n) (hb : BufferIn c b n) (m : Memory) :
    prologue c (relocate b i) (s.setDmem m) = prologue c i s := by
  have hra : inRange c a n = true := inRange_eq_true.2 ha
  have hrb : inRange c b n = true := inRange_eq_true.2 hb
  simp [prologue, bufferInRange, bufferOf_relocate hi, hi, hra, hrb]

/-! ### The bodies -/

section Moved

variable (ha : BufferIn c a n) (hb : BufferIn c b n) (hwf : Memory.wf c s.dmem) (hwf' : Memory.wf c m)
  (hbuf : buf c s.dmem a n = buf c m b n)
include ha hb hwf hwf' hbuf

theorem ecbBody_moved (dir : Direction) (hn : n.toNat % 8 = 0) :
    MovedBuffer c a b n (ecbBody c dir k a n s) (ecbBody c dir k b n (s.setDmem m)) := by
  have hblocks := (buf_eq_iff_readBlock hn).1 hbuf
  refine ⟨rfl, (buf_eq_iff_readBlock hn).2 fun j hj => ?_⟩
  rw [ecbBody_readBlock hb (s := s.setDmem m) hwf' hj, ecbBody_readBlock ha hwf hj, hblocks j hj]
  rfl

theorem feedbackBody_moved (mode : Mode) (dir : CipherDir) (iv : Block) :
    MovedBuffer c a b n (feedbackBody c mode dir k iv a n s) (feedbackBody c mode dir k iv b n (s.setDmem m)) := by
  have hr : (feedbackBody c mode dir k iv b n (s.setDmem m)).r = (feedbackBody c mode dir k iv a n s).r := by
    rw [feedbackBody_r_feed, feedbackBody_r_feed, hbuf]
    rfl
  refine ⟨?_, ?_⟩
  · rw [feedbackBody_frame (s := s.setDmem m), hr, feedbackBody_frame (s := s)]
    rfl
  · rw [feedbackBody_buf ha hwf, feedbackBody_buf hb (s := s.setDmem m) hwf', hbuf]
    rfl

end Moved

section Mac

variable (hbuf : buf c s.dmem a n = buf c m b n)
include hbuf

theorem macUpdateBody_setDmem : macUpdateBody c b n (s.setDmem m) = (macUpdateBody c a n s).setDmem m := by
  rw [macUpdateBody_absorb, macUpdateBody_absorb, hbuf]
  rfl

theorem macWholeBody_setDmem : macWholeBody c k b n (s.setDmem m) = (macWholeBody c k a n s).setDmem m := by
  rw [macWholeBody_eq, macWholeBody_eq, hbuf]
  rfl

/-- A MAC body writes no byte, so the buffers hold what they held. -/
theorem movedBuffer_setDmem {t : State} (ht : t.dmem = s.dmem) : MovedBuffer c a b n t (t.setDmem m) := by
  refine ⟨rfl, ?_⟩
  rw [State.setDmem_dmem, ht, hbuf]

end Mac

@[simp] theorem relocate_ecbCommand (dir : Direction) :
    relocate b (ecbCommand dir k a n) = ecbCommand dir k b n := by
  cases dir <;> rfl

@[simp] theorem relocate_feedbackCommand (mode : Mode) (dir : CipherDir) (iv : Block) :
    relocate b (feedbackCommand mode dir k iv a n) = feedbackCommand mode dir k iv b n := by
  cases mode <;> cases dir <;> rfl

/-- A MAC body that finds the same bytes computes the same. -/
theorem bodyOf_relocate_of_not_cipher (hi : bufferOf i = some (a, n)) (hc : isCipher i = false)
    (hbuf : buf c s.dmem a n = buf c m b n) :
    bodyOf c (relocate b i) (s.setDmem m) = (bodyOf c i s).setDmem m := by
  cases i
  case macUpdate => cases hi; rw [relocate, bodyOf, macUpdateBody_setDmem hbuf]; rfl
  case macCompute => cases hi; rw [relocate, bodyOf, macWholeBody_setDmem hbuf]; rfl
  case macVerify => cases hi; rw [relocate, bodyOf, macWholeBody_setDmem hbuf]; rfl
  case configure | macInit | macFinish | macGet | macCmp => cases hi
  all_goals cases hc

theorem length_of_prologue_ecbCommand {dir : Direction} (hp : prologue c (ecbCommand dir k a n) s = none) :
    n.toNat % 8 = 0 := by
  obtain hconf | ⟨-, -, hl, -⟩ := prologue_eq_none.1 hp
  · simp at hconf
  · simpa using hl

theorem bodyOf_moved (hi : bufferOf i = some (a, n)) (hp : prologue c i s = none) (ha : BufferIn c a n)
    (hb : BufferIn c b n) (hwf : Memory.wf c s.dmem) (hwf' : Memory.wf c m) (hbuf : buf c s.dmem a n = buf c m b n) :
    MovedBuffer c a b n (bodyOf c i s) (bodyOf c (relocate b i) (s.setDmem m)) := by
  cases hc : isCipher i with
  | true =>
    obtain ⟨k, a', n', ⟨dir, rfl⟩ | ⟨mode, dir, iv, rfl⟩⟩ := eq_command_of_isCipher hc
    · rw [bufferOf_ecbCommand] at hi
      cases hi
      rw [relocate_ecbCommand, bodyOf_ecbCommand, bodyOf_ecbCommand]
      exact ecbBody_moved ha hb hwf hwf' hbuf dir (length_of_prologue_ecbCommand hp)
    · rw [bufferOf_feedbackCommand] at hi
      cases hi
      rw [relocate_feedbackCommand, bodyOf_feedbackCommand, bodyOf_feedbackCommand]
      exact feedbackBody_moved ha hb hwf hwf' hbuf mode dir iv
  | false =>
    rw [bodyOf_relocate_of_not_cipher hi hc hbuf]
    exact movedBuffer_setDmem hbuf (bodyOf_dmem_of_not_cipher hc)

/-- Settles O48: the moved command raises the same error or runs the moved body. -/
theorem commandsArePositionIndependent : Obligations.CommandsArePositionIndependent := by
  intro c i s m a n b hi ha hb hwf hwf' hbuf
  show MovedBuffer c a b n (runWith c i s) (runWith c (relocate b i) (s.setDmem m))
  have hmoved := prologue_relocate hi ha hb m (s := s)
  obtain ⟨e, hp, hrun⟩ | ⟨hp, hrun⟩ := runWith_cases c i s
  · rw [hrun, runWith_of_some (hmoved.trans hp)]
    exact movedBuffer_setDmem (t := raise e s) hbuf rfl
  · rw [hrun, runWith_of_none (hmoved.trans hp)]
    exact bodyOf_moved hi hp ha hb hwf hwf' hbuf

end Sys2Proof.Machine

/-! PROOFS. The laws of the MAC (44_properties.md): determinism (R187), streaming (R188), verification (R189) and the
source's concrete scenario (R190). -/

namespace Sys2Proof.Machine

variable {c : Config} {s s1 s2 : State} {k : Key} {tag : Block} {a a1 a2 n : Word}

/-! ### Determinism (R187) -/

theorem answeredOk_macCompute (h : Ready s) (hb : BufferIn c a n) :
    AnsweredOk (runWith c (.macCompute k a n) s) :=
  answeredOk_runWith_iff.2 (prologue_macCompute_eq_none.2 ⟨h, hb⟩)

/-- Settles O42: the tag is R164's of the bytes, under the key and MACROUNDS. -/
theorem macTagIsDeterministic : Obligations.MacTagIsDeterministic := by
  intro c s1 s2 k a1 a2 n h1 h2 hm hb1 hb2 hbuf
  refine ⟨answeredOk_macCompute h1 hb1, ?_⟩
  rw [runWith_macCompute_response h1 hb1, runWith_macCompute_response h2 hb2, hm, hbuf]

/-! ### Streaming (R188) -/

/-- The session is open in `t` and has absorbed the bytes `data` since `s` (R155). -/
structure Absorbed (c : Config) (data : List Byte) (s t : State) : Prop where
  opened : SessionOpen t
  dmem : t.dmem = s.dmem
  ks : t.ks = s.ks
  acc : (t.r, t.pos) = absorb c s.ks (s.r, s.pos) data

theorem Absorbed.refl (h : SessionOpen s) : Absorbed c [] s s := ⟨h, rfl, rfl, rfl⟩

theorem Absorbed.trans {data data' : List Byte} {t u : State} (h : Absorbed c data s t)
    (h' : Absorbed c data' t u) : Absorbed c (data ++ data') s u where
  opened := h'.opened
  dmem := h'.dmem.trans h.dmem
  ks := h'.ks.trans h.ks
  acc := by rw [h'.acc, h.acc, h.ks, absorb_append]

theorem absorbed_macUpdate (h : SessionOpen s) (hb : BufferIn c a n) :
    Absorbed c (buf c s.dmem a n) s (runWith c (.macUpdate a n) s) := by
  have hopen := sessionOpen_runWith_macUpdate h hb
  rw [runWith_macUpdate h hb, macUpdateBody_absorb] at hopen ⊢
  exact ⟨hopen, rfl, rfl, rfl⟩

/-- One `macUpdate` for each buffer of a list. -/
def macUpdates (pieces : List (Word × Word)) : List Instr := pieces.map fun x => .macUpdate x.1 x.2

/-- The bytes of the buffers of a list, one after another. -/
def piecesData (c : Config) (m : Memory) (pieces : List (Word × Word)) : List Byte :=
  pieces.flatMap fun x => buf c m x.1 x.2

theorem macUpdates_absorb (h : SessionOpen s) {pieces : List (Word × Word)}
    (hin : ∀ x ∈ pieces, BufferIn c x.1 x.2) : AllAnswerOk c (macUpdates pieces) s ∧
      Absorbed c (piecesData c s.dmem pieces) s (runAll c (macUpdates pieces) s) := by
  induction pieces generalizing s with
  | nil => exact ⟨trivial, .refl h⟩
  | cons x pieces ih =>
    obtain ⟨hx, hrest⟩ := List.forall_mem_cons.1 hin
    have hfirst := absorbed_macUpdate h hx
    obtain ⟨hok, habs⟩ := ih hfirst.opened hrest
    refine ⟨⟨answeredOk_macUpdate h hx, hok⟩, ?_⟩
    rw [hfirst.dmem] at habs
    exact hfirst.trans habs

/-- `macFinish` and `macGet` answer the tag of R164 over what a fresh session absorbed. -/
theorem runAll_macFinish_macGet_response {data : List Byte} {t : State}
    (h : Absorbed c data (runWith c (.macInit k) s) t) (hs : Ready s) :
    (runAll c [.macFinish, .macGet] t).response = some ⟨.ok, false, macTag c k s.macRounds data⟩ := by
  obtain ⟨hopen, -, hks, hacc⟩ := h
  rw [runWith_macInit hs] at hks hacc
  have hks' : t.ks = macSched c k s.macRounds := hks
  have hr : t.r = macLast c (macSched c k s.macRounds) data :=
    congrArg Prod.fst (hacc.trans (absorb_eq_macLast (macSched c k s.macRounds) data))
  rw [runAll, runAll, runAll, runWith_macGet (tagReady_runWith_macFinish hopen), runWith_macFinish hopen, macTag,
    ← hr, ← hks']
  rfl

theorem allAnswerOk_macFinish_macGet (h : SessionOpen s) : AllAnswerOk c [.macFinish, .macGet] s :=
  ⟨answeredOk_macFinish h,
    answeredOk_runWith_iff.2 (prologue_macGet_eq_none.2 (tagReady_runWith_macFinish h)), trivial⟩

/-- The session of R188. -/
def macSession (k : Key) (pieces : List (Word × Word)) : List Instr :=
  .macInit k :: macUpdates pieces ++ [.macFinish, .macGet]

theorem macSession_answers (h : Ready s) {pieces : List (Word × Word)} (hin : ∀ x ∈ pieces, BufferIn c x.1 x.2) :
    AllAnswerOk c (macSession k pieces) s ∧ (runAll c (macSession k pieces) s).response =
      some ⟨.ok, false, macTag c k s.macRounds (piecesData c s.dmem pieces)⟩ := by
  have hinit : AnsweredOk (runWith c (.macInit k) s) := answeredOk_runWith_iff.2 (prologue_macInit_eq_none.2 h)
  have hdmem : (runWith c (.macInit k) s).dmem = s.dmem := by rw [runWith_macInit h]; rfl
  obtain ⟨hok, habs⟩ := macUpdates_absorb (sessionOpen_runWith_macInit (k := k) h) hin
  rw [hdmem] at habs
  rw [macSession, allAnswerOk_append, runAll_append]
  exact ⟨⟨⟨hinit, hok⟩, allAnswerOk_macFinish_macGet habs.opened⟩, runAll_macFinish_macGet_response habs h⟩

/-- Settles O43: the session absorbs the bytes of the buffers one after another, and `macCompute` answers R164's tag
too. -/
theorem macStreamingEquivalence : Obligations.MacStreamingEquivalence := by
  intro c s k pieces h hin
  obtain ⟨hok, hresp⟩ := macSession_answers (k := k) h hin
  refine ⟨hok, hresp, fun s2 a n h2 hm hb hbuf => ?_⟩
  rw [runWith_macCompute_response h2 hb, hm, hbuf]
  exact hresp.symm

/-! ### Verification (R189) -/

theorem runWith_macVerify_response (h : Ready s) (hb : BufferIn c a n) :
    (runWith c (.macVerify k tag a n) s).response =
      some ⟨.ok, decide (tag = macTag c k s.macRounds (buf c s.dmem a n)), zeroBlock⟩ := by
  rw [runWith_macVerify h hb, macWholeBody_eq, ← tagsEqual_eq_decide]
  rfl

/-- `t` is ready and has the MACROUNDS and DMEM of `s`: the one-shot MAC commands answer in `t` as in `s`. -/
structure ReadyAs (s t : State) : Prop where
  ready : Ready t
  macRounds : t.macRounds = s.macRounds
  dmem : t.dmem = s.dmem

theorem ReadyAs.trans {t u : State} (h : ReadyAs s t) (h' : ReadyAs t u) : ReadyAs s u :=
  ⟨h'.ready, h'.macRounds.trans h.macRounds, h'.dmem.trans h.dmem⟩

theorem readyAs_macCompute (h : Ready s) (hb : BufferIn c a n) : ReadyAs s (runWith c (.macCompute k a n) s) := by
  rw [runWith_macCompute h hb, macWholeBody_eq]
  exact ⟨⟨h.1, .inr rfl⟩, rfl, rfl⟩

theorem readyAs_macVerify (h : Ready s) (hb : BufferIn c a n) : ReadyAs s (runWith c (.macVerify k tag a n) s) := by
  rw [runWith_macVerify h hb, macWholeBody_eq]
  exact ⟨⟨h.1, .inr rfl⟩, rfl, rfl⟩

theorem ReadyAs.macCompute_response {t : State} (h : ReadyAs s t) (hb : BufferIn c a n) :
    (runWith c (.macCompute k a n) t).response =
      some ⟨.ok, false, macTag c k s.macRounds (buf c s.dmem a n)⟩ := by
  rw [runWith_macCompute_response h.ready hb, h.macRounds, h.dmem]

/-- The tag of the buffer verifies. -/
theorem ReadyAs.macVerify_response {t : State} (h : ReadyAs s t) (hb : BufferIn c a n) :
    (runWith c (.macVerify k (macTag c k s.macRounds (buf c s.dmem a n)) a n) t).response =
      some ⟨.ok, true, zeroBlock⟩ := by
  rw [runWith_macVerify_response h.ready hb, h.macRounds, h.dmem, decide_eq_true rfl]

/-- A difference between two message blocks is one between the blocks of the chains (R164). -/
theorem macChain_ne_of_block_ne (ks : Sched) {msg msg' : List Byte} {j : Nat}
    (hprev : macChain c ks msg j = macChain c ks msg' j)
    (hne : ∃ i < 8, msg.getD (8 * j + i) 0 ≠ msg'.getD (8 * j + i) 0) :
    macChain c ks msg (j + 1) ≠ macChain c ks msg' (j + 1) := by
  obtain ⟨i, hi, hne⟩ := hne
  intro heq
  have hget := congrArg (·[i]) heq
  simp only [macChain_succ_getElem _ _ _ hi, hprev] at hget
  exact hne ((BitVec.xor_left_inj _).1 hget)

/-- A difference between two chains goes on through equal message blocks, since `E` is injective (R103). -/
theorem macChain_succ_ne (hinv : c.PInv) (ks : Sched) {msg msg' : List Byte} {j : Nat}
    (hprev : macChain c ks msg j ≠ macChain c ks msg' j)
    (hsame : ∀ i < 8, msg.getD (8 * j + i) 0 = msg'.getD (8 * j + i) 0) :
    macChain c ks msg (j + 1) ≠ macChain c ks msg' (j + 1) := by
  intro heq
  refine hprev (hinv.forward_injective ks (Vector.ext fun i hi => ?_))
  have hget := congrArg (·[i]) heq
  simp only [macChain_succ_getElem _ _ _ hi, hsame i hi] at hget
  exact (BitVec.xor_right_inj _).1 hget

/-- Messages that differ inside block `b` only: from that block on the chains differ. -/
theorem macChain_ne_of_differ_in_block (hinv : c.PInv) (ks : Sched) {msg msg' : List Byte} {b j : Nat}
    (hsame : ∀ i, i / 8 ≠ b → msg.getD i 0 = msg'.getD i 0)
    (hne : ∃ i < 8, msg.getD (8 * b + i) 0 ≠ msg'.getD (8 * b + i) 0) (hj : b + 1 ≤ j) :
    macChain c ks msg j ≠ macChain c ks msg' j := by
  induction j, hj using Nat.le_induction with
  | base => exact macChain_ne_of_block_ne ks (macChain_congr ks b fun i hi => hsame i (by omega)) hne
  | succ j hj ih => exact macChain_succ_ne hinv ks ih fun i hi => hsame _ (by omega)

theorem macTag_ne_of_differ_in_block (hinv : c.PInv) (k : Key) (m : Byte) {msg msg' : List Byte} {b : Nat}
    (hlen : msg.length = msg'.length) (hmsg : msg ≠ msg')
    (hsame : ∀ i, i / 8 ≠ b → msg.getD i 0 = msg'.getD i 0) :
    macTag c k m msg ≠ macTag c k m msg' := by
  obtain ⟨i, hi, hne⟩ : ∃ i < msg.length, msg.getD i 0 ≠ msg'.getD i 0 := by
    by_contra hall
    push Not at hall
    refine hmsg (List.ext_getElem hlen fun i h1 h2 => ?_)
    simpa [h1, h2] using hall i h1
  have hb : i / 8 = b := by_contra fun h => hne (hsame i h)
  have hblock : ∃ j < 8, msg.getD (8 * b + j) 0 ≠ msg'.getD (8 * b + j) 0 :=
    ⟨i % 8, by omega, by rwa [← hb, Nat.div_add_mod]⟩
  rw [macTag_eq_macChain, macTag_eq_macChain, ← hlen]
  exact (hinv.forward_injective _).ne (macChain_ne_of_differ_in_block hinv _ hsame hblock (by omega))

theorem buf_getD (m : Memory) (j : Nat) :
    (buf c m a n).getD j 0 = if j < n.toNat then Memory.read c m (a.toNat + j) else 0 := by
  split_ifs with hj
  · rw [List.getD_eq_getElem _ _ (by simpa using hj)]
    exact Memory.readBytes_getElem _ _ _ _ _
  · exact List.getD_eq_default _ _ (by simpa using hj)

theorem macVerify_rejects (hinv : c.PInv) (h1 : Ready s1) (h2 : Ready s2) (hm : s1.macRounds = s2.macRounds)
    (hb1 : BufferIn c a1 n) (hb2 : BufferIn c a2 n) (hne : buf c s1.dmem a1 n ≠ buf c s2.dmem a2 n) {b : Nat}
    (hsame : ∀ i, i < n.toNat → i / 8 ≠ b →
      Memory.read c s1.dmem (a1.toNat + i) = Memory.read c s2.dmem (a2.toNat + i))
    (htag : (runWith c (.macCompute k a1 n) s1).response = some ⟨.ok, false, tag⟩) :
    (runWith c (.macVerify k tag a2 n) s2).response = some ⟨.ok, false, zeroBlock⟩ := by
  have hsame' : ∀ i, i / 8 ≠ b → (buf c s1.dmem a1 n).getD i 0 = (buf c s2.dmem a2 n).getD i 0 := by
    intro i hi
    rw [buf_getD, buf_getD]
    split_ifs with hlt
    · exact hsame i hlt hi
    · rfl
  rw [runWith_macCompute_response h1 hb1] at htag
  cases htag
  rw [runWith_macVerify_response h2 hb2, hm, decide_eq_false]
  exact macTag_ne_of_differ_in_block hinv k _ (by simp) hne hsame'

/-- Settles O44: the tag is a function of the bytes, and by P-INV a difference inside one block reaches it. -/
theorem macVerifyAcceptsAndRejects : Obligations.MacVerifyAcceptsAndRejects := by
  constructor
  · intro c s k a n h hb
    exact ⟨_, runWith_macCompute_response h hb, (readyAs_macCompute h hb).macVerify_response hb⟩
  · intro c s1 s2 k a1 a2 n b tag hinv h1 h2 hm hb1 hb2 hne hsame htag
    exact macVerify_rejects hinv h1 h2 hm hb1 hb2 hne hsame htag

/-! ### The source's concrete scenario (R190) -/

/-- An ECB round trip leaves a ready state, whatever KS it leaves. -/
theorem runAll_ecbCommand_ready {d d' : Direction} (h : Ready s) (hn : n.toNat % 8 = 0) (hb : BufferIn c a n) :
    Ready (runAll c [ecbCommand d k a n, ecbCommand d' k a n] s) := by
  rw [runAll, runAll, runAll, runWith_ecbCommand h hn hb, runWith_ecbCommand (ecbBody_ready h) hn hb]
  exact ecbBody_ready (ecbBody_ready h)

theorem ready_configure_resetEvent (r m : Byte) (s : State) : Ready (runWith c (.configure r m) (resetEvent c s)) := by
  rw [runWith_configure]
  exact ⟨rfl, .inl rfl⟩

theorem buf_writeBytes {m : Memory} (hwf : Memory.wf c m) {bytes : List Byte} (hlen : bytes.length = n.toNat)
    (hfit : a.toNat + n.toNat ≤ c.dmemSize) : buf c (Memory.writeBytes c m a.toNat bytes) a n = bytes := by
  refine List.ext_getElem (by simp [hlen]) fun i h1 h2 => ?_
  exact (Memory.readBytes_getElem _ _ _ _ _).trans (Memory.read_writeBytes_inside hwf _ _ (hlen ▸ hfit) i h2)

/-- After the host has changed one byte of a buffer of one block, `macVerify` rejects its tag. -/
theorem macVerify_rejects_changed_byte (hinv : c.PInv) (h : Ready s) (hwf : Memory.wf c s.dmem)
    (hfit : a.toNat + 8 ≤ c.dmemSize) {j : Nat} (hj : j < 8) {v : Byte}
    (hv : Memory.read c s.dmem (a.toNat + j) ≠ v)
    (htag : (runWith c (.macCompute k a 8) s).response = some ⟨.ok, false, tag⟩) :
    ∃ t, hostWriteEvent c (a.toNat + j) [v] s = .next t ∧
      (runWith c (.macVerify k tag a 8) t).response = some ⟨.ok, false, zeroBlock⟩ := by
  have hb : BufferIn c a 8 := .inr hfit
  have hin : a.toNat + j + [v].length ≤ c.dmemSize := by simp; omega
  refine ⟨_, hostWriteEvent_of_inside s (.inr hin), ?_⟩
  refine macVerify_rejects (b := 0) hinv h (s2 := s.setDmem _) h rfl hb hb (fun hbuf => hv ?_) (fun i hi h0 => ?_) htag
  · rw [buf_eq_iff.1 hbuf j hj]
    exact Memory.read_write_same hwf _ v
  · exact absurd (Nat.div_eq_of_lt hi) h0

/-- The verifying part of the scenario, from any ready state: two tags are computed, the tag is verified, and it is
rejected once the host has changed one byte of the buffer. -/
theorem macScenario (hinv : c.PInv) (h : Ready s) (hwf : Memory.wf c s.dmem) (hfit : a.toNat + 8 ≤ c.dmemSize)
    {j : Nat} (hj : j < 8) {v : Byte} (hv : Memory.read c s.dmem (a.toNat + j) ≠ v) :
    ∃ tag, (runWith c (.macCompute k a 8) s).response = some ⟨.ok, false, tag⟩ ∧
      (runAll c [.macCompute k a 8, .macCompute k a 8] s).response = some ⟨.ok, false, tag⟩ ∧
      (runAll c [.macCompute k a 8, .macCompute k a 8, .macVerify k tag a 8] s).response =
        some ⟨.ok, true, zeroBlock⟩ ∧
      ∃ t, hostWriteEvent c (a.toNat + j) [v]
          (runAll c [.macCompute k a 8, .macCompute k a 8, .macVerify k tag a 8] s) = .next t ∧
        (runWith c (.macVerify k tag a 8) t).response = some ⟨.ok, false, zeroBlock⟩ := by
  have hb : BufferIn c a 8 := .inr hfit
  have h1 := readyAs_macCompute (k := k) h hb
  have h2 := h1.trans (readyAs_macCompute (k := k) h1.ready hb)
  have h3 := h2.trans (readyAs_macVerify (k := k) (tag := macTag c k s.macRounds (buf c s.dmem a 8)) h2.ready hb)
  refine ⟨_, runWith_macCompute_response h hb, h1.macCompute_response hb, h2.macVerify_response hb, ?_⟩
  rw [← h3.dmem] at hwf hv
  exact macVerify_rejects_changed_byte hinv h3.ready hwf hfit hj hv (h3.macCompute_response hb)

theorem read_scenario_byte {m : Memory} (hbuf : buf c m a 8 = [0, 1, 2, 3, 4, 5, 6, 7]) (j : Fin 8) :
    Memory.read c m (a.toNat + j.val) = BitVec.ofNat 8 j.val := by
  have hget := buf_getD (c := c) (a := a) (n := 8) m j.val
  rw [hbuf, if_pos (show j.val < (8 : Word).toNat from j.isLt)] at hget
  rw [← hget]
  fin_cases j <;> rfl

/-- The host's increment changes the byte. -/
theorem ofNat_ne_ofNat_succ (j : Fin 8) : BitVec.ofNat 8 j.val ≠ BitVec.ofNat 8 (j.val + 1) := by
  revert j
  decide

/-- Settles O47: `configure` and the host's write leave a ready state with the eight bytes in the buffer, the ECB round
trip leaves both (R181), and the rest is the scenario of the one-shot MAC commands. -/
theorem concreteScenarioHolds : Obligations.ConcreteScenarioHolds := by
  intro c s0 s1 s2 s3 a j hinv hfit hwf hs1 hs2 hs3
  have hb : BufferIn c a 8 := .inr hfit
  have h1 : Ready s1 := hs1 ▸ ready_configure_resetEvent 32 16 s0
  have hd1 : s1.dmem = s0.dmem := by rw [hs1, runWith_configure]; rfl
  rw [hostWriteEvent_of_inside _ (.inr hfit), Host.Outcome.next.injEq] at hs2
  have h2 : Ready s2 := hs2 ▸ h1
  have hwf2 : Memory.wf c s2.dmem := hs2 ▸ Memory.wf_writeBytes (hd1 ▸ hwf) _ _ (.inr hfit)
  have hbuf2 : buf c s2.dmem a 8 = [0, 1, 2, 3, 4, 5, 6, 7] := hs2 ▸ buf_writeBytes (hd1 ▸ hwf) rfl hfit
  obtain ⟨hec, hdec, hd3⟩ :=
    ecbCommand_roundTrip (k := zeroKey) (d := .forward) (d' := .inverse) h2 rfl hb hwf2 hinv
  have h3 : Ready s3 := hs3 ▸ runAll_ecbCommand_ready (d := .forward) (d' := .inverse) h2 rfl hb
  have hd3' : s3.dmem = s2.dmem := hs3 ▸ hd3
  refine ⟨?_, hec, hs3 ▸ hdec, hd3' ▸ hbuf2, ?_⟩
  · rw [hs1, runWith_configure]
    rfl
  · refine macScenario hinv h3 (hd3' ▸ hwf2) hfit j.isLt ?_
    rw [read_scenario_byte (hd3' ▸ hbuf2)]
    exact ofNat_ne_ofNat_succ j

end Sys2Proof.Machine

/-! PROOFS. Errors and the idle core (60_exceptions.md): the prologue's four checks (R108) in the terms of R203 to R206,
which cause it answers with (R207), and the idle core (R218). -/

namespace Sys2Proof.Machine

variable {c : Config} {s : State} {i : Instr} {p : MacPhase}

/-! ### The four checks, in the terms of the rules (R203 to R206) -/

theorem isConfigure_iff : isConfigure i = true ↔ ∃ r m, i = .configure r m := by
  refine ⟨eq_configure_of_isConfigure, ?_⟩
  rintro ⟨r, m, rfl⟩
  rfl

theorem allowedIn_eq_false_iff : allowedIn i p = false ↔ phaseTable i p = none := by
  simp [allowedIn_eq_phaseTable]

theorem allowedIn_iff : allowedIn i p = true ↔ phaseTable i p ≠ none := by
  rw [ne_eq, ← allowedIn_eq_false_iff, Bool.not_eq_false]

theorem lengthOk_iff : lengthOk i = true ↔ ∀ l, ecbLength i = some l → l % 8 = 0 := by
  rw [← Bool.not_eq_false, lengthOk_eq_false_iff]
  simp

theorem inRange_eq_false_iff {a n : Word} :
    inRange c a n = false ↔ 0 < n.toNat ∧ c.dmemSize < a.toNat + n.toNat := by
  simp [inRange, BitVec.toNat_eq, Nat.pos_iff_ne_zero]

theorem bufferInRange_eq_false_iff : bufferInRange c i = false ↔
    ∃ a n, bufferOf i = some (a, n) ∧ 0 < n.toNat ∧ c.dmemSize < a.toNat + n.toNat := by
  unfold bufferInRange
  split
  next hb => simp [hb]
  next a n hb => simp [hb, inRange_eq_false_iff]

/-- `configure` has neither a buffer nor a length. -/
theorem isConfigure_eq_false_of_check (h : lengthOk i = false ∨ bufferInRange c i = false) :
    isConfigure i = false := by
  cases i with
  | configure r m => rcases h with h | h <;> cases h
  | _ => rfl

/-! ### The cause a command answers with (R207) -/

/-- The STATUS of a command is that of the cause its prologue answers, OK when there is none (R201). -/
theorem runWith_status (c : Config) (i : Instr) (s : State) :
    ∃ q, (runWith c i s).response = some q ∧ q.status = (prologue c i s).elim .ok .error := by
  obtain ⟨e, hp, hrun⟩ | ⟨hp, hrun⟩ := runWith_cases c i s
  · exact ⟨_, hrun ▸ raise_response s e, hp ▸ rfl⟩
  · obtain ⟨v, tag, hv⟩ := bodyOf_response c i s
    exact ⟨_, hrun ▸ hv, hp ▸ rfl⟩

/-- A command that answers a cause was refused for it by the prologue. -/
theorem prologue_of_status {q : Response} {e : Cause} (hq : (runWith c i s).response = some q)
    (he : q.status = .error e) : prologue c i s = some e := by
  obtain ⟨e', he', hp, -⟩ := runWith_of_status_ne_ok hq (by simp [he])
  rw [he, Status.error.injEq] at he'
  exact he' ▸ hp

/-- The first check, which only `configure` is spared (R203). -/
theorem prologue_eq_notConfigured_iff :
    prologue c i s = some .notConfigured ↔ s.cfgv = false ∧ isConfigure i = false := by
  unfold prologue
  split_ifs <;> simp_all

/-- The length check answers when the two before it pass; `configure` passes it (R205). -/
theorem prologue_eq_invalidLength_iff : prologue c i s = some .invalidLength ↔
    s.cfgv = true ∧ allowedIn i s.macst = true ∧ lengthOk i = false := by
  have hconf := isConfigure_eq_false_of_check (c := c) (i := i)
  unfold prologue
  split_ifs <;> simp_all

/-- The range check, the last, answers when the other three pass; `configure` passes it (R206). -/
theorem prologue_eq_outOfRange_iff : prologue c i s = some .outOfRange ↔
    s.cfgv = true ∧ allowedIn i s.macst = true ∧ lengthOk i = true ∧ bufferInRange c i = false := by
  have hconf := isConfigure_eq_false_of_check (c := c) (i := i)
  unfold prologue
  split_ifs <;> simp_all

/-- Settles O15: the port refuses an illegal packet, and for a command R207's chain of causes is the chain of the
prologue's checks, link by link. -/
theorem statusIsTheFirstCause : Obligations.StatusIsTheFirstCause := by
  refine ⟨fun s p rest he hd => ⟨_, _, step_of_illegalPacket he hd, rfl, rfl⟩, fun c i s => ?_⟩
  obtain ⟨q, hq, hst⟩ := runWith_status c i s
  refine ⟨q, hq, hst.trans ?_⟩
  simp only [prologue, Bool.not_eq_true', ← isConfigure_iff, ← allowedIn_eq_false_iff, ← lengthOk_eq_false_iff,
    ← bufferInRange_eq_false_iff]
  split_ifs <;> rfl

/-! ### NotConfigured (R203) -/

@[simp] theorem respondTag_cfgv : (respondTag s).cfgv = s.cfgv := rfl

@[simp] theorem respondComparison_cfgv (tag : Block) : (respondComparison tag s).cfgv = s.cfgv := rfl

@[simp] theorem ecbBody_cfgv (dir : Direction) (k : Key) (a n : Word) : (ecbBody c dir k a n s).cfgv = s.cfgv := rfl

@[simp] theorem feedbackBody_cfgv (mode : Mode) (dir : CipherDir) (k : Key) (iv : Block) (a n : Word) :
    (feedbackBody c mode dir k iv a n s).cfgv = s.cfgv := by
  rw [feedbackBody_eq]

@[simp] theorem macInitBody_cfgv (k : Key) : (macInitBody c k s).cfgv = s.cfgv := rfl

@[simp] theorem macFinishBody_cfgv : (macFinishBody c s).cfgv = s.cfgv := rfl

@[simp] theorem macWholeBody_cfgv (k : Key) (a n : Word) : (macWholeBody c k a n s).cfgv = s.cfgv := by
  rw [macWholeBody_eq]

/-- Only the body of `configure` writes CFGV, and it sets it (R25). -/
theorem bodyOf_cfgv : (bodyOf c i s).cfgv = (isConfigure i || s.cfgv) := by
  cases i
  case configure => rfl
  all_goals simp [bodyOf, isConfigure, macUpdateBody_cfgv]

/-- No command clears CFGV (R25). -/
theorem runWith_cfgv (hc : s.cfgv = true) : (runWith c i s).cfgv = true := by
  obtain ⟨e, -, hrun⟩ | ⟨-, hrun⟩ := runWith_cases c i s
  · rw [hrun, raise_cfgv, hc]
  · rw [hrun, bodyOf_cfgv, hc, Bool.or_true]

/-- Settles O16: only CFGV = 0 makes the prologue answer NotConfigured, and neither `raise` nor a body clears CFGV. -/
theorem notConfiguredUntilConfigure : Obligations.NotConfiguredUntilConfigure := by
  refine ⟨fun i s hc hi => ?_, fun i s t hc ht => ?_⟩
  · have hconf : isConfigure i = false := by
      refine Bool.eq_false_of_not_eq_true fun h => ?_
      obtain ⟨r, m, h⟩ := isConfigure_iff.1 h
      exact hi r m h
    rw [exec_eq_runWith, runWith_of_some (prologue_eq_notConfigured_iff.2 ⟨hc, hconf⟩)]
    rfl
  · rw [exec_eq_runWith, Host.Outcome.next.injEq] at ht
    subst ht
    refine ⟨runWith_cfgv hc, fun q hq hst => ?_⟩
    have hc' : s.cfgv = false := (prologue_eq_notConfigured_iff.1 (prologue_of_status hq hst)).1
    simp [hc] at hc'

/-! ### OutOfRange (R206) -/

/-- Settles O19: the prologue answers OutOfRange exactly when the range check is the first to fail. -/
theorem outOfRangeBufferRefused : Obligations.OutOfRangeBufferRefused := by
  refine ⟨fun c i s a n hi hc hph hl hn hr => ?_, fun c i s q hq hst => ?_, fun c i s l hl hne hc hph => ?_⟩
  · have hlen : lengthOk i = true := lengthOk_iff.2 hl
    have hrange : bufferInRange c i = false := bufferInRange_eq_false_iff.2 ⟨a, n, hi, hn, hr⟩
    exact runWith_of_some (prologue_eq_outOfRange_iff.2 ⟨hc, allowedIn_iff.2 hph, hlen, hrange⟩)
  · obtain ⟨-, -, -, hrange⟩ := prologue_eq_outOfRange_iff.1 (prologue_of_status hq hst)
    exact bufferInRange_eq_false_iff.1 hrange
  · have hlen : lengthOk i = false := lengthOk_eq_false_iff.2 ⟨l, hl, hne⟩
    exact runWith_of_some (prologue_eq_invalidLength_iff.2 ⟨hc, allowedIn_iff.2 hph, hlen⟩)

/-! ### The idle core (R218) -/

/-- Settles O10: a step without a coming event does nothing. -/
theorem idleCoreHoldsState : Obligations.IdleCoreHoldsState :=
  fun _ he => step_of_idle he

end Sys2Proof.Machine

/-! PROOFS. Reset and hazards (70_reset_and_hazards.md): a reset during a command (R231), what only a reset does (R232),
the first `configure` (R234), how long a tag stays readable (R240), a `configure` inside a session (R242) and the call
counts (R245). -/

namespace Sys2Proof.Machine

variable {c : Config} {s : State} {i : Instr} {k : Key} {a n : Word}

/-! ### A reset during a command (R231) -/

theorem fetchCommand_eq_some_iff {p : Packet} : fetchCommand p = some i ↔ decode p.toList = .ok i := by
  unfold fetchCommand
  cases decode p.toList <;> simp

/-- A byte that abandoning a command changes lies in the command's buffer and is the whole command's: only a command
that passed its prologue is torn, and its buffer is inside DMEM. -/
theorem abandonedDmem_read_of_ne {j x : Nat} {p : Packet} (hwf : Memory.wf c s.dmem)
    (hne : Memory.read c (abandonedDmem c j p s) x ≠ Memory.read c s.dmem x) :
    ∃ i a n, decode p.toList = .ok i ∧ bufferOf i = some (a, n) ∧ a.toNat ≤ x ∧ x < a.toNat + n.toNat ∧
      Memory.read c (abandonedDmem c j p s) x = Memory.read c (runWith c i s).dmem x := by
  unfold abandonedDmem at hne ⊢
  split at hne
  next => exact absurd rfl hne
  next i hfetch =>
    split at hne
    next a n hp hb =>
      have hfit : n.toNat = 0 ∨ a.toNat + n.toNat ≤ c.dmemSize := (bufferIn_of_prologue hp hb).eq_zero_or_fits
      obtain ⟨hle, hlt, hnew⟩ := (tornBuffer_read j (runWith c i s).dmem _ _ hwf hfit x).resolve_left hne
      exact ⟨i, a, n, fetchCommand_eq_some_iff.1 hfetch, hb, hle, hlt, by simpa only [hfetch, hp, hb] using hnew⟩
    next => exact absurd rfl hne

/-- Settles O12: a reset of the idle core does not name DMEM, and one that abandons a command tears its buffer. -/
theorem resetDuringCommandTearsOnlyItsBuffer : Obligations.ResetDuringCommandTearsOnlyItsBuffer := by
  refine ⟨fun s t rest he ht => ?_, fun s p rest he hwf => ⟨_, step_of_resetDuring he, ?_⟩⟩
  · rw [step_of_reset he, Host.Outcome.next.injEq] at ht
    exact ht ▸ rfl
  · exact ⟨rfl, rfl, rfl, rfl, rfl, rfl, fun x hne => abandonedDmem_read_of_ne (s := s.setEvents rest) hwf hne⟩

/-! ### What only a reset does (R232) -/

/-- No command but `macFinish` closes an open session: the others allowed there are `configure` and `macUpdate`. -/
theorem runWith_sessionOpen (ho : s.macst.sessionOpen = true) (hi : i ≠ .macFinish) :
    (runWith c i s).macst.sessionOpen = true := by
  obtain ⟨e, -, hrun⟩ | ⟨hp, hrun⟩ := runWith_cases c i s
  · rw [hrun, raise_macst, ho]
  rw [hrun]
  cases i
  case configure r m => exact ho
  case macUpdate a n => rfl
  case macFinish => exact absurd rfl hi
  case macGet | macCmp =>
    have hm : s.macst = .finished := by simpa [allowedIn] using (configured_and_allowed_of_prologue hp rfl).2
    rw [hm] at ho
    cases ho
  all_goals simpa [allowedIn, ho] using (configured_and_allowed_of_prologue hp rfl).2

/-- Settles O57: no command clears CFGV, only `macFinish` closes a session, and an illegal packet or a host write
reaches neither register. -/
theorem onlyResetClearsOrAbandons : Obligations.OnlyResetClearsOrAbandons := by
  intro s t hstep hchange
  have hkept : t.cfgv = s.cfgv → t.macst ≠ s.macst := by
    intro hc hm
    obtain ⟨hset, hclear⟩ | ⟨ho, hclosed, -⟩ := hchange
    · simp [hc, hset] at hclear
    · simp [hm, ho] at hclosed
  obtain ⟨-, rfl⟩ | ⟨rest, hcases⟩ := step_cases hstep
  · exact absurd rfl (hkept rfl)
  obtain ⟨p, i, he, hd, hexec⟩ | ⟨p, he, -, rfl⟩ | ⟨a, bytes, he, -, rfl⟩ | ⟨he, -⟩ | ⟨p, he, -⟩ := hcases
  · rw [exec_eq_runWith, Host.Outcome.next.injEq] at hexec
    subst hexec
    obtain ⟨hc, hclear⟩ | ⟨ho, hclosed, hfinish⟩ := hchange
    · simp [runWith_cfgv (s := s.setEvents rest) hc] at hclear
    · have hi : i ≠ .macFinish := fun hi => hfinish p rest he (hi ▸ hd)
      simp [runWith_sessionOpen (s := s.setEvents rest) ho hi] at hclosed
  · exact absurd rfl (hkept rfl)
  · exact absurd rfl (hkept rfl)
  · exact ⟨rest, .inl he⟩
  · exact ⟨rest, .inr ⟨p, he⟩⟩

/-! ### The first `configure` (R234) -/

theorem bufferInRange_iff : bufferInRange c i = true ↔ ∀ a n, bufferOf i = some (a, n) → BufferIn c a n := by
  unfold bufferInRange
  split
  next hb => simp [hb]
  next a n hb => simp [hb]

/-- In a configured core good operands leave the phase check alone to decide (R108). -/
theorem prologue_of_good_operands (hc : s.cfgv = true) (hl : lengthOk i = true) (hb : bufferInRange c i = true) :
    prologue c i s = if allowedIn i s.macst then none else some .invalidState := by
  split_ifs with ha
  · exact prologue_eq_none.2 (.inr ⟨hc, ha, hl, hb⟩)
  · exact prologue_of_phaseTable_none hc (allowedIn_eq_false_iff.1 (Bool.eq_false_of_not_eq_true ha))

/-- Settles O53: the core is configured and Uninitialized, so the status is the phase check's. -/
theorem firstConfigureOpensTheCore : Obligations.FirstConfigureOpensTheCore := by
  intro c s r m
  rw [runWith_configure]
  refine ⟨⟨rfl, rfl, rfl, rfl, rfl, rfl⟩, fun i hbuf hlen => ?_⟩
  obtain ⟨q, hq, hst⟩ := runWith_status c i (configureBody r m (resetEvent c s))
  refine ⟨q, hq, hst.trans ?_⟩
  rw [prologue_of_good_operands rfl (lengthOk_iff.2 hlen) (bufferInRange_iff.2 hbuf)]
  cases i <;> rfl

/-! ### How long a tag stays readable (R240) -/

theorem runWith_macGet_response (h : TagReady s) : (runWith c .macGet s).response = some ⟨.ok, false, s.r⟩ := by
  rw [runWith_macGet h]
  rfl

/-- Outside Finished there is no tag to read (R150). -/
theorem runWith_macGet_response_of_no_tag (hc : s.cfgv = true) (hm : s.macst ≠ .finished) :
    (runWith c .macGet s).response = some ⟨.error .invalidState, false, zeroBlock⟩ := by
  have hcell : phaseTable .macGet s.macst = none := allowedIn_eq_false_iff.1 (by simpa [allowedIn] using hm)
  rw [runWith_of_some (prologue_of_phaseTable_none hc hcell)]
  rfl

/-- The commands that read the tag, the ECB commands and `configure` write neither MACST nor R. -/
theorem bodyOf_keeps_tag (hi : i = .macGet ∨ (∃ t, i = .macCmp t) ∨ IsEcb i ∨ ∃ r m, i = .configure r m) :
    (bodyOf c i s).macst = s.macst ∧ (bodyOf c i s).r = s.r := by
  obtain rfl | ⟨tag, rfl⟩ | hecb | ⟨r, m, rfl⟩ := hi
  · exact ⟨rfl, rfl⟩
  · exact ⟨rfl, rfl⟩
  · cases i
    case ecbEncrypt | ecbDecrypt => exact ⟨rfl, rfl⟩
    all_goals cases hecb
  · exact ⟨rfl, rfl⟩

theorem tagReady_runWith (h : TagReady s)
    (hi : i = .macGet ∨ (∃ t, i = .macCmp t) ∨ IsEcb i ∨ ∃ r m, i = .configure r m) :
    TagReady (runWith c i s) ∧ (runWith c i s).r = s.r := by
  obtain ⟨hc, hm⟩ := h
  have hkept : (runWith c i s).macst = s.macst ∧ (runWith c i s).r = s.r := by
    obtain ⟨e, -, hrun⟩ | ⟨-, hrun⟩ := runWith_cases c i s
    · rw [hrun]
      exact ⟨rfl, rfl⟩
    · rw [hrun]
      exact bodyOf_keeps_tag hi
  exact ⟨⟨runWith_cfgv hc, hkept.1.trans hm⟩, hkept.2⟩

/-- From Finished the feedback commands lead to Uninitialized, `macInit` to Ready (R150). -/
theorem phaseTable_finished_of_reuse (hi : isCipher i = true ∧ ¬ IsEcb i ∨ ∃ k, i = .macInit k) :
    ∃ ph, phaseTable i .finished = some ph ∧ ph ≠ .finished := by
  obtain ⟨hcipher, hecb⟩ | ⟨k, rfl⟩ := hi
  · obtain ⟨k, a, n, ⟨dir, rfl⟩ | ⟨mode, dir, iv, rfl⟩⟩ := eq_command_of_isCipher hcipher
    · cases dir <;> exact absurd trivial hecb
    · exact ⟨.uninitialized, by cases mode <;> cases dir <;> rfl, by decide⟩
  · exact ⟨.ready, rfl, by decide⟩

/-- After a one-shot command that succeeds the new tag is in R (R161, R162). -/
theorem tagReady_runWith_macWhole (hi : i = .macCompute k a n ∨ ∃ t, i = .macVerify k t a n)
    (hp : prologue c i s = none) : TagReady (runWith c i s) ∧
      (runWith c i s).r = macTag c k s.macRounds (buf c s.dmem a n) := by
  obtain rfl | ⟨tag, rfl⟩ := hi
  · obtain ⟨h, hb⟩ := prologue_macCompute_eq_none.1 hp
    refine ⟨⟨runWith_cfgv h.1, ?_⟩, ?_⟩ <;> rw [runWith_macCompute h hb, macWholeBody_eq] <;> rfl
  · obtain ⟨h, hb⟩ := prologue_macVerify_eq_none.1 hp
    refine ⟨⟨runWith_cfgv h.1, ?_⟩, ?_⟩ <;> rw [runWith_macVerify h hb, macWholeBody_eq] <;> rfl

/-- Settles O54: `macGet` reads R in Finished and is refused elsewhere, so each clause is what its commands leave in
MACST and R. -/
theorem tagStaysUntilTheContextIsReused : Obligations.TagStaysUntilTheContextIsReused := by
  intro c s i h
  have hget : (runAll c [i, .macGet] s).response = (runWith c .macGet (runWith c i s)).response := rfl
  rw [hget]
  refine ⟨fun hi => ?_, fun hi hok => ?_, fun k a n hi hok => ?_⟩
  · obtain ⟨htag, hr⟩ := tagReady_runWith (c := c) h hi
    exact ⟨htag, by rw [runWith_macGet_response htag, runWith_macGet_response h, hr]⟩
  · obtain ⟨ph, hph, hne⟩ := phaseTable_finished_of_reuse hi
    rw [← h.2] at hph
    refine runWith_macGet_response_of_no_tag (runWith_cfgv h.1) ?_
    rwa [runWith_of_none (answeredOk_runWith_iff.1 hok), bodyOf_macst hph]
  · obtain ⟨htag, hr⟩ := tagReady_runWith_macWhole hi (answeredOk_runWith_iff.1 hok)
    rw [runWith_macGet_response htag, hr]

/-! ### A `configure` inside a session (R242) -/

theorem runAll_macFinish_macGet_response_of_open (h : SessionOpen s) :
    (runAll c [.macFinish, .macGet] s).response = some ⟨.ok, false, c.permute s.ks .forward s.r⟩ := by
  rw [runAll, runAll, runAll, runWith_macGet_response (tagReady_runWith_macFinish h), runWith_macFinish h]
  rfl

/-- The rest of an open session answers OK throughout, and its tag is a function of KS, R, POS and the bytes absorbed:
neither round count is read (R26). -/
theorem sessionRest_answers (h : SessionOpen s) {pieces : List (Word × Word)}
    (hin : ∀ x ∈ pieces, BufferIn c x.1 x.2) :
    AllAnswerOk c (macUpdates pieces ++ [.macFinish, .macGet]) s ∧
    (runAll c (macUpdates pieces ++ [.macFinish, .macGet]) s).response = some ⟨.ok, false,
      c.permute s.ks .forward (absorb c s.ks (s.r, s.pos) (piecesData c s.dmem pieces)).1⟩ := by
  obtain ⟨hok, habs⟩ := macUpdates_absorb h hin
  rw [allAnswerOk_append, runAll_append, runAll_macFinish_macGet_response_of_open habs.opened, habs.ks, ← habs.acc]
  exact ⟨⟨hok, allAnswerOk_macFinish_macGet habs.opened⟩, rfl⟩

/-- Settles O55: `configure` leaves the session open and KS, R, POS and DMEM as they were. -/
theorem configureInsideSessionKeepsTag : Obligations.ConfigureInsideSessionKeepsTag := by
  intro c s r m pieces h hin
  have hopen : SessionOpen (runWith c (.configure r m) s) := by
    rw [runWith_configure]
    exact ⟨rfl, h.2⟩
  obtain ⟨hok, hresp⟩ := sessionRest_answers hopen hin
  obtain ⟨-, hresp'⟩ := sessionRest_answers h hin
  refine ⟨⟨answeredOk_runWith_iff.2 (prologue_configure c r m s), hok⟩, hresp.trans (Eq.trans ?_ hresp'.symm)⟩
  rw [runWith_configure]
  rfl

/-! ### Call counts (R245) -/

/-- The first chunk is one iteration, and what is left is counted from where it ends. -/
theorem chunkCount_chunk {pos l : Nat} (hpos : pos < 8) (hl : 0 < l) : chunkCount pos l =
    1 + chunkCount ((pos + min (8 - pos) l) % 8) (l - min (8 - pos) l) := by
  simp only [chunkCount]
  split_ifs <;> omega

/-- The first chunk calls `permute` at a block boundary only. -/
theorem permuteCount_chunk {pos l : Nat} (hpos : pos < 8) (hl : 0 < l) : permuteCount pos l =
    (if pos = 0 then 1 else 0) + permuteCount ((pos + min (8 - pos) l) % 8) (l - min (8 - pos) l) := by
  simp only [permuteCount]
  split_ifs <;> omega

@[simp] theorem chunkCount_zero (pos : Nat) : chunkCount pos 0 = 0 := by simp [chunkCount]

@[simp] theorem permuteCount_zero (pos : Nat) : permuteCount pos 0 = 0 := by simp [permuteCount]

section Counts

variable (mode : Mode) (dir : CipherDir) (discard : Bool)

theorem feedbackChunk_permutes (ks : Sched) (e : Engine) : (feedbackChunk c ks mode dir discard e).permutes =
    e.permutes + if e.pos.val = 0 then 1 else 0 := by
  simp only [feedbackChunk, Fin.ext_iff, Fin.val_zero]
  split_ifs <;> rfl

/-- The loop counts `chunkCount` iterations and `permuteCount` calls over what is left of the buffer. -/
theorem feedbackLoop_counts (ks : Sched) (fuel : Nat) (e : Engine) (h : e.rem.toNat ≤ fuel) :
    (feedbackLoop c ks mode dir discard fuel e).iterations = e.iterations + chunkCount e.pos.val e.rem.toNat ∧
    (feedbackLoop c ks mode dir discard fuel e).permutes = e.permutes + permuteCount e.pos.val e.rem.toNat := by
  induction fuel generalizing e with
  | zero =>
    rw [Nat.le_zero.1 h, chunkCount_zero, permuteCount_zero]
    exact ⟨rfl, rfl⟩
  | succ fuel ih =>
    rw [feedbackLoop]
    split_ifs with h0
    · simp [h0]
    · have hpos := chunkLength_pos h0
      have hrem := chunkLength_le_rem e
      have hl : 0 < e.rem.toNat := Nat.lt_of_lt_of_le hpos hrem
      obtain ⟨hit, hperm⟩ := ih (feedbackChunk c ks mode dir discard e) (by rw [feedbackChunk_rem]; omega)
      rw [hit, hperm, feedbackChunk_rem, feedbackChunk_permutes, chunkCount_chunk e.pos.isLt hl,
        permuteCount_chunk e.pos.isLt hl, ← Nat.add_assoc, ← Nat.add_assoc]
      exact ⟨rfl, rfl⟩

theorem feedbackEngine_counts (a n : Word) (s : State) :
    (feedbackEngine c mode dir a n discard s).iterations = chunkCount s.pos.val n.toNat ∧
    (feedbackEngine c mode dir a n discard s).permutes = permuteCount s.pos.val n.toNat := by
  have h := feedbackLoop_counts (c := c) mode dir discard s.ks n.toNat (engineStart a n s) le_rfl
  exact ⟨h.1.trans (Nat.zero_add _), h.2.trans (Nat.zero_add _)⟩

end Counts

/-! The loops of the table's rows, but for that of `macUpdate`, which is the engine's own. -/

theorem ecbCalls_eq (d : Direction) : ecbCalls c d k a n s = ⟨n.toNat / 8, 1, n.toNat / 8, 0⟩ := by
  simp [ecbCalls, ecbEngine, ecbLoop_eq]

theorem feedbackCalls_eq (mode : Mode) (dir : CipherDir) (iv : Block) : feedbackCalls c mode dir k iv a n s =
    ⟨chunkCount 0 n.toNat, 1, permuteCount 0 n.toNat, 0⟩ := by
  obtain ⟨hit, hperm⟩ := feedbackEngine_counts (c := c) mode dir false a n (feedbackSeed c k iv s)
  rw [feedbackCalls, hit, hperm]
  rfl

theorem macWholeCalls_eq : macWholeCalls c k a n s =
    ⟨chunkCount 0 n.toNat, 1, permuteCount 0 n.toNat + 1, 1⟩ := by
  obtain ⟨hit, hperm⟩ := feedbackEngine_counts (c := c) .cfb .enc true a n (macInitBody c k s)
  rw [macWholeCalls, hit, hperm]
  rfl

theorem callsOf_of_some {e : Cause} (h : prologue c i s = some e) : callsOf c i s = ⟨0, 0, 0, 0⟩ := by
  simp only [callsOf, h]

/-- Settles O56: a command that raises an error enters no call; for the others each loop's engine counts what the table
says. -/
theorem callCountsMatchTheTable : Obligations.CallCountsMatchTheTable := by
  intro c i s
  rw [answeredOk_runWith_iff]
  refine ⟨fun herr => ?_, fun hp => ?_⟩
  · obtain ⟨e, he⟩ := Option.ne_none_iff_exists'.1 herr
    exact callsOf_of_some he
  · cases i
    case macUpdate a n =>
      obtain ⟨hit, hperm⟩ := feedbackEngine_counts (c := c) .cfb .enc true a n s
      simp only [callsOf, hp, hit, hperm]
    case configure | macInit | macFinish | macGet | macCmp => simp only [callsOf, hp]
    case ecbEncrypt | ecbDecrypt => simp only [callsOf, hp, ecbCalls_eq]
    case cfbEncrypt | cfbDecrypt | ofbEncrypt | ofbDecrypt => simp only [callsOf, hp, feedbackCalls_eq]
    case macCompute | macVerify => simp only [callsOf, hp, macWholeCalls_eq]

end Sys2Proof.Machine
